-- ==== Sys2Proof/Word.lean ====
section
/-! DEFINITION. The words of the ARC core and the one-line arithmetic names the rules use (00_scope.md R7). -/

namespace Sys2Proof

/-- A 32-bit command word, register or stream window (30_encoding.md R60, 10_state.md R17). -/
abbrev Word := BitVec 32

/-- One byte of a stream (10_state.md R32). -/
abbrev Byte := BitVec 8

/-- A response word (30_encoding.md R66). -/
abbrev Response := BitVec 64

end Sys2Proof
end

