-- ==== Sys2Proof/Syntax.lean ====
section
/-! DEFINITION. The eleven commands of spec/opcode_table.json with their operand fields (30_encoding.md R61-R63). -/

namespace Sys2Proof

/-- The session direction, register DIR and the INIT field DIR: 0 encode, 1 decode (10_state.md R13). -/
inductive Dir where
  | encode
  | decode
  deriving DecidableEq, Repr

/-- The commands. A field keeps exactly the bits its format gives it (R61, R62); whether its value is legal is
`Instr.wellFormed`, and a legal pattern with an illegal value still decodes (R63, R65). -/
inductive Instr where
  /-- NOP, format Z (43_commands.md R151). -/
  | nop
  /-- INIT, format I: DIR, PMODE, APM_EN (R152). -/
  | init (dir : Dir) (pmode : BitVec 2) (apmEn : Bool)
  /-- ENC_BIT, format B: BIT (R155). -/
  | encBit (bit : Bool)
  /-- ENC_BYTE, format Y: BYTE (R156). -/
  | encByte (byte : Byte)
  /-- DEC_BIT, format Z (R157). -/
  | decBit
  /-- DEC_BYTE, format Z (R158). -/
  | decByte
  /-- ENC_RAW, format PB: BIT, P (R159). -/
  | encRaw (bit : Bool) (p : BitVec 12)
  /-- DEC_RAW, format P: P (R160). -/
  | decRaw (p : BitVec 12)
  /-- FLUSH, format Z (R161). -/
  | flush
  /-- GETP, format Z (R162). -/
  | getp
  /-- RDREG, format R: REG (R163). -/
  | rdreg (reg : BitVec 8)
  deriving DecidableEq, Repr

end Sys2Proof
end

