-- ==== Sys2Proof/WellFormed.lean ====
section
/-! DEFINITION. Which operand values are legal (30_encoding.md R62, column "legal values"). An ill-formed command still has
an encoding and still decodes; executing it faults ILLEGAL_FIELD or PROB_RANGE (R65, 60_exceptions.md R191). -/

namespace Sys2Proof

/-- R62: PMODE is 0, 1 or 2; APM_EN is 1 only with PMODE = 2. -/
def initFieldsLegal (pmode : BitVec 2) (apmEn : Bool) : Bool :=
  pmode != 3#2 && (!apmEn || pmode == 2#2)

/-- R62: REG is 0x00-0x0B. -/
def regLegal (reg : BitVec 8) : Bool := reg.toNat < 0x0C

/-- R62: P is 1-4095. -/
def probLegal (p : BitVec 12) : Bool := p != 0#12

/-- Every operand of the command has a value R62 calls legal. -/
def Instr.wellFormed : Instr → Bool
  | .nop => true
  | .init _ pmode apmEn => initFieldsLegal pmode apmEn
  | .encBit _ => true
  | .encByte _ => true
  | .decBit => true
  | .decByte => true
  | .encRaw _ p => probLegal p
  | .decRaw p => probLegal p
  | .flush => true
  | .getp => true
  | .rdreg reg => regLegal reg

end Sys2Proof
end

