-- ==== Sys2Proof/Decode.lean ====
section
/-! DEFINITION. Decoding a command word, total and rejecting by name, and the encoder (30_encoding.md R60-R65, R68). -/

namespace Sys2Proof

/-- Why a word is no command: a reserved opcode (R64), or a defined opcode with a reserved bit set (R65). -/
inductive DecodeError where
  | reservedOpcode (opc : BitVec 4)
  | reservedBits (opc : BitVec 4)
  deriving DecidableEq, Repr

/-- OPC, bits [31:28] (R60). -/
def opcodeOf (w : Word) : BitVec 4 := w.extractLsb' 28 4

/-- The mask column of R63 for a defined opcode; for the reserved ones the table's F0000000. -/
def maskOf (opc : BitVec 4) : Word :=
  match opc.toNat with
  | 0x0 => 0xFFFFFFFF#32
  | 0x1 => 0xFFFFFFF0#32
  | 0x2 => 0xFFFFFFFE#32
  | 0x3 => 0xFFFFFF00#32
  | 0x4 => 0xFFFFFFFF#32
  | 0x5 => 0xFFFFFFFF#32
  | 0x6 => 0xFFFFE000#32
  | 0x7 => 0xFFFFF000#32
  | 0x8 => 0xFFFFFFFF#32
  | 0x9 => 0xFFFFFFFF#32
  | 0xA => 0xFFFFFF00#32
  | _ => 0xF0000000#32

/-- The reserved bits of [27:0] that are set (R61, R191 step 3). -/
def reservedSet (w : Word) : Word := w &&& maskOf (opcodeOf w) &&& 0x0FFFFFFF#32

/-- The one-bit field at bit `k` (R62). -/
def bitField (w : Word) (k : Nat) : Bool := w.getLsbD k

/-- The INIT field DIR as a direction (R62). -/
def dirField (b : Bool) : Dir := if b then .decode else .encode

/-- The fields of a word whose reserved bits are 0, by its opcode (R61-R63); none for a reserved opcode. -/
def decodeFields (w : Word) : Option Instr :=
  match (opcodeOf w).toNat with
  | 0x0 => some .nop
  | 0x1 => some (.init (dirField (bitField w 0)) (w.extractLsb' 1 2) (bitField w 3))
  | 0x2 => some (.encBit (bitField w 0))
  | 0x3 => some (.encByte (w.extractLsb' 0 8))
  | 0x4 => some .decBit
  | 0x5 => some .decByte
  | 0x6 => some (.encRaw (bitField w 12) (w.extractLsb' 0 12))
  | 0x7 => some (.decRaw (w.extractLsb' 0 12))
  | 0x8 => some .flush
  | 0x9 => some .getp
  | 0xA => some (.rdreg (w.extractLsb' 0 8))
  | _ => none

/-- The command a word stands for (R63), or the reason it is none (R64, R65). Total; no mode changes it (R68). -/
def decode (w : Word) : Except DecodeError Instr :=
  match decodeFields w with
  | none => .error (.reservedOpcode (opcodeOf w))
  | some i => if reservedSet w = 0#32 then .ok i else .error (.reservedBits (opcodeOf w))

/-- The direction as the bit the field holds (R62). -/
def Dir.bit : Dir → BitVec 1
  | .encode => 0#1
  | .decode => 1#1

/-- The opcode of a command (R63). -/
def Instr.opc : Instr → BitVec 4
  | .nop => 0x0#4
  | .init _ _ _ => 0x1#4
  | .encBit _ => 0x2#4
  | .encByte _ => 0x3#4
  | .decBit => 0x4#4
  | .decByte => 0x5#4
  | .encRaw _ _ => 0x6#4
  | .decRaw _ => 0x7#4
  | .flush => 0x8#4
  | .getp => 0x9#4
  | .rdreg _ => 0xA#4

/-- Bits [27:0] of a command: its fields at the places of its format, every other bit 0 (R61). -/
def Instr.operandBits : Instr → BitVec 28
  | .nop => 0#28
  | .init d m a => 0#24 ++ (BitVec.ofBool a ++ (m ++ d.bit))
  | .encBit b => 0#27 ++ BitVec.ofBool b
  | .encByte v => 0#20 ++ v
  | .decBit => 0#28
  | .decByte => 0#28
  | .encRaw b p => 0#15 ++ (BitVec.ofBool b ++ p)
  | .decRaw p => 0#16 ++ p
  | .flush => 0#28
  | .getp => 0#28
  | .rdreg r => 0#20 ++ r

/-- The word of a command (R60-R63). -/
def encode (i : Instr) : Word := i.opc ++ i.operandBits

/-- The instruction the decoder reads from a table row's bits `w`, `nbits` of them given, the rest 0.
Every command is one 32-bit word (R60), which crosses the interface whole (20_memory.md R45). -/
def decodeTableWord (nbits w : Nat) : Option Instr :=
  match decode (BitVec.ofNat 32 (w % 2 ^ nbits)) with
  | .ok i => some i
  | .error _ => none

end Sys2Proof
end

