-- ==== Sys2Proof/Config.lean ====
section
/-! DEFINITION. What one implementation fixes (the FIFO depths, 00_scope.md R6) and the free values: what the spec
leaves unspecified in FAULT state and after reset (60_exceptions.md R196, 10_state.md R31; 93_implementation_defined.md
U1-U4). A free value is an opaque constant with no body, applied to the number of the draw. -/

namespace Sys2Proof

/-- An adaptive counter entry: probability `p` of bit 1 scaled by 65536, confidence `n` (10_state.md R27). -/
structure Counter where
  p : BitVec 16
  n : BitVec 5
  deriving DecidableEq, Repr, Inhabited

/-- The five counter tables (10_state.md R26). -/
inductive TableId where
  | t0 | t1 | t2 | t3 | t4
  deriving DecidableEq, Repr

/-- The four FIFO capacities, OPEN parameters each at least 1 (00_scope.md R6, 10_state.md R32; D3). Log entry 5. -/
structure Depths where
  cmd : Nat
  resp : Nat
  inp : Nat
  out : Nat
  deriving DecidableEq, Repr

/-- LOW after fault entry, for draw `k` (60_exceptions.md R196, U1). Log entry 1. -/
opaque Config.unspecLow (k : Nat) : Word

/-- HIGH after fault entry, for draw `k` (R196, U1). Log entry 1. -/
opaque Config.unspecHigh (k : Nat) : Word

/-- CODE after fault entry, for draw `k` (R196, U1). Log entry 1. -/
opaque Config.unspecCode (k : Nat) : Word

/-- C0 after fault entry, for draw `k` (R196, U1, U2). Log entry 1. -/
opaque Config.unspecC0 (k : Nat) : Byte

/-- C4 after fault entry, for draw `k` (R196, U1). Log entry 1. -/
opaque Config.unspecC4 (k : Nat) : Word

/-- Entry `i` of a counter table whose contents are unspecified, for draw `k` (R31, R196; U3, U4). Log entry 3. -/
opaque Config.unspecCounter (k : Nat) (t : TableId) (i : Nat) : Counter

/-- Entry `i` of the weight file while its contents are unspecified, for draw `k` (U3, U4). Log entry 3. -/
opaque Config.unspecWeight (k : Nat) (i : Nat) : BitVec 20

/-- Entry `i` of the APM table while its contents are unspecified, for draw `k` (U3, U4). Log entry 3. -/
opaque Config.unspecApm (k : Nat) (i : Nat) : BitVec 16

end Sys2Proof
end

