-- ==== Sys2Proof/Machine/Numeric.lean ====
section
/-! DEFINITION. Integer helpers of the rules (00_scope.md R7) and the logistic transforms (42_mixer_apm.md R120-R123). -/

namespace Sys2Proof.Machine

/-- `v >>ₐ s`, floor(v / 2^s) on a signed value (00_scope.md R7). -/
def asr (v : Int) (s : Nat) : Int := v / 2 ^ s

/-- `clamp(v, lo, hi) = max(lo, min(hi, v))` (R7). -/
def clamp (v lo hi : Int) : Int := max lo (min hi v)

/-- `floor_log2(n)` for n ≥ 1 (R7). At 0, where the rules do not define it, it is 0 (log entry 12). -/
def floorLog2 (n : Nat) : Nat := Nat.log2 n

/-- The squash table SQ[0..32] (42_mixer_apm.md R120). -/
def sqTable : List Nat :=
  [1, 2, 3, 6, 10, 16, 27, 45, 73, 120, 194,
   310, 488, 747, 1101, 1546, 2047, 2549, 2994, 3348, 3607, 3785,
   3901, 3975, 4024, 4050, 4068, 4079, 4085, 4089, 4092, 4093, 4094]

/-- `SQ[i]`. -/
def sq (i : Nat) : Nat := sqTable.getD i 0

/-- `squash(d)`: from a logit to a probability in [1, 4094] (R121). -/
def squash (d : Int) : Nat :=
  let d := clamp d (-2047) 2047
  let w := (d % 128).toNat
  let i := (asr d 7 + 16).toNat
  (sq i * (128 - w) + sq (i + 1) * w + 64) / 128

/-- How many logits x of [-2047, 2047] have squash(x) < p, found from the bits of the answer, largest first. -/
def stretchSearch (p : Nat) : List Nat → Nat → Nat
  | [], pos => pos
  | k :: ks, pos =>
    if squash ((pos + k : Nat) - 2048 : Int) < p then stretchSearch p ks (pos + k) else stretchSearch p ks pos

/-- `stretch(p)`: the least logit that squashes to at least p, 2047 if there is none (R122). Since squash is non-decreasing
(R121), the least one is found by binary search (log entry 14). -/
def stretch (p : Nat) : Int :=
  (min (stretchSearch p [2048, 1024, 512, 256, 128, 64, 32, 16, 8, 4, 2, 1] 0) 4094 : Nat) - 2047

end Sys2Proof.Machine
end

