-- ==== Sys2Proof/Machine/State.lean ====
section
/-! DEFINITION. The state of the ARC core: everything 10_state.md gives it, as plain data, and the state after hardware
reset (70_reset_and_hazards.md R220, 10_state.md R35). -/

namespace Sys2Proof.Machine

/-- SSTATE (10_state.md R12). -/
inductive SState where
  | idle | coding | done | fault
  deriving DecidableEq, Repr

/-- The fault codes 0x01-0x0B of 60_exceptions.md R190. They are not stops of the model: fault entry (R195) is a next state. -/
inductive FaultCode where
  | illegalOpcode | illegalField | sequence | wrongDirection | noPredictor | misaligned | probRange
  | corruptEof | corruptRange | corruptTrailer | invariant
  deriving DecidableEq, Repr

/-- An item of INQ: `Byte(b)` or `End` (10_state.md R32). -/
inductive InItem where
  | byte (b : Byte)
  | endMark
  deriving DecidableEq, Repr

/-- Where a command holds (10_state.md R33, 43_commands.md R167), with the bit index of a byte command, the bits decoded so
far, and, inside the renormalisation of a decoded bit, that bit (log entry 16). -/
inductive HoldPoint where
  /-- INIT, at the `InPop` of `RC_Prime`; `left` reads still to do. -/
  | prime (left : Nat)
  /-- ENC_BIT, at an `OutPush` of `RC_Renorm`. -/
  | encBit
  /-- ENC_BYTE, at an `OutPush` of `RC_Renorm` of bit `k`. -/
  | encByte (k : Nat)
  /-- DEC_BIT, at an `InPop` of `RC_Renorm`; `y` is the bit. -/
  | decBit (y : Bool)
  /-- DEC_BYTE, at an `InPop` of `RC_Renorm` of bit `k`; `acc` holds the bits before it, `y` is the bit. -/
  | decByte (k : Nat) (acc : Byte) (y : Bool)
  /-- ENC_RAW, at an `OutPush` of `RC_Renorm`. -/
  | encRaw
  /-- DEC_RAW, at an `InPop` of `RC_Renorm`; `y` is the bit. -/
  | decRaw (y : Bool)
  /-- FLUSH of an encode session, at an `OutPush`; `left` bytes of LOW still to push. -/
  | flushEnc (left : Nat)
  /-- FLUSH of a decode session, at the `InPop` of `RC_EndDec`. -/
  | flushDec
  /-- Any command, at the response push. -/
  | respond (status : BitVec 8) (data : Word)
  deriving DecidableEq, Repr

/-- The hidden command-in-progress record: the command word and the step it has reached (10_state.md R33). -/
structure InProgress where
  word : Word
  pos : HoldPoint
  deriving DecidableEq, Repr

/-- What an unlisted table entry reads as: the INIT value (10_state.md R31), or, after hardware reset and in FAULT state, the
free values of draw `k` (R31, 60_exceptions.md R196). Log entry 3. -/
inductive TableBase where
  | init
  | unspecified (k : Nat)
  deriving DecidableEq, Repr

/-- The seven tables (10_state.md R26). Each is a list of (index, entry) in canonical form over `base`
(`Memory.wf`). A counter table is keyed by its index, W by `5 * s + i`, A by `33 * r + j`. -/
structure Memory where
  base : TableBase
  t0 : List (Nat × Counter)
  t1 : List (Nat × Counter)
  t2 : List (Nat × Counter)
  t3 : List (Nat × Counter)
  t4 : List (Nat × Counter)
  w : List (Nat × BitVec 20)
  a : List (Nat × BitVec 16)
  deriving DecidableEq, Repr

/-- The state. ID and PARAMS are constants of the register read (10_state.md R14, R16), STATUS is composed there (R15). -/
structure State where
  /-- SSTATE (10_state.md R12). -/
  sstate : SState
  /-- DIR (R13). -/
  dir : Dir
  /-- PMODE (R13). -/
  pmode : BitVec 2
  /-- APM_EN (R13). -/
  apmEn : Bool
  /-- FAULTCODE (R22). -/
  faultcode : BitVec 8
  /-- LOW (R17). -/
  low : Word
  /-- HIGH (R17). -/
  high : Word
  /-- CODE (R17). -/
  code : Word
  /-- C0 (R18). -/
  c0 : Byte
  /-- C4 (R19). -/
  c4 : Word
  /-- BITCOUNT (R20). -/
  bitcount : BitVec 64
  /-- BYTES_IN (R21). -/
  bytesIn : Word
  /-- BYTES_OUT (R21). -/
  bytesOut : Word
  /-- The tables T0-T4, W and A (R26). -/
  mem : Memory
  /-- CMDQ, head first (R32). -/
  cmdq : List Word
  /-- RESPQ, head first (R32). -/
  respq : List Response
  /-- INQ, head first (R32). -/
  inq : List InItem
  /-- OUTQ, head first (R32). -/
  outq : List Byte
  /-- The command in progress (R33). -/
  cip : Option InProgress
  /-- The FIFO capacities of this machine (R32). Nothing writes them. Log entry 5. -/
  depths : Depths
  /-- The model's own counter of free-value draws. Log entry 4. -/
  draws : Nat
  deriving DecidableEq, Repr

/-- The model never stops with a fault: the spec's faults are next states (60_exceptions.md R195), so there is no constructor.
Safe. Log entry 21. -/
inductive Fault where
  deriving DecidableEq, Repr

/-- Why `exec` has no meaning for a command. -/
inductive Refusal where
  /-- Raised by an arm of `exec` whose command has no meaning yet; safe. No arm raises it. -/
  | notModelled (mnemonic : String)
  deriving DecidableEq, Repr

/-- Tables whose every entry is the free value of draw `k`. -/
def Memory.unspecified (k : Nat) : Memory :=
  { base := .unspecified k, t0 := [], t1 := [], t2 := [], t3 := [], t4 := [], w := [], a := [] }

/-- Tables whose every entry has its INIT value (10_state.md R31). -/
def Memory.initial : Memory :=
  { base := .init, t0 := [], t1 := [], t2 := [], t3 := [], t4 := [], w := [], a := [] }

/-- The state right after hardware reset of a machine with FIFO capacities `d`, its tables the free values of draw `k`
(10_state.md R35, 70_reset_and_hazards.md R220). -/
def State.afterReset (d : Depths) (k : Nat) : State :=
  { sstate := .idle
    dir := .encode
    pmode := 0#2
    apmEn := false
    faultcode := 0#8
    low := 0x00000000#32
    high := 0xFFFFFFFF#32
    code := 0x00000000#32
    c0 := 1#8
    c4 := 0x00000000#32
    bitcount := 0#64
    bytesIn := 0#32
    bytesOut := 0#32
    mem := Memory.unspecified k
    cmdq := []
    respq := []
    inq := []
    outq := []
    cip := none
    depths := d
    draws := k + 1 }

/-- The machine right after reset. The FIFO depths are DESIGN CHOICE (log entry 5), the draw number too (log entry 4). -/
def State.reset : State :=
  State.afterReset { cmd := 65536, resp := 65536, inp := 65536, out := 65536 } 0

end Sys2Proof.Machine
end

