-- ==== Sys2Proof/Machine/Flags.lean ====
section
/-! DEFINITION. The status the core reports: fault codes, the STATUS register and the response word (10_state.md R12, R15;
30_encoding.md R66; 60_exceptions.md R190). The core has no condition codes (10_state.md R25). -/

namespace Sys2Proof.Machine

/-- The value of SSTATE (10_state.md R12). -/
def SState.value : SState → BitVec 2
  | .idle => 0#2
  | .coding => 1#2
  | .done => 2#2
  | .fault => 3#2

/-- The value of DIR (R13). -/
def dirValue : Dir → BitVec 1
  | .encode => 0#1
  | .decode => 1#1

/-- The fault codes (60_exceptions.md R190). -/
def FaultCode.value : FaultCode → BitVec 8
  | .illegalOpcode => 0x01#8
  | .illegalField => 0x02#8
  | .sequence => 0x03#8
  | .wrongDirection => 0x04#8
  | .noPredictor => 0x05#8
  | .misaligned => 0x06#8
  | .probRange => 0x07#8
  | .corruptEof => 0x08#8
  | .corruptRange => 0x09#8
  | .corruptTrailer => 0x0A#8
  | .invariant => 0x0B#8

/-- STATUS 0x00, OK (30_encoding.md R66). -/
def statusOk : BitVec 8 := 0x00#8

/-- STATUS 0x0C, FAULTED: the command was refused in FAULT state (R190, R194). -/
def statusFaulted : BitVec 8 := 0x0C#8

/-- BITPOS, the number of bits of the current byte already coded (10_state.md R15). -/
def bitPos (s : State) : Nat := floorLog2 s.c0.toNat

/-- The STATUS register: FAULTCODE [23:16], BITPOS [10:8], APM_EN [5], PMODE [4:3], DIR [2], SSTATE [1:0], the reserved bits 0
(R15). -/
def statusReg (s : State) : Word :=
  0#8 ++ (s.faultcode ++ (0#5 ++ (BitVec.ofNat 3 (bitPos s) ++ (0#2 ++ (BitVec.ofBool s.apmEn ++ (s.pmode ++
    (dirValue s.dir ++ s.sstate.value)))))))

/-- The response word: DATA [63:32], reserved [31:12] = 0, OPC [11:8], STATUS [7:0] (30_encoding.md R66). -/
def responseWord (w : Word) (status : BitVec 8) (data : Word) : Response :=
  data ++ (0#20 ++ (w.extractLsb' 28 4 ++ status))

end Sys2Proof.Machine
end

