-- ==== Sys2Proof/Machine/Ops.lean ====
section
/-! DEFINITION. The named operations over the tables, the streams and the registers (00_scope.md R8, 20_memory.md R41, R42),
fault entry (60_exceptions.md R195) and the response (30_encoding.md R66). -/

namespace Sys2Proof.Machine

/-! ## Tables: sparse lists over a default -/

/-- Entry `i` of a table held as `cells`: the listed one, or what an unlisted index reads as. -/
def cellsRead {α : Type} (dflt : Nat → α) (cells : List (Nat × α)) (i : Nat) : α :=
  match cells with
  | [] => dflt i
  | (j, v) :: rest => if j = i then v else cellsRead dflt rest i

/-- The list without an entry for `i`. -/
def cellsErase {α : Type} (cells : List (Nat × α)) (i : Nat) : List (Nat × α) :=
  match cells with
  | [] => []
  | (j, v) :: rest => if j = i then rest else (j, v) :: cellsErase rest i

/-- The list with `v` at `i`, in rising order of index. -/
def cellsInsert {α : Type} (cells : List (Nat × α)) (i : Nat) (v : α) : List (Nat × α) :=
  match cells with
  | [] => [(i, v)]
  | (j, u) :: rest =>
    if i < j then (i, v) :: (j, u) :: rest
    else if i = j then (i, v) :: rest
    else (j, u) :: cellsInsert rest i v

/-- The list after entry `i` is set to `v`: an entry equal to the default is not listed. -/
def cellsWrite {α : Type} [DecidableEq α] (dflt : Nat → α) (cells : List (Nat × α)) (i : Nat) (v : α) :
    List (Nat × α) :=
  if v = dflt i then cellsErase cells i else cellsInsert cells i v

/-- The canonical form of a table of `size` entries: indices strictly rising and inside the table's index space (10_state.md
R30), no entry equal to what an unlisted index reads as. -/
abbrev cellsWf {α : Type} (size : Nat) (dflt : Nat → α) (cells : List (Nat × α)) : Prop :=
  cells.Pairwise (fun x y => x.1 < y.1) ∧ ∀ c ∈ cells, c.1 < size ∧ c.2 ≠ dflt c.1

/-- INIT value of a counter (41_predictors.md R101). -/
def counterInit : Counter := { p := 32768#16, n := 0#5 }

/-- INIT value of a weight, W_INIT (42_mixer_apm.md R126). -/
def weightInit : BitVec 20 := 16384#20

/-- INIT value of bucket `j` of every APM row (R133). -/
def apmInit (j : Nat) : BitVec 16 := BitVec.ofNat 16 (squash (((j : Int) - 16) * 128) * 16)

/-- What an unlisted counter reads as. -/
def counterDefault (b : TableBase) (t : TableId) (i : Nat) : Counter :=
  match b with
  | .init => counterInit
  | .unspecified k => Config.unspecCounter k t i

/-- What an unlisted weight reads as. -/
def weightDefault (b : TableBase) (i : Nat) : BitVec 20 :=
  match b with
  | .init => weightInit
  | .unspecified k => Config.unspecWeight k i

/-- What an unlisted APM entry reads as; bucket `j` of row `r` has key `33 * r + j`. -/
def apmDefault (b : TableBase) (i : Nat) : BitVec 16 :=
  match b with
  | .init => apmInit (i % 33)
  | .unspecified k => Config.unspecApm k i

/-- The listed entries of a counter table. -/
def Memory.counters (m : Memory) : TableId → List (Nat × Counter)
  | .t0 => m.t0
  | .t1 => m.t1
  | .t2 => m.t2
  | .t3 => m.t3
  | .t4 => m.t4

/-- The tables with the listed entries of one counter table replaced. -/
def Memory.withCounters (m : Memory) (t : TableId) (cells : List (Nat × Counter)) : Memory :=
  match t with
  | .t0 => { m with t0 := cells }
  | .t1 => { m with t1 := cells }
  | .t2 => { m with t2 := cells }
  | .t3 => { m with t3 := cells }
  | .t4 => { m with t4 := cells }

/-- The number of entries of a counter table (10_state.md R26, R30). -/
def tableSize : TableId → Nat
  | .t0 => 256
  | .t1 => 65536
  | .t2 => 1048576
  | .t3 => 1048576
  | .t4 => 1048576

/-- `TRead(T, i)` of a counter table (00_scope.md R8). -/
def Memory.readCounter (m : Memory) (t : TableId) (i : Nat) : Counter :=
  cellsRead (counterDefault m.base t) (m.counters t) i

/-- `TWrite(T, i, v)` of a counter table (R8). -/
def Memory.writeCounter (m : Memory) (t : TableId) (i : Nat) (v : Counter) : Memory :=
  m.withCounters t (cellsWrite (counterDefault m.base t) (m.counters t) i v)

/-- The key of `W[s][i]` (10_state.md R28, R30). -/
def weightKey (s i : Nat) : Nat := 5 * s + i

/-- `W[s][i]`. -/
def Memory.readWeight (m : Memory) (s i : Nat) : BitVec 20 :=
  cellsRead (weightDefault m.base) m.w (weightKey s i)

/-- `W[s][i] <- v`. -/
def Memory.writeWeight (m : Memory) (s i : Nat) (v : BitVec 20) : Memory :=
  { m with w := cellsWrite (weightDefault m.base) m.w (weightKey s i) v }

/-- The key of `A[r][j]` (10_state.md R29, R30). -/
def apmKey (r j : Nat) : Nat := 33 * r + j

/-- `A[r][j]`. -/
def Memory.readApm (m : Memory) (r j : Nat) : BitVec 16 :=
  cellsRead (apmDefault m.base) m.a (apmKey r j)

/-- `A[r][j] <- v`. -/
def Memory.writeApm (m : Memory) (r j : Nat) (v : BitVec 16) : Memory :=
  { m with a := cellsWrite (apmDefault m.base) m.a (apmKey r j) v }

/-- Every table is in canonical form. -/
abbrev Memory.wf (m : Memory) : Prop :=
  cellsWf (tableSize .t0) (counterDefault m.base .t0) m.t0 ∧
  cellsWf (tableSize .t1) (counterDefault m.base .t1) m.t1 ∧
  cellsWf (tableSize .t2) (counterDefault m.base .t2) m.t2 ∧
  cellsWf (tableSize .t3) (counterDefault m.base .t3) m.t3 ∧
  cellsWf (tableSize .t4) (counterDefault m.base .t4) m.t4 ∧
  cellsWf 40 (weightDefault m.base) m.w ∧
  cellsWf (33 * 256) (apmDefault m.base) m.a

/-! ## Streams -/

/-- `OutPush(b)` (20_memory.md R41); none while OUTQ is full, where the command holds. -/
def outPush (b : Byte) (s : State) : Option State :=
  if s.outq.length < s.depths.out then some { s with outq := s.outq ++ [b], bytesOut := s.bytesOut + 1#32 } else none

/-- What `InPop` finds. -/
inductive Popped where
  /-- INQ is empty: the command holds. -/
  | empty
  /-- The head item was removed. -/
  | item (x : InItem) (s : State)
  deriving DecidableEq, Repr

/-- `InPop()`: removes the head of INQ; a `Byte` counts in BYTES_IN (R42). -/
def inPop (s : State) : Popped :=
  match s.inq with
  | [] => .empty
  | .byte b :: rest => .item (.byte b) { s with inq := rest, bytesIn := s.bytesIn + 1#32 }
  | .endMark :: rest => .item .endMark { s with inq := rest }

/-- `CODE <- ((CODE << 8) mod 2^32) or b` (R43; 40_range_coder.md R84, R88). -/
def shiftCode (b : Byte) (s : State) : State :=
  { s with code := (s.code <<< 8) ||| b.setWidth 32 }

/-! ## Registers -/

/-- One more coded bit: BITCOUNT wraps modulo 2^64 (10_state.md R20). -/
def countBit (s : State) : State := { s with bitcount := s.bitcount + 1#64 }

/-- `CtxUpdate(y)`: the context moves past the bit `y`; the eighth bit completes a byte (41_predictors.md R108). -/
def ctxUpdate (y : Bool) (s : State) : State :=
  let n := s.c0.toNat * 2 + y.toNat
  if 256 ≤ n then { s with c4 := (s.c4 <<< 8) ||| BitVec.ofNat 32 (n - 256), c0 := 1#8 }
  else { s with c0 := BitVec.ofNat 8 n }

/-! ## Fault entry and the response -/

/-- LOW, HIGH, CODE, C0, C4 and every table entry become free values, those of the next draw (60_exceptions.md R196; U1-U3).
Log entries 1 and 3. -/
def unspecify (s : State) : State :=
  { s with
    low := Config.unspecLow s.draws
    high := Config.unspecHigh s.draws
    code := Config.unspecCode s.draws
    c0 := Config.unspecC0 s.draws
    c4 := Config.unspecC4 s.draws
    mem := Memory.unspecified s.draws
    draws := s.draws + 1 }

/-- `FaultEntry(code)`, the one way into FAULT state: the first fault code of the session is kept (60_exceptions.md R195), and
what FAULT state leaves unspecified becomes free at the change of state (log entry 2). No pc, mask or mode is saved: there is
none. The way back is INIT (R198). -/
def faultEntry (f : FaultCode) (s : State) : State :=
  if s.sstate = .fault then s
  else { unspecify s with faultcode := f.value, sstate := .fault }

/-- `respond(status, data)`: the response of the command word `w` enters RESPQ and the command is complete; while RESPQ is
full it holds (30_encoding.md R66, 43_commands.md R150, R167). -/
def respond (w : Word) (status : BitVec 8) (data : Word) (s : State) : State :=
  if s.respq.length < s.depths.resp then { s with respq := s.respq ++ [responseWord w status data], cip := none }
  else { s with cip := some { word := w, pos := .respond status data } }

/-- How the pseudocode of a command can end: with its DATA, at a hold, or with a raised fault (43_commands.md R150, R167). -/
inductive Result where
  | done (data : Word) (s : State)
  | held (pos : HoldPoint) (s : State)
  | raised (f : FaultCode) (s : State)
  deriving DecidableEq, Repr

/-- `Execute` after `Sem`: answer OK, keep the hold position, or enter FAULT and answer the code (R150, R195). -/
def settle (w : Word) : Result → State
  | .done data s => respond w statusOk data s
  | .held pos s => { s with cip := some { word := w, pos := pos } }
  | .raised f s => respond w f.value 0#32 (faultEntry f s)

end Sys2Proof.Machine
end

