-- ==== Sys2Proof/Machine/Check.lean ====
section
/-! DEFINITION. `Check(w)`, the tests a command passes before its pseudocode runs, in their order (60_exceptions.md R191), and
`Execute` (43_commands.md R150). -/

namespace Sys2Proof.Machine

/-- The opcodes FAULT state does not refuse: NOP, INIT, RDREG (R191 step 1, R194). -/
def allowedInFault (opc : BitVec 4) : Bool := opc == 0x0#4 || opc == 0x1#4 || opc == 0xA#4

/-- The field values that fault ILLEGAL_FIELD (30_encoding.md R65, R191 step 3). -/
def fieldsLegal : Instr → Bool
  | .init _ pmode apmEn => initFieldsLegal pmode apmEn
  | .rdreg reg => regLegal reg
  | .nop => true
  | .encBit _ => true
  | .encByte _ => true
  | .decBit => true
  | .decByte => true
  | .encRaw _ _ => true
  | .decRaw _ => true
  | .flush => true
  | .getp => true

/-- The side of a coding bit command (R191 step 5). -/
def sideOf : Instr → Option Dir
  | .encBit _ => some .encode
  | .encByte _ => some .encode
  | .encRaw _ _ => some .encode
  | .decBit => some .decode
  | .decByte => some .decode
  | .decRaw _ => some .decode
  | .nop => none
  | .init _ _ _ => none
  | .flush => none
  | .getp => none
  | .rdreg _ => none

/-- The commands that use the predictor (R191 step 6). -/
def usesPredictor : Instr → Bool
  | .encBit _ => true
  | .encByte _ => true
  | .decBit => true
  | .decByte => true
  | .getp => true
  | .nop => false
  | .init _ _ _ => false
  | .encRaw _ _ => false
  | .decRaw _ => false
  | .flush => false
  | .rdreg _ => false

/-- The byte commands (R191 step 7). -/
def isByteCommand : Instr → Bool
  | .encByte _ => true
  | .decByte => true
  | .nop => false
  | .init _ _ _ => false
  | .encBit _ => false
  | .decBit => false
  | .encRaw _ _ => false
  | .decRaw _ => false
  | .flush => false
  | .getp => false
  | .rdreg _ => false

/-- The P field of a raw command (R191 step 8). -/
def rawProb : Instr → Option (BitVec 12)
  | .encRaw _ p => some p
  | .decRaw p => some p
  | .nop => none
  | .init _ _ _ => none
  | .encBit _ => none
  | .encByte _ => none
  | .decBit => none
  | .decByte => none
  | .flush => none
  | .getp => none
  | .rdreg _ => none

/-- What `Check` answers. -/
inductive Verdict where
  | ok
  | refused
  | fault (f : FaultCode)
  deriving DecidableEq, Repr

/-- `Check` of a word that is a command; steps 2 and the reserved-bit test of step 3 are the decoder's (R191, R192). -/
def check (i : Instr) (s : State) : Verdict :=
  if s.sstate = .fault ∧ allowedInFault i.opc = false then .refused
  else if fieldsLegal i = false then .fault .illegalField
  else if allowedInFault i.opc = true then .ok
  else if s.sstate ≠ .coding then .fault .sequence
  else if sideOf i ≠ none ∧ sideOf i ≠ some s.dir then .fault .wrongDirection
  else if usesPredictor i = true ∧ s.pmode = 0#2 then .fault .noPredictor
  else if isByteCommand i = true ∧ s.c0 ≠ 1#8 then .fault .misaligned
  else if rawProb i = some 0#12 then .fault .probRange
  else .ok

/-- The refusal in FAULT state: STATUS FAULTED, DATA = FAULTCODE, nothing else changes (R194). -/
def refuse (w : Word) (s : State) : State := respond w statusFaulted (s.faultcode.setWidth 32) s

/-- A fault found by `Check`: fault entry, then the response with DATA 0 (R150, R195). -/
def checkFault (w : Word) (f : FaultCode) (s : State) : State := respond w f.value 0#32 (faultEntry f s)

/-- `Execute(w)` of a command: the checks, then its pseudocode `sem` (43_commands.md R150). -/
def execute (i : Instr) (sem : State → Result) (s : State) : State :=
  match check i s with
  | .refused => refuse (encode i) s
  | .fault f => checkFault (encode i) f s
  | .ok => settle (encode i) (sem s)

/-- `Check` of a word that is no command: none where it is refused in FAULT state, else its fault (R191 steps 1-3;
30_encoding.md R64, R65). -/
def checkIllegal (w : Word) (e : DecodeError) (s : State) : Option FaultCode :=
  if s.sstate = .fault ∧ allowedInFault (opcodeOf w) = false then none
  else
    match e with
    | .reservedOpcode _ => some .illegalOpcode
    | .reservedBits _ => some .illegalField

/-- `Execute(w)` of a word that is no command (43_commands.md R150). -/
def executeIllegal (w : Word) (e : DecodeError) (s : State) : State :=
  match checkIllegal w e s with
  | none => refuse w s
  | some f => checkFault w f s

/-- `Check(w)` of any word (R191). -/
def checkWord (w : Word) (s : State) : Verdict :=
  match decode w with
  | .ok i => check i s
  | .error e =>
    match checkIllegal w e s with
    | none => .refused
    | some f => .fault f

end Sys2Proof.Machine
end

