-- ==== Sys2Proof/Machine/Predictor.lean ====
section
/-! DEFINITION. Adaptive counters, context indices and the DIRECT predictor (41_predictors.md R100-R111). -/

namespace Sys2Proof.Machine

/-- `RATE(N) = min(floor_log2(N + 2), 5)` (R102). -/
def rate (n : Nat) : Nat := min (floorLog2 (n + 2)) 5

/-- `CtrP12`: the coder probability of a counter (R103). -/
def ctrP12 (c : Counter) : Nat := max 1 (c.p.toNat / 16)

/-- `y × 65536`. -/
def bitTarget (y : Bool) : Int := if y then 65536 else 0

/-- `CtrUpdate((P, N), y)` (R104). -/
def ctrUpdate (c : Counter) (y : Bool) : Counter :=
  { p := BitVec.ofInt 16 (c.p.toNat + asr (bitTarget y - c.p.toNat) (rate c.n.toNat))
    n := BitVec.ofNat 5 (min (c.n.toNat + 1) 30) }

/-- `c1 = C4[7:0]`, the previous completed byte (10_state.md R19). -/
def prevByte (s : State) : Byte := s.c4.extractLsb' 0 8

/-- HASH_MUL (R107). -/
def hashMul : Word := 0x9E3779B1#32

/-- `HIdx(k)` of the history `C4 and mask`: `(h >> 12) xor (C0 << 12)`, a 20-bit index (R107). -/
def hashIndex (mask : Word) (s : State) : Nat :=
  (((s.c4 &&& mask) * hashMul).extractLsb' 12 20 ^^^ (s.c0 ++ 0#12 : BitVec 20)).toNat

/-- The index of each counter table in the current context (R106, R107). -/
def ctxIndex (t : TableId) (s : State) : Nat :=
  match t with
  | .t0 => s.c0.toNat
  | .t1 => (prevByte s ++ s.c0 : BitVec 16).toNat
  | .t2 => hashIndex 0x0000FFFF#32 s
  | .t3 => hashIndex 0x00FFFFFF#32 s
  | .t4 => hashIndex 0xFFFFFFFF#32 s

/-- The counter a table gives in the current context. -/
def ctxCounter (t : TableId) (s : State) : Counter := s.mem.readCounter t (ctxIndex t s)

/-- The coder probability of a table in the current context, `p_i` (42_mixer_apm.md R124). -/
def ctxProb (t : TableId) (s : State) : Nat := ctrP12 (ctxCounter t s)

/-- `DirPredict` (R109): T1 alone. -/
def dirPredict (s : State) : Nat := ctxProb .t1 s

/-- The tables after the counter of table `t` in the context of `s` is trained with `y` (R104, R110, R139). -/
def trainCounter (t : TableId) (y : Bool) (s : State) (m : Memory) : Memory :=
  m.writeCounter t (ctxIndex t s) (ctrUpdate (m.readCounter t (ctxIndex t s)) y)

/-- `DirUpdate` (R110): T1, then the context. -/
def dirUpdate (y : Bool) (s : State) : State := ctxUpdate y { s with mem := trainCounter .t1 y s s.mem }

end Sys2Proof.Machine
end

