-- ==== Sys2Proof/Machine/Mixer.lean ====
section
/-! DEFINITION. The mixer, the APM and the MIX predictor (42_mixer_apm.md R124-R142). The prediction's intermediates are pure
functions of the state before the bit, so the update recomputes exactly the values the prediction used (10_state.md R34). -/

namespace Sys2Proof.Machine

/-- The mixer inputs, in order, with the counter table of each (R124). -/
def mixerInputs : List (Nat × TableId) := [(0, .t0), (1, .t1), (2, .t2), (3, .t3), (4, .t4)]

/-- `x_i = stretch(p_i)` (R124). -/
def mixInput (t : TableId) (s : State) : Int := stretch (ctxProb t s)

/-- The weight-set selector, `C4[7:5]` (R125). -/
def weightSet (s : State) : Nat := (s.c4.extractLsb' 5 3).toNat

/-- `W[s][i]` of the current set as the signed integer it is (10_state.md R28; log entry 15). -/
def weightOf (i : Nat) (s : State) : Int := (s.mem.readWeight (weightSet s) i).toInt

/-- `dot = Σ x_i × W[s][i]`, exact (R127). -/
def mixDot (s : State) : Int := (mixerInputs.map fun l => mixInput l.2 s * weightOf l.1 s).sum

/-- `t = clamp(dot >>ₐ 16, -2047, 2047)` (R127). -/
def mixLogit (s : State) : Int := clamp (asr (mixDot s) 16) (-2047) 2047

/-- `P_mix` (R128). -/
def mixProb (s : State) : Nat := squash (mixLogit s)

/-- `a = stretch(P_mix) + 2048` (R134). -/
def apmCoord (s : State) : Nat := (stretch (mixProb s) + 2048).toNat

/-- `lo = a >> 7` (R134). -/
def apmLo (s : State) : Nat := apmCoord s / 128

/-- `wt = a and 127` (R134). -/
def apmWt (s : State) : Nat := apmCoord s % 128

/-- `P_apm` (R135). -/
def apmProb (s : State) : Nat :=
  max 1 (((s.mem.readApm s.c0.toNat (apmLo s)).toNat * (128 - apmWt s) +
    (s.mem.readApm s.c0.toNat (apmLo s + 1)).toNat * apmWt s) / 2048)

/-- `Guard(pm, pa)` keeps the refined probability on P_mix's side of one half (R132). -/
def apmGuard (pm pa : Nat) : Nat :=
  if 2048 < pm ∧ pa ≤ 2048 then 2049
  else if pm < 2048 ∧ 2048 ≤ pa then 2047
  else pa

/-- `MixPredict` (R132, R138). -/
def mixPredict (s : State) : Nat := if s.apmEn then apmGuard (mixProb s) (apmProb s) else mixProb s

/-- `err = (y << 12) - P_mix` (R129). -/
def mixErr (y : Bool) (s : State) : Int := (if y then 4096 else 0) - mixProb s

/-- W_MIN and W_MAX (R126). -/
def weightMin : Int := 1024
def weightMax : Int := 524287

/-- The new value of a weight with input `x` and error `err`; LR_SHIFT = 10 (R130). -/
def weightUpdate (w x err : Int) : Int := clamp (w + asr (x * err) 10) weightMin weightMax

/-- The five counters of the context of `s`, each trained with `y` (R139). -/
def trainCounters (y : Bool) (s : State) (m : Memory) : Memory :=
  mixerInputs.foldl (fun m l => trainCounter l.2 y s m) m

/-- The weights of the set of `s`, each moved by its own input and the shared error of `s` (R130, R139, R141). -/
def trainWeights (y : Bool) (s : State) (m : Memory) : Memory :=
  mixerInputs.foldl
    (fun m l => m.writeWeight (weightSet s) l.1
      (BitVec.ofInt 20 (weightUpdate (m.readWeight (weightSet s) l.1).toInt (mixInput l.2 s) (mixErr y s)))) m

/-- `j = lo + (wt >> 6)`, the nearer bucket (R136). -/
def apmBucket (s : State) : Nat := apmLo s + apmWt s / 64

/-- The new value of an APM entry; APM_RATE = 7 (R137). -/
def apmUpdate (e : BitVec 16) (y : Bool) : BitVec 16 := BitVec.ofInt 16 (e.toNat + asr (bitTarget y - e.toNat) 7)

/-- The APM bucket of the context of `s`, trained with `y` when APM_EN = 1 (R137, R139). -/
def trainApm (y : Bool) (s : State) (m : Memory) : Memory :=
  if s.apmEn then m.writeApm s.c0.toNat (apmBucket s) (apmUpdate (m.readApm s.c0.toNat (apmBucket s)) y) else m

/-- `MixUpdate`: counters, weights, APM, then the context (R139). -/
def mixUpdate (y : Bool) (s : State) : State :=
  ctxUpdate y { s with mem := trainApm y s (trainWeights y s (trainCounters y s s.mem)) }

/-- The prediction of the session's predictor: DIRECT when PMODE = 1, else MIX (43_commands.md R153, R154, R162). -/
def predict (s : State) : Nat := if s.pmode = 1#2 then dirPredict s else mixPredict s

/-- The update of the session's predictor with the true bit (R153, R154). -/
def train (y : Bool) (s : State) : State := if s.pmode = 1#2 then dirUpdate y s else mixUpdate y s

/-- What ends a predicted bit: the update, then BITCOUNT (R153, R154; 20_memory.md R52). -/
def finishPredBit (y : Bool) (s : State) : State := countBit (train y s)

end Sys2Proof.Machine
end

