-- ==== Sys2Proof/Machine/RangeCoder.lean ====
section
/-! DEFINITION. The binary range coder (40_range_coder.md R80-R95). -/

namespace Sys2Proof.Machine

/-- `Xmid(p)`: the last point of the lower part, computed exactly (R83, R95). -/
def xmid (low high : Word) (p : Nat) : Word :=
  let r := high.toNat - low.toNat
  BitVec.ofNat 32 (low.toNat + r / 4096 * p + r % 4096 * p / 4096)

/-- The subdivision: bit 1 takes [LOW, xmid], bit 0 takes [xmid + 1, HIGH] (R81, R85, R86). -/
def narrow (y : Bool) (p : Nat) (s : State) : State :=
  if y then { s with high := xmid s.low s.high p } else { s with low := xmid s.low s.high p + 1#32 }

/-- The top bytes of LOW and HIGH are equal: the byte is settled (R84; D8). -/
abbrev topSettled (s : State) : Prop := s.low.extractLsb' 24 8 = s.high.extractLsb' 24 8

/-- The width is below RC_MINW = 2^16: `HIGH - LOW < 2^16` (R84). -/
abbrev widthBelowFloor (s : State) : Prop := s.high.toNat < s.low.toNat + 65536

/-- LOW and HIGH after a settled byte is shifted out (R84). -/
def shiftBounds (s : State) : State := { s with low := s.low <<< 8, high := (s.high <<< 8) ||| 0xFF#32 }

/-- The truncation: keep the lower part `[LOW, LOW or 0xFFFF]` (R84). -/
def truncateHigh (s : State) : State := { s with high := s.low ||| 0xFFFF#32 }

/-- How renormalisation ends: no more to do, at a hold, or with a raised fault. -/
inductive Renorm where
  | settled (s : State)
  | held (s : State)
  | raised (f : FaultCode) (s : State)
  deriving DecidableEq, Repr

/-- `RC_Renorm()` (R84), at most `fuel` rounds of its loop. A run never uses up `renormFuel` (log entry 13). -/
def renorm : Nat → State → Renorm
  | 0, s => .held s
  | fuel + 1, s =>
    if topSettled s then
      match s.dir with
      | .encode =>
        match outPush (s.low.extractLsb' 24 8) s with
        | none => .held s
        | some s' => renorm fuel (shiftBounds s')
      | .decode =>
        match inPop s with
        | .empty => .held s
        | .item .endMark s' => .raised .corruptEof s'
        | .item (.byte b) s' => renorm fuel (shiftBounds (shiftCode b s'))
    else if widthBelowFloor s then
      if s.dir = .decode ∧ (truncateHigh s).high < s.code then .raised .corruptRange (truncateHigh s)
      else renorm fuel (truncateHigh s)
    else .settled s

/-- More rounds than any renormalisation takes: at most 7 shifts, one truncation and the exit from a reachable state (R92), at
most 10 from any state. -/
def renormFuel : Nat := 16

/-- Renormalise, then go on with `next`; a hold is at `pos`. -/
def renormThen (pos : HoldPoint) (next : State → Result) (s : State) : Result :=
  match renorm renormFuel s with
  | .settled s' => next s'
  | .held s' => .held pos s'
  | .raised f s' => .raised f s'

/-- `RC_Encode(y, p)`, then `next` (R85). The self-check of R90 (LOW < HIGH) stands before the subdivision, which needs it
(R83); INVARIANT is its fault (60_exceptions.md R190). Log entry 8. -/
def rcEncode (y : Bool) (p : Nat) (pos : HoldPoint) (next : State → Result) (s : State) : Result :=
  if s.low < s.high then renormThen pos next (narrow y p s) else .raised .invariant s

/-- The bit CODE selects: 1 exactly when it lies in the lower part (R86). -/
def decodedBit (p : Nat) (s : State) : Bool := decide (s.code ≤ xmid s.low s.high p)

/-- `RC_Decode(p)`, then `next` with the bit (R86). Self-check as in `rcEncode`. -/
def rcDecode (p : Nat) (pos : Bool → HoldPoint) (next : Bool → State → Result) (s : State) : Result :=
  if s.low < s.high then
    renormThen (pos (decodedBit p s)) (next (decodedBit p s)) (narrow (decodedBit p s) p s)
  else .raised .invariant s

/-- `RC_Prime()` with `left` reads to do (R88). -/
def primeFrom : Nat → State → Result
  | 0, s => .done 0#32 s
  | left + 1, s =>
    match inPop s with
    | .empty => .held (.prime (left + 1)) s
    | .item .endMark s' => .raised .corruptEof s'
    | .item (.byte b) s' => primeFrom left (shiftCode b s')

/-- `RC_FlushEnc()` with the low `left` bytes of LOW to push, most significant first, then the end of the session (R87;
43_commands.md R161). -/
def flushEncFrom : Nat → State → Result
  | 0, s => .done s.bytesOut { s with sstate := .done }
  | left + 1, s =>
    match outPush (s.low.extractLsb' (8 * left) 8) s with
    | none => .held (.flushEnc (left + 1)) s
    | some s' => flushEncFrom left s'

/-- The item test of `RC_EndDec()`, then the end of the session (R89; R161). -/
def endItem (s : State) : Result :=
  match inPop s with
  | .empty => .held .flushDec s
  | .item (.byte _) s' => .raised .corruptTrailer s'
  | .item .endMark s' => .done s'.bytesIn { s' with sstate := .done }

/-- `RC_EndDec()`: first CODE = LOW, then the item (R89, 60_exceptions.md R193). -/
def endDec (s : State) : Result := if s.code = s.low then endItem s else .raised .corruptTrailer s

end Sys2Proof.Machine
end

