-- ==== Sys2Proof/Machine/Coding.lean ====
section
/-! DEFINITION. The coding commands (43_commands.md R153-R160). -/

namespace Sys2Proof.Machine

/-- `EncPredBit(y)`, then `next` (R153). -/
def encPredBit (y : Bool) (pos : HoldPoint) (next : State → Result) (s : State) : Result :=
  rcEncode y (predict s) pos (fun s' => next (finishPredBit y s')) s

/-- `DecPredBit()`, then `next` with the bit (R154). -/
def decPredBit (pos : Bool → HoldPoint) (next : Bool → State → Result) (s : State) : Result :=
  rcDecode (predict s) pos (fun y s' => next y (finishPredBit y s')) s

/-- A bit as DATA (30_encoding.md R67). -/
def bitData (y : Bool) : Word := (BitVec.ofBool y).setWidth 32

/-! ## ENC_BIT -/

/-- The end of ENC_BIT (R155): DATA 0. -/
def encBitDone (s : State) : Result := .done 0#32 s

/-- `Sem[0x2]` (R155). -/
def encBitSem (y : Bool) (s : State) : Result := encPredBit y .encBit encBitDone s

/-- ENC_BIT (R155). -/
def execEncBit (bit : Bool) (s : State) : Host.Outcome State Fault Refusal :=
  .next (execute (.encBit bit) (encBitSem bit) s)

/-- ENC_BIT continued from its hold (10_state.md R33). -/
def resumeEncBit (w : Word) (s : State) : State :=
  settle w (renormThen .encBit (fun s' => encBitDone (finishPredBit (bitField w 0) s')) s)

/-! ## ENC_BYTE -/

/-- The bits `k - 1` down to 0 of the byte, most significant first (R156, 20_memory.md R44). -/
def encByteFrom (byte : Byte) : Nat → State → Result
  | 0, s => .done 0#32 s
  | k + 1, s => encPredBit (byte.getLsbD k) (.encByte k) (fun s' => encByteFrom byte k s') s

/-- ENC_BYTE (R156). -/
def execEncByte (byte : Byte) (s : State) : Host.Outcome State Fault Refusal :=
  .next (execute (.encByte byte) (encByteFrom byte 8) s)

/-- ENC_BYTE continued at bit `k` (10_state.md R33). -/
def resumeEncByte (w : Word) (k : Nat) (s : State) : State :=
  settle w (renormThen (.encByte k)
    (fun s' => encByteFrom (w.extractLsb' 0 8) k (finishPredBit ((w.extractLsb' 0 8).getLsbD k) s')) s)

/-! ## DEC_BIT -/

/-- The end of DEC_BIT (R157): DATA is the bit. -/
def decBitDone (y : Bool) (s : State) : Result := .done (bitData y) s

/-- `Sem[0x4]` (R157). -/
def decBitSem (s : State) : Result := decPredBit .decBit decBitDone s

/-- DEC_BIT (R157). -/
def execDecBit (s : State) : Host.Outcome State Fault Refusal :=
  .next (execute .decBit decBitSem s)

/-- DEC_BIT continued from its hold. -/
def resumeDecBit (w : Word) (y : Bool) (s : State) : State :=
  settle w (renormThen (.decBit y) (fun s' => decBitDone y (finishPredBit y s')) s)

/-! ## DEC_BYTE -/

/-- `v <- (v << 1) or bit` (R158). -/
def pushBit (acc : Byte) (y : Bool) : Byte := (acc <<< 1) ||| (BitVec.ofBool y).setWidth 8

/-- `k` more bits of the byte, `acc` the ones so far (R158). -/
def decByteFrom : Nat → Byte → State → Result
  | 0, acc, s => .done (acc.setWidth 32) s
  | k + 1, acc, s => decPredBit (.decByte k acc) (fun y s' => decByteFrom k (pushBit acc y) s') s

/-- DEC_BYTE (R158). -/
def execDecByte (s : State) : Host.Outcome State Fault Refusal :=
  .next (execute .decByte (decByteFrom 8 0#8) s)

/-- DEC_BYTE continued at bit `k` (10_state.md R33). -/
def resumeDecByte (w : Word) (k : Nat) (acc : Byte) (y : Bool) (s : State) : State :=
  settle w (renormThen (.decByte k acc y) (fun s' => decByteFrom k (pushBit acc y) (finishPredBit y s')) s)

/-! ## ENC_RAW -/

/-- The end of ENC_RAW (R159): BITCOUNT, DATA 0; the predictor does not see the bit. -/
def encRawDone (s : State) : Result := .done 0#32 (countBit s)

/-- `Sem[0x6]` (R159). -/
def encRawSem (bit : Bool) (p : BitVec 12) (s : State) : Result := rcEncode bit p.toNat .encRaw encRawDone s

/-- ENC_RAW (R159). -/
def execEncRaw (bit : Bool) (p : BitVec 12) (s : State) : Host.Outcome State Fault Refusal :=
  .next (execute (.encRaw bit p) (encRawSem bit p) s)

/-- ENC_RAW continued from its hold. -/
def resumeEncRaw (w : Word) (s : State) : State := settle w (renormThen .encRaw encRawDone s)

/-! ## DEC_RAW -/

/-- The end of DEC_RAW (R160): BITCOUNT, DATA is the bit. -/
def decRawDone (y : Bool) (s : State) : Result := .done (bitData y) (countBit s)

/-- `Sem[0x7]` (R160). -/
def decRawSem (p : BitVec 12) (s : State) : Result := rcDecode p.toNat .decRaw decRawDone s

/-- DEC_RAW (R160). -/
def execDecRaw (p : BitVec 12) (s : State) : Host.Outcome State Fault Refusal :=
  .next (execute (.decRaw p) (decRawSem p) s)

/-- DEC_RAW continued from its hold. -/
def resumeDecRaw (w : Word) (y : Bool) (s : State) : State := settle w (renormThen (.decRaw y) (decRawDone y) s)

end Sys2Proof.Machine
end

