-- ==== Sys2Proof/Machine/Operands.lean ====
section
/-! DEFINITION. The operand of RDREG: the register numbers (10_state.md R23) and what a read gives (R14-R22). -/

namespace Sys2Proof.Machine

/-- ID, hard-wired (10_state.md R14). -/
def idReg : Word := 0x41524331#32

/-- PARAMS, hard-wired: NSETS 8, NI 5, TB 20, PBITS 12 (R16). -/
def paramsReg : Word := 0x0805140C#32

/-- `Reg(n)`: the register numbered `n` (R23). The numbers 0x0C-0xFF name no register; RDREG faults on them before any read
(60_exceptions.md R191). -/
def readReg (n : BitVec 8) (s : State) : Word :=
  match n.toNat with
  | 0x00 => idReg
  | 0x01 => statusReg s
  | 0x02 => s.low
  | 0x03 => s.high
  | 0x04 => s.code
  | 0x05 => s.c0.setWidth 32
  | 0x06 => s.c4
  | 0x07 => s.bitcount.extractLsb' 0 32
  | 0x08 => s.bitcount.extractLsb' 32 32
  | 0x09 => s.bytesIn
  | 0x0A => s.bytesOut
  | 0x0B => paramsReg
  | _ => 0#32

end Sys2Proof.Machine
end

