-- ==== Sys2Proof/Machine/Observe.lean ====
section
/-! DEFINITION. The commands that change nothing: NOP, GETP, RDREG (43_commands.md R151, R162, R163; 20_memory.md R48). -/

namespace Sys2Proof.Machine

/-- `Sem[0x0]` (R151). -/
def nopSem (s : State) : Result := .done 0#32 s

/-- NOP (R151). -/
def execNop (s : State) : Host.Outcome State Fault Refusal := .next (execute .nop nopSem s)

/-- `Sem[0x9]` (R162): the probability the next predicted bit will be coded with. -/
def getpSem (s : State) : Result := .done (BitVec.ofNat 32 (predict s)) s

/-- GETP (R162). -/
def execGetp (s : State) : Host.Outcome State Fault Refusal := .next (execute .getp getpSem s)

/-- `Sem[0xA]` (R163). -/
def rdregSem (reg : BitVec 8) (s : State) : Result := .done (readReg reg s) s

/-- RDREG (R163). -/
def execRdreg (reg : BitVec 8) (s : State) : Host.Outcome State Fault Refusal :=
  .next (execute (.rdreg reg) (rdregSem reg) s)

end Sys2Proof.Machine
end

