-- ==== Sys2Proof/Machine/Session.lean ====
section
/-! DEFINITION. The commands that open and end a session: INIT and FLUSH (43_commands.md R152, R161). -/

namespace Sys2Proof.Machine

/-- The writes of INIT before priming: every register but ID and PARAMS, every table (R152; 40_range_coder.md R82; 10_state.md
R31). No FIFO is touched (70_reset_and_hazards.md R232). -/
def beginSession (d : Dir) (pmode : BitVec 2) (apmEn : Bool) (s : State) : State :=
  { s with
    dir := d
    pmode := pmode
    apmEn := apmEn
    faultcode := 0#8
    low := 0x00000000#32
    high := 0xFFFFFFFF#32
    code := 0x00000000#32
    c0 := 1#8
    c4 := 0x00000000#32
    bitcount := 0#64
    bytesIn := 0#32
    bytesOut := 0#32
    mem := Memory.initial
    sstate := .coding }

/-- `Sem[0x1]` (R152): begin the session, then four priming reads when it decodes. -/
def initSem (d : Dir) (pmode : BitVec 2) (apmEn : Bool) (s : State) : Result :=
  match d with
  | .encode => .done 0#32 (beginSession d pmode apmEn s)
  | .decode => primeFrom 4 (beginSession d pmode apmEn s)

/-- INIT (R152). -/
def execInit (d : Dir) (pmode : BitVec 2) (apmEn : Bool) (s : State) : Host.Outcome State Fault Refusal :=
  .next (execute (.init d pmode apmEn) (initSem d pmode apmEn) s)

/-- INIT continued with `left` priming reads to do. -/
def resumeInit (w : Word) (left : Nat) (s : State) : State := settle w (primeFrom left s)

/-- `Sem[0x8]` (R161). -/
def flushSem (s : State) : Result :=
  match s.dir with
  | .encode => flushEncFrom 4 s
  | .decode => endDec s

/-- FLUSH (R161). -/
def execFlush (s : State) : Host.Outcome State Fault Refusal := .next (execute .flush flushSem s)

/-- FLUSH of an encode session continued with `left` bytes to push. -/
def resumeFlushEnc (w : Word) (left : Nat) (s : State) : State := settle w (flushEncFrom left s)

/-- FLUSH of a decode session continued at its `InPop`. -/
def resumeFlushDec (w : Word) (s : State) : State := settle w (endItem s)

end Sys2Proof.Machine
end

