-- ==== Sys2Proof/Machine/Dispatch.lean ====
section
/-! DEFINITION. One arm per command: each calls its meaning (`Sem` of 43_commands.md R150). -/

namespace Sys2Proof.Machine

def exec (i : Instr) (s : State) : Host.Outcome State Fault Refusal :=
  match i with
  | .nop => Sys2Proof.Machine.execNop s
  | .init d pmode apmEn => Sys2Proof.Machine.execInit d pmode apmEn s
  | .encBit bit => Sys2Proof.Machine.execEncBit bit s
  | .encByte byte => Sys2Proof.Machine.execEncByte byte s
  | .decBit => Sys2Proof.Machine.execDecBit s
  | .decByte => Sys2Proof.Machine.execDecByte s
  | .encRaw bit p => Sys2Proof.Machine.execEncRaw bit p s
  | .decRaw p => Sys2Proof.Machine.execDecRaw p s
  | .flush => Sys2Proof.Machine.execFlush s
  | .getp => Sys2Proof.Machine.execGetp s
  | .rdreg reg => Sys2Proof.Machine.execRdreg reg s

end Sys2Proof.Machine
end

