-- ==== Sys2Proof/Machine/Fetch.lean ====
section
/-! DEFINITION. Taking the next command word (10_state.md R11, 43_commands.md R150) and going on with a held command (10_state.md
R33, 43_commands.md R167). -/

namespace Sys2Proof.Machine

/-- The held command continues from its hold point; while the FIFO condition has not cleared, the state stays as it is (R167). -/
def resume (c : InProgress) (s : State) : State :=
  match c.pos with
  | .prime left => resumeInit c.word left s
  | .encBit => resumeEncBit c.word s
  | .encByte k => resumeEncByte c.word k s
  | .decBit y => resumeDecBit c.word y s
  | .decByte k acc y => resumeDecByte c.word k acc y s
  | .encRaw => resumeEncRaw c.word s
  | .decRaw y => resumeDecRaw c.word y s
  | .flushEnc left => resumeFlushEnc c.word left s
  | .flushDec => resumeFlushDec c.word s
  | .respond status data => respond c.word status data s

/-- What the core does next. -/
inductive Fetched where
  /-- A command is in progress: go on with it. -/
  | inProgress (c : InProgress)
  /-- CMDQ is empty: hold (R150). -/
  | idle
  /-- The word at the head of CMDQ, removed, is a command. -/
  | command (i : Instr) (s : State)
  /-- The word at the head of CMDQ, removed, is no command. -/
  | illegal (w : Word) (e : DecodeError) (s : State)
  deriving DecidableEq, Repr

/-- The next word is not taken before the previous command's response is in RESPQ (20_memory.md R51, R150). -/
def fetch (s : State) : Fetched :=
  match s.cip with
  | some c => .inProgress c
  | none =>
    match s.cmdq with
    | [] => .idle
    | w :: rest =>
      match decode w with
      | .ok i => .command i { s with cmdq := rest }
      | .error e => .illegal w e { s with cmdq := rest }

/-- The state with the word `w` at the head slot of CMDQ and no command in progress, so that the next step takes it. -/
def placeWord (w : Word) (s : State) : State := { s with cmdq := w :: s.cmdq.tail, cip := none }

end Sys2Proof.Machine
end

