-- ==== Sys2Proof/Machine/Step.lean ====
section
/-! DEFINITION. One step of the core: the execution cycle of 43_commands.md R150, from one hold point or command boundary to the
next (log entries 6 and 7). -/

namespace Sys2Proof.Machine

/-- One step. An idle or blocked core answers the same state (R167). -/
def step (s : State) : Host.Outcome State Fault Refusal :=
  match fetch s with
  | .inProgress c => .next (resume c s)
  | .idle => .next s
  | .command i s' => exec i s'
  | .illegal w e s' => .next (executeIllegal w e s')

/-- `s` with the table row's word where `step` takes its next command: the head slot of CMDQ, no command in progress. Log entry
10. -/
def State.withFetchWord (s : State) (nbits w : Nat) : State := placeWord (BitVec.ofNat 32 (w % 2 ^ nbits)) s

end Sys2Proof.Machine
end

