-- ==== Sys2Proof/Machine/Assembler.lean ====
section
/-! DEFINITION. The assembler syntax and the pseudo-instructions (30_encoding.md R69, R70), on a line given as its characters.
It refuses an operand that does not fit its field (R69; 93_implementation_defined.md H8). Log entry 18. -/

namespace Sys2Proof.Machine

/-- White space between the parts of a line. -/
def isBlank (c : Char) : Bool := c == ' ' || c == '\t' || c == '\r'

/-- A text without the blanks at its two ends. -/
def trimBlanks (cs : List Char) : List Char := ((cs.dropWhile isBlank).reverse.dropWhile isBlank).reverse

/-- The line without its comment: `;` outside a string or a character literal begins it. Each double quote begins or ends a string, also
one inside the operand of ENC_STR: a DESIGN CHOICE, log entry 18. -/
def stripComment : Bool → List Char → List Char
  | _, [] => []
  | false, '\'' :: c :: '\'' :: rest => '\'' :: c :: '\'' :: stripComment false rest
  | inString, c :: rest =>
    if c == ';' && !inString then []
    else if c == '"' then c :: stripComment (!inString) rest
    else c :: stripComment inString rest

/-- The operands between commas, each without blanks; a comma inside a character literal is no separator. -/
def splitOperands : List Char → List Char → List (List Char)
  | acc, [] => [trimBlanks acc.reverse]
  | acc, '\'' :: c :: '\'' :: rest => splitOperands ('\'' :: c :: '\'' :: acc) rest
  | acc, c :: rest =>
    if c == ',' then trimBlanks acc.reverse :: splitOperands [] rest else splitOperands (c :: acc) rest

/-- The value of a digit. -/
def digitValue (c : Char) : Option Nat :=
  let n := c.toNat
  if 48 ≤ n ∧ n ≤ 57 then some (n - 48)
  else if 65 ≤ n ∧ n ≤ 70 then some (n - 55)
  else if 97 ≤ n ∧ n ≤ 102 then some (n - 87)
  else none

/-- Digits to a number in a base, none if one is no digit of it. -/
def digitsValue (base : Nat) : List Char → Nat → Option Nat
  | [], acc => some acc
  | c :: cs, acc =>
    match digitValue c with
    | none => none
    | some d => if d < base then digitsValue base cs (acc * base + d) else none

/-- A number: decimal, or hexadecimal after `0x` (R69). A character literal stands for its code; R69 gives it to ENC_BYTE only, and
that every numeric operand (BIT, P, REG, the operands of ENC_BITS and DEC_N) takes one is a DESIGN CHOICE, log entry 18. -/
def numberOf : List Char → Option Nat
  | [] => none
  | ['\'', c, '\''] => some c.toNat
  | '0' :: 'x' :: d :: ds => digitsValue 16 (d :: ds) 0
  | cs => digitsValue 10 cs 0

/-- A number below `bound`, else refused (R69). -/
def fieldOf (bound : Nat) (cs : List Char) : Option Nat :=
  match numberOf cs with
  | none => none
  | some n => if n < bound then some n else none

/-- A one-bit operand. -/
def bitOf (cs : List Char) : Option Bool :=
  match fieldOf 2 cs with
  | none => none
  | some n => some (n == 1)

/-- The register names of R69 with their numbers (10_state.md R23). -/
def registerNames : List (List Char × Nat) :=
  [(['I', 'D'], 0x00), (['S', 'T', 'A', 'T', 'U', 'S'], 0x01), (['L', 'O', 'W'], 0x02), (['H', 'I', 'G', 'H'], 0x03),
   (['C', 'O', 'D', 'E'], 0x04), (['C', '0'], 0x05), (['C', '4'], 0x06),
   (['B', 'I', 'T', 'C', 'O', 'U', 'N', 'T', '_', 'L', 'O'], 0x07),
   (['B', 'I', 'T', 'C', 'O', 'U', 'N', 'T', '_', 'H', 'I'], 0x08),
   (['B', 'Y', 'T', 'E', 'S', '_', 'I', 'N'], 0x09), (['B', 'Y', 'T', 'E', 'S', '_', 'O', 'U', 'T'], 0x0A),
   (['P', 'A', 'R', 'A', 'M', 'S'], 0x0B)]

/-- A register operand: a name or a number that fits REG. -/
def registerOf (cs : List Char) : Option Nat :=
  match registerNames.lookup cs with
  | some n => some n
  | none => fieldOf 256 cs

/-- `enc` or `dec`. -/
def dirOf (cs : List Char) : Option Dir :=
  if cs = ['e', 'n', 'c'] then some .encode else if cs = ['d', 'e', 'c'] then some .decode else none

/-- `none`, `direct` or `mix`. -/
def modeOf (cs : List Char) : Option (BitVec 2) :=
  if cs = ['n', 'o', 'n', 'e'] then some 0#2
  else if cs = ['d', 'i', 'r', 'e', 'c', 't'] then some 1#2
  else if cs = ['m', 'i', 'x'] then some 2#2
  else none

/-- A command without operands. -/
def plainCommand (i : Instr) (ops : List (List Char)) : Option (List Instr) := if ops = [] then some [i] else none

/-- `INIT enc|dec, none|direct|mix [, apm]`. -/
def assembleInit : List (List Char) → Option (List Instr)
  | [d, m] =>
    match dirOf d, modeOf m with
    | some d, some m => some [.init d m false]
    | _, _ => none
  | [d, m, a] =>
    match dirOf d, modeOf m with
    | some d, some m => if a = ['a', 'p', 'm'] then some [.init d m true] else none
    | _, _ => none
  | _ => none

/-- The characters of `"s"` as bytes, none if one is no byte. -/
def stringBytes : List Char → Option (List Byte)
  | [] => some []
  | c :: cs =>
    match stringBytes cs with
    | none => none
    | some bs => if c.toNat < 256 then some (BitVec.ofNat 8 c.toNat :: bs) else none

/-- `ENC_STR "s"`: one ENC_BYTE per byte, first byte first (R70). The spec gives no escape for a double quote inside s; that s is all
that stands between the first and the last quote, inner quotes among its bytes, is a DESIGN CHOICE, log entry 18. -/
def assembleString (cs : List Char) : Option (List Instr) :=
  match cs, cs.getLast? with
  | '"' :: body, some '"' =>
    match body with
    | [] => none
    | _ => (stringBytes body.dropLast).map (List.map Instr.encByte)
  | _, _ => none

/-- `ENC_BITS v, k`: ENC_BIT of v[k-1] down to v[0] (R70). -/
def bitCommands (v : Nat) : Nat → List Instr
  | 0 => []
  | k + 1 => .encBit (v.testBit k) :: bitCommands v k

/-- `ENC_BITS v, k` for 1 ≤ k ≤ 8 and a v of k bits. -/
def assembleBits : List (List Char) → Option (List Instr)
  | [v, k] =>
    match fieldOf 9 k with
    | some k =>
      match fieldOf (2 ^ k) v with
      | some v => if k = 0 then none else some (bitCommands v k)
      | none => none
    | none => none
  | _ => none

/-- `RDBITCOUNT`: BITCOUNT_LO, then BITCOUNT_HI (R70). -/
def readBitCount : List Instr := [.rdreg 0x07#8, .rdreg 0x08#8]

/-- A command with one operand. -/
def oneOperand {α : Type} (parse : List Char → Option α) (make : α → List Instr) :
    List (List Char) → Option (List Instr)
  | [x] => (parse x).map make
  | _ => none

/-- `ENC_RAW b, p`. -/
def assembleEncRaw : List (List Char) → Option (List Instr)
  | [b, p] =>
    match bitOf b, fieldOf 4096 p with
    | some b, some p => some [.encRaw b (BitVec.ofNat 12 p)]
    | _, _ => none
  | _ => none

/-- The commands of a mnemonic or pseudo-instruction with its operand text (R69, R70). -/
def assembleParts (mn text : List Char) : Option (List Instr) :=
  let ops := if text = [] then [] else splitOperands [] text
  if mn = ['N', 'O', 'P'] then plainCommand .nop ops
  else if mn = ['I', 'N', 'I', 'T'] then assembleInit ops
  else if mn = ['E', 'N', 'C', '_', 'B', 'I', 'T'] then oneOperand bitOf (fun b => [.encBit b]) ops
  else if mn = ['E', 'N', 'C', '_', 'B', 'Y', 'T', 'E'] then
    oneOperand (fieldOf 256) (fun v => [.encByte (BitVec.ofNat 8 v)]) ops
  else if mn = ['D', 'E', 'C', '_', 'B', 'I', 'T'] then plainCommand .decBit ops
  else if mn = ['D', 'E', 'C', '_', 'B', 'Y', 'T', 'E'] then plainCommand .decByte ops
  else if mn = ['E', 'N', 'C', '_', 'R', 'A', 'W'] then assembleEncRaw ops
  else if mn = ['D', 'E', 'C', '_', 'R', 'A', 'W'] then
    oneOperand (fieldOf 4096) (fun p => [.decRaw (BitVec.ofNat 12 p)]) ops
  else if mn = ['F', 'L', 'U', 'S', 'H'] then plainCommand .flush ops
  else if mn = ['G', 'E', 'T', 'P'] then plainCommand .getp ops
  else if mn = ['R', 'D', 'R', 'E', 'G'] then oneOperand registerOf (fun r => [.rdreg (BitVec.ofNat 8 r)]) ops
  else if mn = ['E', 'N', 'C', '_', 'S', 'T', 'R'] then assembleString text
  else if mn = ['D', 'E', 'C', '_', 'N'] then oneOperand numberOf (fun n => List.replicate n .decByte) ops
  else if mn = ['E', 'N', 'C', '_', 'B', 'I', 'T', 'S'] then assembleBits ops
  else if mn = ['R', 'D', 'B', 'I', 'T', 'C', 'O', 'U', 'N', 'T'] then
    if ops = [] then some readBitCount else none
  else none

/-- The commands of one line; a line of blanks or a comment has none (R69). -/
def assembleLine (line : List Char) : Option (List Instr) :=
  let text := trimBlanks (stripComment false line)
  let mn := text.takeWhile fun c => !isBlank c
  if mn = [] then some [] else assembleParts mn (trimBlanks (text.drop mn.length))

/-- The command words of a program, one command per line (R69); none if a line is refused. -/
def assemble : List (List Char) → Option (List Word)
  | [] => some []
  | line :: rest =>
    match assembleLine line, assemble rest with
    | some is, some ws => some (is.map encode ++ ws)
    | _, _ => none

end Sys2Proof.Machine
end

