-- ==== Sys2Proof/Machine/HostPort.lean ====
section
/-! DEFINITION. What the host can do to the core between two steps (10_state.md R32; 70_reset_and_hazards.md R220, R225-R235). -/

namespace Sys2Proof.Machine

/-- The host pushes a command word; none while CMDQ is full (10_state.md R32). -/
def pushCommand (w : Word) (s : State) : Option State :=
  if s.cmdq.length < s.depths.cmd then some { s with cmdq := s.cmdq ++ [w] } else none

/-- The host pushes an input item, a stream byte or `End`; none while INQ is full (R32; 70_reset_and_hazards.md R226). -/
def pushInput (x : InItem) (s : State) : Option State :=
  if s.inq.length < s.depths.inp then some { s with inq := s.inq ++ [x] } else none

/-- The host pops a response; none while RESPQ is empty (R32). -/
def popResponse (s : State) : Option (Response × State) :=
  match s.respq with
  | [] => none
  | r :: rest => some (r, { s with respq := rest })

/-- The host pops an output byte; none while OUTQ is empty (R32). -/
def popOutput (s : State) : Option (Byte × State) :=
  match s.outq with
  | [] => none
  | b :: rest => some (b, { s with outq := rest })

/-- Hardware reset, at any time: the command in progress is abandoned, the FIFOs are emptied, every register has its reset value
and the tables are unspecified (70_reset_and_hazards.md R220, R221). The FIFO capacities are the machine's own. Log entry 11. -/
def hardwareReset (s : State) : State := State.afterReset s.depths s.draws

/-- The commands of the procedure `Compress` for predictor mode `pmode` (R235). -/
def compressCommands (pmode : BitVec 2) (apmEn : Bool) (bytes : List Byte) : List Instr :=
  .init .encode pmode apmEn :: (bytes.map Instr.encByte ++ [.flush])

/-- The commands of the procedure `Decompress` for `n` bytes (R235). -/
def decompressCommands (pmode : BitVec 2) (apmEn : Bool) (n : Nat) : List Instr :=
  .init .decode pmode apmEn :: (List.replicate n .decByte ++ [.flush])

/-- The input of the procedure `Decompress`: the stream's bytes, then exactly one `End` (R226, R235). -/
def streamItems (stream : List Byte) : List InItem := stream.map InItem.byte ++ [.endMark]

end Sys2Proof.Machine
end

