-- ==== Sys2Proof/Safety.lean ====
section
/-! DEFINITION. What the claims call a sound state, a blocked hold and an answered command. -/

namespace Sys2Proof.Machine

/-! ## Room and holds -/

/-- RESPQ has room for `n` more responses (30_encoding.md R66). -/
abbrev RespRoom (n : Nat) (s : State) : Prop := s.respq.length + n ≤ s.depths.resp

/-- OUTQ has room for `n` more bytes (20_memory.md R41). -/
abbrev OutRoom (n : Nat) (s : State) : Prop := s.outq.length + n ≤ s.depths.out

/-- The FIFO a hold point waits on (43_commands.md R167). -/
inductive Waits where
  | onInput | onOutput | onResponse
  deriving DecidableEq, Repr

/-- What a command waits for at each hold point (R167). -/
def HoldPoint.waits : HoldPoint → Waits
  | .prime _ => .onInput
  | .encBit => .onOutput
  | .encByte _ => .onOutput
  | .decBit _ => .onInput
  | .decByte _ _ _ => .onInput
  | .encRaw => .onOutput
  | .decRaw _ => .onInput
  | .flushEnc _ => .onOutput
  | .flushDec => .onInput
  | .respond _ _ => .onResponse

/-- The FIFO condition of a hold has not cleared (R167). -/
def Blocked : Waits → State → Prop
  | .onInput, s => s.inq = []
  | .onOutput, s => s.depths.out ≤ s.outq.length
  | .onResponse, s => s.depths.resp ≤ s.respq.length

/-- The hold is inside `RC_Renorm` (40_range_coder.md R84). -/
def HoldPoint.inRenorm : HoldPoint → Bool
  | .prime _ => false
  | .encBit => true
  | .encByte _ => true
  | .decBit _ => true
  | .decByte _ _ _ => true
  | .encRaw => true
  | .decRaw _ => true
  | .flushEnc _ => false
  | .flushDec => false
  | .respond _ _ => false

/-! ## The invariant -/

/-- The interval between commands (40_range_coder.md R90): the top bytes differ and the width is at least 2^16. LOW < HIGH
follows. -/
def Normalised (s : State) : Prop := ¬ topSettled s ∧ s.low.toNat + 65536 ≤ s.high.toNat

/-- PMODE is legal, and APM_EN is set only with MIX (10_state.md R13). -/
def ModeOk (s : State) : Prop := s.pmode ≠ 3#2 ∧ (s.apmEn = true → s.pmode = 2#2)

/-- C0 has its leading 1 outside FAULT (10_state.md R18). -/
def ContextOk (s : State) : Prop := s.sstate ≠ .fault → s.c0 ≠ 0#8

/-- In a session, open or flushed, every counter and weight is in its range (10_state.md R27, R28). -/
def TablesOk (s : State) : Prop :=
  s.sstate = .coding ∨ s.sstate = .done →
    (∀ t i, (s.mem.readCounter t i).n.toNat ≤ 30) ∧
    ∀ k i, 1024 ≤ (s.mem.readWeight k i).toInt ∧ (s.mem.readWeight k i).toInt ≤ 524287

/-- FAULTCODE is 0 outside FAULT and one of the codes 0x01-0x0B in it (10_state.md R22, 60_exceptions.md R190). -/
def FaultcodeOk (s : State) : Prop :=
  if s.sstate = .fault then 1 ≤ s.faultcode.toNat ∧ s.faultcode.toNat ≤ 0x0B else s.faultcode = 0#8

/-- A command held inside its pseudocode is one of an open session of its own side (10_state.md R33, 60_exceptions.md R191). -/
def HeldCommandOk (s : State) (w : Word) : HoldPoint → Prop
  | .prime left => opcodeOf w = 0x1#4 ∧ s.sstate = .coding ∧ s.dir = .decode ∧ 1 ≤ left ∧ left ≤ 4 ∧
      s.low = 0x00000000#32 ∧ s.high = 0xFFFFFFFF#32
  | .encBit => opcodeOf w = 0x2#4 ∧ s.sstate = .coding ∧ s.dir = .encode ∧ s.pmode ≠ 0#2
  | .encByte k => opcodeOf w = 0x3#4 ∧ s.sstate = .coding ∧ s.dir = .encode ∧ s.pmode ≠ 0#2 ∧ k < 8
  | .decBit _ => opcodeOf w = 0x4#4 ∧ s.sstate = .coding ∧ s.dir = .decode ∧ s.pmode ≠ 0#2
  | .decByte k _ _ => opcodeOf w = 0x5#4 ∧ s.sstate = .coding ∧ s.dir = .decode ∧ s.pmode ≠ 0#2 ∧ k < 8
  | .encRaw => opcodeOf w = 0x6#4 ∧ s.sstate = .coding ∧ s.dir = .encode
  | .decRaw _ => opcodeOf w = 0x7#4 ∧ s.sstate = .coding ∧ s.dir = .decode
  | .flushEnc left => opcodeOf w = 0x8#4 ∧ s.sstate = .coding ∧ s.dir = .encode ∧ 1 ≤ left ∧ left ≤ 4
  | .flushDec => opcodeOf w = 0x8#4 ∧ s.sstate = .coding ∧ s.dir = .decode ∧ s.code = s.low
  | .respond status _ => status.toNat ≤ 0x0C

/-- The command in progress, if any, is sound. -/
def CommandOk (s : State) : Prop :=
  match s.cip with
  | none => True
  | some c => HeldCommandOk s c.word c.pos

/-- The interval outside FAULT: normalised between commands (R90); at a hold inside renormalisation a byte is settled and
LOW ≤ HIGH (log entry 9). -/
def IntervalOk (s : State) : Prop :=
  s.sstate ≠ .fault →
    match s.cip with
    | none => Normalised s
    | some c => if c.pos.inRenorm = true then topSettled s ∧ s.low ≤ s.high else Normalised s

/-- CODE is 0 in an encode session (10_state.md R17) and lies in the interval in a decode session (40_range_coder.md R94). -/
def CodeOk (s : State) : Prop :=
  s.sstate ≠ .fault →
    (s.dir = .encode → s.code = 0#32) ∧ (s.dir = .decode → s.low ≤ s.code ∧ s.code ≤ s.high)

/-- The core never overfills RESPQ or OUTQ (10_state.md R32). -/
def QueuesOk (s : State) : Prop := s.respq.length ≤ s.depths.resp ∧ s.outq.length ≤ s.depths.out

/-- The invariant every step keeps. -/
structure Inv (s : State) : Prop where
  mode : ModeOk s
  context : ContextOk s
  tables : TablesOk s
  faultcode : FaultcodeOk s
  command : CommandOk s
  interval : IntervalOk s
  code : CodeOk s
  queues : QueuesOk s
  canonical : s.mem.wf

/-! ## Answered commands and runs -/

/-- The state after the response of the word `w` entered RESPQ, nothing else changed (43_commands.md R150). -/
def answered (w : Word) (status : BitVec 8) (data : Word) (s : State) : State :=
  { s with respq := s.respq ++ [responseWord w status data], cip := none }

/-- Commands executed one after another, each to completion; none if one is still in progress after its step. -/
def runAll : List Instr → State → Option State
  | [], s => some s
  | i :: rest, s =>
    match exec i s with
    | .next t => if t.cip = none then runAll rest t else none
    | .fault _ => none
    | .refused _ => none

/-- One coded symbol of a session, with the command of each side (70_reset_and_hazards.md R225). -/
inductive Symbol where
  | bit (y : Bool)
  | byte (v : Byte)
  | raw (y : Bool) (p : BitVec 12)
  deriving DecidableEq, Repr

/-- The encoder's command for a symbol. -/
def Symbol.encoder : Symbol → Instr
  | .bit y => .encBit y
  | .byte v => .encByte v
  | .raw y p => .encRaw y p

/-- The decoder's command for a symbol. -/
def Symbol.decoder : Symbol → Instr
  | .bit _ => .decBit
  | .byte _ => .decByte
  | .raw _ p => .decRaw p

/-- The DATA the decoder's command answers (30_encoding.md R67). -/
def Symbol.data : Symbol → Word
  | .bit y => bitData y
  | .byte v => v.setWidth 32
  | .raw y _ => bitData y

/-- STATUS of a response (30_encoding.md R66). -/
def statusOf (r : Response) : BitVec 8 := r.extractLsb' 0 8

/-- The command word a step takes, if it takes one (10_state.md R11). -/
def takenWord (s : State) : Option Word :=
  match s.cip with
  | some _ => none
  | none => s.cmdq.head?

/-- The word is an INIT whose checks pass (43_commands.md R152). -/
def StartsSession (w : Word) : Prop :=
  ∃ d m a, decode w = .ok (.init d m a) ∧ initFieldsLegal m a = true

end Sys2Proof.Machine
end

