-- ==== Sys2Proof/Certificates/Slice0/Obligations.lean ====
section
/-! DEFINITION. The statements for the provers. Each is about the spec's rules as the model gives them; where one rests on a choice
of the model its docstring says so. -/

namespace Sys2Proof.Machine

/-! ## Words of the statements -/

/-- The opcode map of 30_encoding.md R63: opcode, match, mask. -/
def opcodeMap : List (BitVec 4 × Word × Word) :=
  [(0x0#4, 0x00000000#32, 0xFFFFFFFF#32), (0x1#4, 0x10000000#32, 0xFFFFFFF0#32), (0x2#4, 0x20000000#32, 0xFFFFFFFE#32),
   (0x3#4, 0x30000000#32, 0xFFFFFF00#32), (0x4#4, 0x40000000#32, 0xFFFFFFFF#32), (0x5#4, 0x50000000#32, 0xFFFFFFFF#32),
   (0x6#4, 0x60000000#32, 0xFFFFE000#32), (0x7#4, 0x70000000#32, 0xFFFFF000#32), (0x8#4, 0x80000000#32, 0xFFFFFFFF#32),
   (0x9#4, 0x90000000#32, 0xFFFFFFFF#32), (0xA#4, 0xA0000000#32, 0xFFFFFF00#32)]

/-- MASK[op] of R191, from the map of R63. -/
def maskR63 (op : Nat) : Word :=
  [0xFFFFFFFF#32, 0xFFFFFFF0#32, 0xFFFFFFFE#32, 0xFFFFFF00#32, 0xFFFFFFFF#32, 0xFFFFFFFF#32, 0xFFFFE000#32, 0xFFFFF000#32,
   0xFFFFFFFF#32, 0xFFFFFFFF#32, 0xFFFFFF00#32].getD op 0#32

/-- `Check(w)` transcribed line by line from 60_exceptions.md R191, on the bits of the word. -/
def checkR191 (w : Word) (s : State) : Verdict :=
  let op := (w.extractLsb' 28 4).toNat
  if s.sstate = .fault ∧ op ∉ [0x0, 0x1, 0xA] then .refused
  else if 0xB ≤ op then .fault .illegalOpcode
  else if w &&& maskR63 op &&& 0x0FFFFFFF#32 ≠ 0#32 then .fault .illegalField
  else if op = 0x1 ∧ (w.extractLsb' 1 2 = 3#2 ∨ (w.getLsbD 3 = true ∧ w.extractLsb' 1 2 ≠ 2#2)) then .fault .illegalField
  else if op = 0xA ∧ 0x0C ≤ (w.extractLsb' 0 8).toNat then .fault .illegalField
  else if op ∈ [0x0, 0x1, 0xA] then .ok
  else if s.sstate ≠ .coding then .fault .sequence
  else if op ∈ [0x2, 0x3, 0x6] ∧ s.dir = .decode then .fault .wrongDirection
  else if op ∈ [0x4, 0x5, 0x7] ∧ s.dir = .encode then .fault .wrongDirection
  else if op ∈ [0x2, 0x3, 0x4, 0x5, 0x9] ∧ s.pmode = 0#2 then .fault .noPredictor
  else if op ∈ [0x3, 0x5] ∧ s.c0 ≠ 1#8 then .fault .misaligned
  else if op ∈ [0x6, 0x7] ∧ w.extractLsb' 0 12 = 0#12 then .fault .probRange
  else .ok

/-- The registers R196 keeps exact in FAULT state, the FIFOs other than RESPQ, and the machine's capacities. -/
def SameExactState (s t : State) : Prop :=
  t.dir = s.dir ∧ t.pmode = s.pmode ∧ t.apmEn = s.apmEn ∧ t.bitcount = s.bitcount ∧ t.bytesIn = s.bytesIn ∧
  t.bytesOut = s.bytesOut ∧ t.cmdq = s.cmdq ∧ t.inq = s.inq ∧ t.outq = s.outq ∧ t.depths = s.depths

/-- The eight bits of a byte, most significant first (20_memory.md R44). -/
def msbFirst (v : Byte) : List Bool := (List.range 8).map fun k => v.getLsbD (7 - k)

/-- `CtrP12` of the counter table `t` gives in the current context, transcribed from 41_predictors.md R103 and R109 and
42_mixer_apm.md R124. -/
def contextP12 (t : TableId) (s : State) : Nat := max 1 ((s.mem.readCounter t (ctxIndex t s)).p.toNat >>> 4)

/-- `x_i × W[s][i]` of input `i` with the table `t`, the set being C4[7:5] (R124, R125, R127). -/
def laneProduct (i : Nat) (t : TableId) (s : State) : Int :=
  stretch (contextP12 t s) * (s.mem.readWeight (s.c4.toNat / 32 % 8) i).toInt

/-- P_mix, transcribed from R127 and R128. -/
def pMixR128 (s : State) : Nat :=
  squash (max (-2047) (min 2047
    ((laneProduct 0 .t0 s + laneProduct 1 .t1 s + laneProduct 2 .t2 s + laneProduct 3 .t3 s + laneProduct 4 .t4 s) / 2 ^ 16)))

/-- P_apm, transcribed from R134 and R135. -/
def pApmR135 (s : State) : Nat :=
  let a := (stretch (pMixR128 s) + 2048).toNat
  let lo := a >>> 7
  let wt := a % 128
  max 1 (((s.mem.readApm s.c0.toNat lo).toNat * (128 - wt) + (s.mem.readApm s.c0.toNat (lo + 1)).toNat * wt) >>> 11)

/-- The value of GETP, transcribed from 43_commands.md R162 over R109, R138 and R132. -/
def getpR162 (s : State) : Nat :=
  if s.pmode = 1#2 then contextP12 .t1 s
  else if s.apmEn then
    if 2048 < pMixR128 s ∧ pApmR135 s ≤ 2048 then 2049
    else if pMixR128 s < 2048 ∧ 2048 ≤ pApmR135 s then 2047
    else pApmR135 s
  else pMixR128 s

/-- `EncPredBit` of one bit after another, transcribed from R153; none where a renormalisation does not settle. -/
def encPredBits : List Bool → State → Option State
  | [], s => some s
  | y :: ys, s =>
    match renorm renormFuel (narrow y (predict s) s) with
    | .settled u => encPredBits ys (countBit (train y u))
    | .held _ => none
    | .raised _ _ => none

/-- `n` times `DecPredBit`, transcribed from R154, with the bits in order; none where a renormalisation does not settle. -/
def decPredBits : Nat → State → Option (List Bool × State)
  | 0, s => some ([], s)
  | n + 1, s =>
    let y := decide (s.code ≤ xmid s.low s.high (predict s))
    match renorm renormFuel (narrow y (predict s) s) with
    | .settled u => (decPredBits n (countBit (train y u))).map fun r => (y :: r.1, r.2)
    | .held _ => none
    | .raised _ _ => none

/-- The bits of a symbol: a byte counts as eight predicted bits (70_reset_and_hazards.md R225). -/
def symbolBits : Symbol → List Symbol
  | .bit y => [.bit y]
  | .byte v => (msbFirst v).map Symbol.bit
  | .raw y p => [.raw y p]

/-- Every byte command of the sequence stands at a byte boundary (20_memory.md R46), `n` predicted bits having gone before. -/
def bytesAligned : Nat → List Symbol → Bool
  | _, [] => true
  | n, .bit _ :: rest => bytesAligned (n + 1) rest
  | n, .byte _ :: rest => n % 8 == 0 && bytesAligned n rest
  | n, .raw _ _ :: rest => bytesAligned n rest

/-- The core is between commands of an open session of side `d`, with room for `n` responses. -/
def Ready (d : Dir) (n : Nat) (s : State) : Prop :=
  s.cip = none ∧ s.sstate = .coding ∧ s.dir = d ∧ RespRoom n s

/-- The state with an item pushed to INQ. -/
def withInput (x : InItem) (s : State) : State := { s with inq := s.inq ++ [x] }

/-- The state of a machine whose OUTQ has one more place. -/
def withOutPlace (s : State) : State := { s with depths := { s.depths with out := s.depths.out + 1 } }

end Sys2Proof.Machine

open Sys2Proof Sys2Proof.Machine

/-! ## Encoding and decoding -/

/-- Words written out from the formats of 30_encoding.md R61 and the opcode map R63, and the words R64 and R65 reject. -/
def Obligations.SpecWordsDecodeToTheirCommands : Prop :=
  decode 0x00000000#32 = .ok .nop ∧
  decode 0x1000000D#32 = .ok (.init .decode 2#2 true) ∧
  decode 0x20000001#32 = .ok (.encBit true) ∧
  decode 0x30000041#32 = .ok (.encByte 0x41#8) ∧
  decode 0x40000000#32 = .ok .decBit ∧
  decode 0x50000000#32 = .ok .decByte ∧
  decode 0x60001BB8#32 = .ok (.encRaw true 3000#12) ∧
  decode 0x70000BB8#32 = .ok (.decRaw 3000#12) ∧
  decode 0x80000000#32 = .ok .flush ∧
  decode 0x90000000#32 = .ok .getp ∧
  decode 0xA000000B#32 = .ok (.rdreg 0x0B#8) ∧
  decode 0xB0000000#32 = .error (.reservedOpcode 0xB#4) ∧
  decode 0x10000012#32 = .error (.reservedBits 0x1#4)

/-- Decoding the word of a command gives the command back, whatever its operands (R60-R63). -/
def Obligations.DecodeOfEncodeIsTheCommand : Prop := ∀ i : Instr, decode (encode i) = .ok i

/-- Each word is the word of at most one command, the one it decodes to (R63). -/
def Obligations.EncodeOfDecodeIsTheWord : Prop := ∀ (w : Word) (i : Instr), decode w = .ok i → encode i = w

/-- A word selects the mnemonic of a row of R63 exactly when `(w and mask) = match`; a reserved opcode is rejected as such (R64), a
defined one with a reserved bit set as such (R65). -/
def Obligations.WordSelectsItsRowOfTheOpcodeMap : Prop :=
  (∀ row ∈ opcodeMap, ∀ w : Word, w &&& row.2.2 = row.2.1 ↔ ∃ i, decode w = .ok i ∧ i.opc = row.1) ∧
  (∀ w : Word, 0xB ≤ (opcodeOf w).toNat → decode w = .error (.reservedOpcode (opcodeOf w))) ∧
  (∀ w : Word, (opcodeOf w).toNat < 0xB → (∀ row ∈ opcodeMap, w &&& row.2.2 ≠ row.2.1) →
    decode w = .error (.reservedBits (opcodeOf w)))

/-! ## The step -/

/-- R150: with no command in progress the core takes the head of CMDQ; a word that decodes to a command is executed by the
command's meaning, in the state without that word. -/
def Obligations.StepRunsTheDecodedCommand : Prop :=
  ∀ (s : State) (w : Word) (rest : List Word) (i : Instr),
    s.cip = none → s.cmdq = w :: rest → decode w = .ok i → step s = exec i { s with cmdq := rest }

/-- Every step answers a next state: no command, word or state stops the model. That none stops is the model's reading of R150 and
R192 (log entry 21), and that an idle or blocked core answers a next state is the model's choice (log entry 7). -/
def Obligations.EveryStepAnswersANextState : Prop := ∀ s : State, ∃ t, step s = .next t

/-- R167: a hold whose FIFO condition has not cleared, and an idle core, leave the state as it is. That a step then answers the
same state is the model's form of waiting (log entry 7). -/
def Obligations.BlockedStepLeavesTheState : Prop :=
  (∀ (s : State) (c : InProgress), Inv s → s.cip = some c → Blocked c.pos.waits s → step s = .next s) ∧
  (∀ s : State, s.cip = none → s.cmdq = [] → step s = .next s)

/-- R167, R233: a command stops before its end only at a hold point whose FIFO is blocked, so no loop of the rules runs out. -/
def Obligations.CommandsStopOnlyAtABlockedFifo : Prop :=
  ∀ (s t : State) (c : InProgress), Inv s → step s = .next t → t.cip = some c → Blocked c.pos.waits t

/-- R66, R150, R51: each word taken is removed from CMDQ and gets exactly one response, which echoes its opcode; while the command is
still in progress there is none yet, and no further word is taken. -/
def Obligations.EveryCommandAnswersExactlyOnce : Prop :=
  ∀ s t : State, step s = .next t →
    (∀ (w : Word) (rest : List Word), s.cip = none → s.cmdq = w :: rest →
      t.cmdq = rest ∧
      ((t.cip = none ∧ ∃ st data, t.respq = s.respq ++ [responseWord w st data]) ∨
       (t.respq = s.respq ∧ ∃ p, t.cip = some { word := w, pos := p }))) ∧
    (∀ c : InProgress, s.cip = some c →
      t.cmdq = s.cmdq ∧
      ((t.cip = none ∧ ∃ st data, t.respq = s.respq ++ [responseWord c.word st data]) ∨
       (t.respq = s.respq ∧ ∃ p, t.cip = some { word := c.word, pos := p })))

/-- The layout of the response word, the table of R66. -/
def Obligations.ResponseWordHasItsFields : Prop :=
  ∀ (w : Word) (st : BitVec 8) (data : Word),
    (responseWord w st data).extractLsb' 0 8 = st ∧
    (responseWord w st data).extractLsb' 8 4 = w.extractLsb' 28 4 ∧
    (responseWord w st data).extractLsb' 12 20 = 0#20 ∧
    (responseWord w st data).extractLsb' 32 32 = data

/-! ## Checks and faults -/

/-- R191: the decoder's rejections and the command checks together are `Check(w)`, test for test, on every word and state. -/
def Obligations.CheckOfAWordIsTheOrderedTest : Prop := ∀ (w : Word) (s : State), checkWord w s = checkR191 w s

/-- R194: in FAULT state every word but those with the opcode of NOP, INIT or RDREG is refused with STATUS 0x0C and DATA =
FAULTCODE, and nothing but CMDQ and RESPQ changes. -/
def Obligations.FaultStateRefusesAllButThreeOpcodes : Prop :=
  ∀ (s : State) (w : Word) (rest : List Word),
    s.sstate = .fault → s.cip = none → s.cmdq = w :: rest → RespRoom 1 s →
    opcodeOf w ≠ 0x0#4 → opcodeOf w ≠ 0x1#4 → opcodeOf w ≠ 0xA#4 →
    step s = .next { s with
      cmdq := rest, respq := s.respq ++ [responseWord w 0x0C#8 (s.faultcode.setWidth 32)], cip := none }

/-- R195, R190, R196: a fault found by `Check` answers its code with DATA 0 and enters FAULT; the first code of the session is kept,
and the exact registers and the FIFOs are as before. The same of fault entry from any state, whatever raised the fault; and the codes of
the table of R190. -/
def Obligations.CheckFaultsEnterTheFaultState : Prop :=
  (∀ (s : State) (w : Word) (rest : List Word) (f : FaultCode),
    s.cip = none → s.cmdq = w :: rest → RespRoom 1 s → checkWord w s = .fault f →
    ∃ t, step s = .next t ∧ t.sstate = .fault ∧ t.cip = none ∧
      t.faultcode = (if s.sstate = .fault then s.faultcode else f.value) ∧
      t.respq = s.respq ++ [responseWord w f.value 0#32] ∧
      SameExactState { s with cmdq := rest } t) ∧
  (∀ (f : FaultCode) (s : State),
    (faultEntry f s).sstate = .fault ∧ (faultEntry f s).faultcode = (if s.sstate = .fault then s.faultcode else f.value) ∧
    SameExactState s (faultEntry f s) ∧ (faultEntry f s).respq = s.respq ∧ (faultEntry f s).cip = s.cip) ∧
  [FaultCode.illegalOpcode, .illegalField, .sequence, .wrongDirection, .noPredictor, .misaligned, .probRange, .corruptEof, .corruptRange,
    .corruptTrailer, .invariant].map FaultCode.value =
    [0x01#8, 0x02#8, 0x03#8, 0x04#8, 0x05#8, 0x06#8, 0x07#8, 0x08#8, 0x09#8, 0x0A#8, 0x0B#8]

/-- R198: the only ways out of FAULT state are an INIT whose checks pass, which clears FAULTCODE, and hardware reset; an INIT with
illegal fields there answers ILLEGAL_FIELD and leaves SSTATE and FAULTCODE. That it leaves LOW, HIGH, CODE, C0, C4 and the
tables too is the model's choice (log entry 2). -/
def Obligations.OnlyInitOrResetLeavesFault : Prop :=
  (∀ s t : State, Inv s → s.sstate = .fault → step s = .next t → t.sstate ≠ .fault →
    ∃ w, takenWord s = some w ∧ StartsSession w ∧ t.sstate = .coding ∧ t.faultcode = 0#8) ∧
  (∀ s : State, (hardwareReset s).sstate = .idle ∧ (hardwareReset s).faultcode = 0#8) ∧
  (∀ (s : State) (d : Dir) (m : BitVec 2) (a : Bool), s.sstate = .fault → s.cip = none → RespRoom 1 s →
    initFieldsLegal m a = false →
    exec (.init d m a) s = .next { s with
      respq := s.respq ++ [responseWord (encode (.init d m a)) 0x02#8 0#32] })

/-- R13: DIR, PMODE and APM_EN change only by an INIT whose checks pass, to its fields. -/
def Obligations.OnlyInitWritesTheConfiguration : Prop :=
  ∀ s t : State, step s = .next t → (t.dir ≠ s.dir ∨ t.pmode ≠ s.pmode ∨ t.apmEn ≠ s.apmEn) →
    ∃ w d m a, takenWord s = some w ∧ decode w = .ok (.init d m a) ∧ initFieldsLegal m a = true ∧
      t.dir = d ∧ t.pmode = m ∧ t.apmEn = a

/-- R190, R90: from a sound state no step raises INVARIANT. Where the self-check stands is the model's choice (log entry 8). -/
def Obligations.InvariantFaultNeverFires : Prop :=
  ∀ s t : State, Inv s → s.faultcode ≠ 0x0B#8 → step s = .next t → t.faultcode ≠ 0x0B#8

/-- R193, R153: an encoding command whose checks pass raises no fault, in the step that takes it or in a step that goes on with it
after a hold. -/
def Obligations.EncodingCommandsRaiseNoExecutionFault : Prop :=
  (∀ (s t : State) (i : Instr), Inv s → s.cip = none →
    (∃ b, i = .encBit b) ∨ (∃ v, i = .encByte v) ∨ (∃ b p, i = .encRaw b p) →
    check i s = .ok → exec i s = .next t → t.sstate = .coding ∧ t.faultcode = s.faultcode) ∧
  ∀ (s t : State) (c : InProgress), Inv s → s.cip = some c →
    opcodeOf c.word = 0x2#4 ∨ opcodeOf c.word = 0x3#4 ∨ opcodeOf c.word = 0x6#4 →
    step s = .next t → t.sstate = s.sstate ∧ t.faultcode = s.faultcode ∧ (c.pos.waits = .onOutput → t.sstate = .coding)

/-! ## Reset and invariants -/

/-- R35, R220, R221: after hardware reset every register has its reset value, the FIFOs are empty and no command is in progress,
whatever the state before. The tables hold free values (log entry 3); the FIFO depths are kept and the draw number moves on, which is
the model's choice (log entries 4, 5 and 11). -/
def Obligations.HardwareResetGivesTheResetState : Prop :=
  ∀ s : State,
    hardwareReset s =
      { sstate := .idle, dir := .encode, pmode := 0#2, apmEn := false, faultcode := 0#8, low := 0x00000000#32,
        high := 0xFFFFFFFF#32, code := 0x00000000#32, c0 := 1#8, c4 := 0x00000000#32, bitcount := 0#64, bytesIn := 0#32,
        bytesOut := 0#32, mem := Memory.unspecified s.draws, cmdq := [], respq := [], inq := [], outq := [], cip := none,
        depths := s.depths, draws := s.draws + 1 } ∧
    State.reset = hardwareReset { State.reset with draws := 0 }

/-- The state after reset meets the invariant (R35). The FIFO depths and the draw number of that state are the model's choice (log
entries 4 and 5); nothing here rests on them but that the empty FIFOs fit. -/
def Obligations.ResetStateIsSound : Prop := Inv State.reset

/-- R90 and R94 (inferences the spec marks as its own), R17, R18, R22, R27, R28, R13: every step keeps the invariant: the interval
normalised, CODE inside it, C0 with its leading 1, counters and weights in range, a legal mode, a legal FAULTCODE, a sound command
in progress.
Every action of the host between two steps keeps it too, and hardware reset gives it from every state (R32, R220). R32: what the actions
are: a push appends at the tail and answers none where the FIFO is full, a pop takes the head and answers none where it is empty. -/
def Obligations.EveryStepKeepsTheInvariant : Prop :=
  (∀ s t : State, Inv s → step s = .next t → Inv t) ∧
  (∀ s t : State, Inv s →
    (∀ w, pushCommand w s = some t → Inv t) ∧ (∀ x, pushInput x s = some t → Inv t) ∧
    (∀ r, popResponse s = some (r, t) → Inv t) ∧ (∀ b, popOutput s = some (b, t) → Inv t)) ∧
  (∀ s : State, Inv (hardwareReset s)) ∧
  ∀ s : State,
    (∀ w, (s.cmdq.length < s.depths.cmd → pushCommand w s = some { s with cmdq := s.cmdq ++ [w] }) ∧
      (s.depths.cmd ≤ s.cmdq.length → pushCommand w s = none)) ∧
    (∀ x, (s.inq.length < s.depths.inp → pushInput x s = some { s with inq := s.inq ++ [x] }) ∧
      (s.depths.inp ≤ s.inq.length → pushInput x s = none)) ∧
    (∀ r rest, s.respq = r :: rest → popResponse s = some (r, { s with respq := rest })) ∧ (s.respq = [] → popResponse s = none) ∧
    (∀ b rest, s.outq = b :: rest → popOutput s = some (b, { s with outq := rest })) ∧ (s.outq = [] → popOutput s = none)

/-- R40, R41, R42: in a decode session nothing enters OUTQ and in an encode session nothing leaves INQ; OUTQ only grows at its tail
and INQ only loses its head. -/
def Obligations.StreamsMoveOneWay : Prop :=
  ∀ s t : State, Inv s → step s = .next t →
    (t.dir = .decode → t.outq = s.outq) ∧ (t.dir = .encode → t.inq = s.inq) ∧
    (∃ bs, t.outq = s.outq ++ bs) ∧ (∃ xs, s.inq = xs ++ t.inq)

/-! ## The range coder -/

/-- R83: the split point is computed exactly, its two products bounded as the rule says, lies in [LOW, HIGH), and is
floor(r * p / 4096) above LOW or one less. -/
def Obligations.SplitPointIsExact : Prop :=
  ∀ (low high : Word) (p : Nat), low < high → 1 ≤ p → p ≤ 4095 →
    (xmid low high p).toNat = low.toNat + ((high.toNat - low.toNat) >>> 12) * p +
      ((((high.toNat - low.toNat) &&& 0xFFF) * p) >>> 12) ∧
    ((high.toNat - low.toNat) >>> 12) * p ≤ (2 ^ 20 - 1) * 4095 ∧ ((high.toNat - low.toNat) &&& 0xFFF) * p < 2 ^ 24 ∧
    low ≤ xmid low high p ∧ xmid low high p < high ∧
    ((xmid low high p).toNat - low.toNat = (high.toNat - low.toNat) * p / 4096 ∨
     (xmid low high p).toNat - low.toNat + 1 = (high.toNat - low.toNat) * p / 4096)

/-- R91, an inference the spec marks as its own: at a width r of at least 2^16 the lower part is at least (r >> 12) * p wide and so
at least 16, at most r - ceil(r / 4096), and the upper part is at least 15 wide. R81, R85, R86: bit 1 takes the lower part, up to xmid,
bit 0 the upper part, from xmid + 1, and nothing else changes. -/
def Obligations.BothPartsOfASplitAreWide : Prop :=
  (∀ (low high : Word) (p : Nat), low.toNat + 65536 ≤ high.toNat → 1 ≤ p → p ≤ 4095 →
    16 ≤ ((high.toNat - low.toNat) >>> 12) * p ∧
    low.toNat + ((high.toNat - low.toNat) >>> 12) * p ≤ (xmid low high p).toNat ∧
    (xmid low high p).toNat ≤ low.toNat + (high.toNat - low.toNat) * p / 4096 ∧
    (high.toNat - low.toNat) * p / 4096 + (high.toNat - low.toNat + 4095) / 4096 ≤ high.toNat - low.toNat ∧
    (xmid low high p).toNat + 16 ≤ high.toNat ∧
    (xmid low high p + 1#32).toNat + 15 ≤ high.toNat) ∧
  ∀ (s : State) (p : Nat),
    narrow true p s = { s with high := xmid s.low s.high p } ∧ narrow false p s = { s with low := xmid s.low s.high p + 1#32 }

/-- R84, round by round, for every state: a settled top byte is emitted from LOW[31:24] or replaced by a stream byte at the low end of
CODE, and both bounds are shifted; `End` faults CORRUPT_EOF; a full OUTQ or an empty INQ holds; a width below 2^16 keeps the lower part,
and faults CORRUPT_RANGE where CODE is above it; else renormalisation is done. R92, an inference the spec marks as its own: one
renormalisation moves at most 7 bytes; it counts each it moves (R21). -/
def Obligations.RenormalisationMovesAtMostSevenBytes : Prop :=
  (∀ s : State, (s.low ^^^ s.high) &&& 0xFF000000#32 = 0#32 →
    (s.dir = .encode → s.outq.length < s.depths.out →
      renorm renormFuel s = renorm renormFuel { s with
        outq := s.outq ++ [s.low.extractLsb' 24 8], bytesOut := s.bytesOut + 1#32,
        low := s.low <<< 8, high := (s.high <<< 8) ||| 0xFF#32 }) ∧
    (s.dir = .encode → s.depths.out ≤ s.outq.length → renorm renormFuel s = .held s) ∧
    (∀ b rest, s.dir = .decode → s.inq = .byte b :: rest →
      renorm renormFuel s = renorm renormFuel { s with
        inq := rest, bytesIn := s.bytesIn + 1#32, code := (s.code <<< 8) ||| b.setWidth 32,
        low := s.low <<< 8, high := (s.high <<< 8) ||| 0xFF#32 }) ∧
    (∀ rest, s.dir = .decode → s.inq = .endMark :: rest → renorm renormFuel s = .raised .corruptEof { s with inq := rest }) ∧
    (s.dir = .decode → s.inq = [] → renorm renormFuel s = .held s)) ∧
  (∀ s : State, (s.low ^^^ s.high) &&& 0xFF000000#32 ≠ 0#32 →
    ((s.high.toNat : Int) - s.low.toNat < 2 ^ 16 → s.dir = .encode ∨ s.code ≤ s.low ||| 0xFFFF#32 →
      renorm renormFuel s = renorm renormFuel { s with high := s.low ||| 0xFFFF#32 }) ∧
    ((s.high.toNat : Int) - s.low.toNat < 2 ^ 16 → s.dir = .decode → s.low ||| 0xFFFF#32 < s.code →
      renorm renormFuel s = .raised .corruptRange { s with high := s.low ||| 0xFFFF#32 }) ∧
    (2 ^ 16 ≤ (s.high.toNat : Int) - s.low.toNat → renorm renormFuel s = .settled s)) ∧
  ∀ s t : State, s.low < s.high → renorm renormFuel s = .settled t →
    (s.dir = .encode → t.inq = s.inq ∧ t.bytesIn = s.bytesIn ∧
      ∃ bs, bs.length ≤ 7 ∧ t.outq = s.outq ++ bs ∧ t.bytesOut = s.bytesOut + BitVec.ofNat 32 bs.length) ∧
    (s.dir = .decode → t.outq = s.outq ∧ t.bytesOut = s.bytesOut ∧
      ∃ bs : List Byte, bs.length ≤ 7 ∧ s.inq = bs.map InItem.byte ++ t.inq ∧
        t.bytesIn = s.bytesIn + BitVec.ofNat 32 bs.length)

/-- R92, an inference the spec marks as its own: for the same bit the decoder consumes exactly as many bytes as the encoder emits,
and ends with the same interval. -/
def Obligations.DecoderMirrorsEncoderRenormalisation : Prop :=
  ∀ e d e' d' : State, e.dir = .encode → d.dir = .decode → d.low = e.low → d.high = e.high →
    renorm renormFuel e = .settled e' → renorm renormFuel d = .settled d' →
    d'.low = e'.low ∧ d'.high = e'.high ∧ ∃ (out : List Byte) (taken : List Byte),
      e'.outq = e.outq ++ out ∧ d.inq = taken.map InItem.byte ++ d'.inq ∧ taken.length = out.length

/-- R84 against the last paragraph of R90: from a normalised interval a legal subdivision can leave an interval whose truncation
closes it to the single point LOW = HIGH, so `LOW < HIGH` is not true right after every truncation (log entry 9). -/
def Obligations.TruncationCanCloseTheInterval : Prop :=
  ∃ (s : State) (y : Bool) (p : Nat), Normalised s ∧ 1 ≤ p ∧ p ≤ 4095 ∧
    ¬ topSettled (narrow y p s) ∧ widthBelowFloor (narrow y p s) ∧
    (truncateHigh (narrow y p s)).low = (truncateHigh (narrow y p s)).high

/-! ## Counters, contexts and the predictors -/

/-- R102: the shift rate by count. -/
def Obligations.CounterRateFollowsItsTable : Prop :=
  (∀ n, rate n = min (Nat.log2 (n + 2)) 5) ∧
  (∀ n, n ≤ 1 → rate n = 1) ∧ (∀ n, 2 ≤ n → n ≤ 5 → rate n = 2) ∧ (∀ n, 6 ≤ n → n ≤ 13 → rate n = 3) ∧
  (∀ n, 14 ≤ n → n ≤ 29 → rate n = 4) ∧ rate 30 = 5

/-- R103: a counter's coder probability is max(1, P >> 4), in [1, 4095]; P itself can reach 0 and no counter's P is 65536. -/
def Obligations.CounterProbabilityIsNeverExtreme : Prop :=
  (∀ c : Counter, ctrP12 c = max 1 (c.p.toNat >>> 4) ∧ 1 ≤ ctrP12 c ∧ ctrP12 c ≤ 4095 ∧ c.p.toNat < 65536) ∧
  ctrUpdate { p := 1#16, n := 0#5 } false = { p := 0#16, n := 1#5 } ∧
  ctrP12 { p := 32768#16, n := 0#5 } = 2048 ∧
  ∀ n, ctrP12 { p := 15#16, n := n } = 1 ∧ ctrP12 { p := 16#16, n := n } = 1 ∧ ctrP12 { p := 65535#16, n := n } = 4095

/-- R104: the update moves P by the arithmetic shift of the exact difference, never leaves the 16-bit field, and counts up to 30; from
65535 a 1-bit leaves P, from 0 a 1-bit at rate 5 gives 2048, from 1 a 0-bit gives 0. -/
def Obligations.CounterUpdateIsExact : Prop :=
  (∀ (c : Counter) (y : Bool),
    ((ctrUpdate c y).p.toNat : Int) = c.p.toNat + ((if y then 65536 else 0) - c.p.toNat) / 2 ^ rate c.n.toNat ∧
    (ctrUpdate c y).n.toNat = min (c.n.toNat + 1) 30) ∧
  (∀ n, (ctrUpdate { p := 65535#16, n := n } true).p = 65535#16 ∧ (ctrUpdate { p := 1#16, n := n } false).p = 0#16) ∧
  (ctrUpdate { p := 0#16, n := 30#5 } true).p = 2048#16

/-- R106, R107, R30: the context indices, that each lies in its table's index space, and that C0 ≥ 1 leaves index 0 of T0 unused. The
two worked examples of R107 are among them. -/
def Obligations.ContextIndicesLieInTheirTables : Prop :=
  (∀ (s : State) (t : TableId),
    ctxIndex t s < tableSize t ∧
    ctxIndex .t0 s = s.c0.toNat ∧
    ctxIndex .t1 s = (s.c4.toNat % 256) * 256 + s.c0.toNat ∧
    ctxIndex .t2 s = (s.c4.toNat % 2 ^ 16 * 0x9E3779B1 % 2 ^ 32 / 2 ^ 12) ^^^ (s.c0.toNat * 2 ^ 12) ∧
    ctxIndex .t3 s = (s.c4.toNat % 2 ^ 24 * 0x9E3779B1 % 2 ^ 32 / 2 ^ 12) ^^^ (s.c0.toNat * 2 ^ 12) ∧
    ctxIndex .t4 s = (s.c4.toNat % 2 ^ 32 * 0x9E3779B1 % 2 ^ 32 / 2 ^ 12) ^^^ (s.c0.toNat * 2 ^ 12)) ∧
  (∀ s : State, s.c0 ≠ 0#8 → 1 ≤ ctxIndex .t0 s ∧ 1 ≤ ctxIndex .t1 s ∧ ctxIndex .t1 s % 256 ≠ 0) ∧
  (∀ s : State, s.c0 = 0x01#8 → s.c4 = 0x00000041#32 →
    ctxIndex .t2 s = 0x2D15E ∧ ctxIndex .t3 s = 0x2D15E ∧ ctxIndex .t4 s = 0x2D15E) ∧
  (∀ s : State, s.c0 = 0x85#8 → s.c4 = 0x41424344#32 →
    ctxIndex .t2 s = 0x0E95A ∧ ctxIndex .t3 s = 0x6E37A ∧ ctxIndex .t4 s = 0x5937A)

/-- R108: the context update; nothing but C0 and C4 changes, and C0 keeps its leading 1. -/
def Obligations.ContextAdvancesByOneBit : Prop :=
  ∀ (s : State) (y : Bool), s.c0 ≠ 0#8 →
    (s.c0.toNat < 128 → ctxUpdate y s = { s with c0 := BitVec.ofNat 8 (2 * s.c0.toNat + y.toNat) }) ∧
    (128 ≤ s.c0.toNat → ctxUpdate y s =
      { s with c4 := (s.c4 <<< 8) ||| BitVec.ofNat 32 (2 * s.c0.toNat + y.toNat - 256), c0 := 1#8 }) ∧
    (ctxUpdate y s).c0 ≠ 0#8

/-- R110: the DIRECT update writes the one counter T1[Idx1] and no other entry of any table, then advances the context; it is what a
predicted bit of a DIRECT session is trained with (R153, R154). -/
def Obligations.DirectUpdateWritesOneCounter : Prop :=
  ∀ (s : State) (y : Bool), s.mem.wf →
    (dirUpdate y s).mem.readCounter .t1 (ctxIndex .t1 s) = ctrUpdate (s.mem.readCounter .t1 (ctxIndex .t1 s)) y ∧
    (∀ t i, ¬ (t = .t1 ∧ i = ctxIndex .t1 s) → (dirUpdate y s).mem.readCounter t i = s.mem.readCounter t i) ∧
    (∀ k i, (dirUpdate y s).mem.readWeight k i = s.mem.readWeight k i) ∧
    (∀ r j, (dirUpdate y s).mem.readApm r j = s.mem.readApm r j) ∧
    dirUpdate y s = { ctxUpdate y s with mem := (dirUpdate y s).mem } ∧
    (s.pmode = 1#2 → train y s = dirUpdate y s)

/-- R139, R104: the MIX update trains in each counter table the one entry of the context; beside the tables it does what the context
update does, and nothing else; it is what a predicted bit of a MIX session is trained with (R153, R154). -/
def Obligations.MixUpdateTrainsOneCounterPerTable : Prop :=
  (∀ (s : State) (y : Bool) (t : TableId), s.mem.wf →
    (mixUpdate y s).mem.readCounter t (ctxIndex t s) = ctrUpdate (s.mem.readCounter t (ctxIndex t s)) y ∧
    ∀ i, i ≠ ctxIndex t s → (mixUpdate y s).mem.readCounter t i = s.mem.readCounter t i) ∧
  ∀ (s : State) (y : Bool),
    mixUpdate y s = { ctxUpdate y s with mem := (mixUpdate y s).mem } ∧ (s.pmode = 2#2 → train y s = mixUpdate y s)

/-- R130, R129: each weight of the set the prediction used moves by its own input and the error of P_mix, clamped to [1024, 524287];
no other set changes. -/
def Obligations.MixUpdateMovesTheWeightsOfItsSet : Prop :=
  ∀ (s : State) (y : Bool), s.mem.wf →
    (∀ l ∈ mixerInputs, ((mixUpdate y s).mem.readWeight (weightSet s) l.1).toInt =
      max 1024 (min 524287 ((s.mem.readWeight (weightSet s) l.1).toInt +
        (stretch (ctxProb l.2 s) * ((if y then 4096 else 0) - (mixProb s : Int))) / 2 ^ 10))) ∧
    (∀ k i, k ≠ weightSet s → i < 5 → (mixUpdate y s).mem.readWeight k i = s.mem.readWeight k i)

/-- R136, R137, R139: with APM_EN = 1 the nearer bucket of row C0 moves toward the bit at rate 7 and no other bucket changes; with
APM_EN = 0 the table A is not written. -/
def Obligations.MixUpdateTrainsOneApmBucket : Prop :=
  ∀ (s : State) (y : Bool), s.mem.wf →
    (s.apmEn = true →
      (((mixUpdate y s).mem.readApm s.c0.toNat (apmLo s + apmWt s / 64)).toNat : Int) =
        (s.mem.readApm s.c0.toNat (apmLo s + apmWt s / 64)).toNat +
          ((if y then 65536 else 0) - ((s.mem.readApm s.c0.toNat (apmLo s + apmWt s / 64)).toNat : Int)) / 2 ^ 7 ∧
      ∀ r j, j < 33 → ¬ (r = s.c0.toNat ∧ j = apmLo s + apmWt s / 64) →
        (mixUpdate y s).mem.readApm r j = s.mem.readApm r j) ∧
    (s.apmEn = false → ∀ r j, (mixUpdate y s).mem.readApm r j = s.mem.readApm r j)

/-- R120, R121: the table SQ, and squash interpolates it at the clamped logit, rounded to nearest; it is non-decreasing, with values in [1, 4094];
the rule's table of values. -/
def Obligations.SquashIsNonDecreasing : Prop :=
  sqTable = [1, 2, 3, 6, 10, 16, 27, 45, 73, 120, 194,
    310, 488, 747, 1101, 1546, 2047, 2549, 2994, 3348, 3607, 3785,
    3901, 3975, 4024, 4050, 4068, 4079, 4085, 4089, 4092, 4093, 4094] ∧
  (∀ d : Int, squash d =
    (sqTable.getD (max (-2047) (min 2047 d) / 128 + 16).toNat 0 * (128 - (max (-2047) (min 2047 d) % 128).toNat) +
      sqTable.getD ((max (-2047) (min 2047 d) / 128 + 16).toNat + 1) 0 * (max (-2047) (min 2047 d) % 128).toNat + 64) >>> 7) ∧
  (∀ d e : Int, d ≤ e → squash d ≤ squash e) ∧ (∀ d : Int, 1 ≤ squash d ∧ squash d ≤ 4094) ∧
  [-2047, -1000, -129, -128, -1, 0, 1, 22, 127, 128, 1000, 2047].map squash =
    [1, 82, 1543, 1546, 2043, 2047, 2051, 2133, 2545, 2549, 4015, 4094]

/-- R122: stretch(p) is the least logit of [-2047, 2047] that squashes to at least p, or 2047 if there is none; it is non-decreasing
and is applied only to probabilities in [1, 4095]; the rule's table of values. That the model finds it by binary search is log entry
14. -/
def Obligations.StretchIsTheLeastLogit : Prop :=
  (∀ p : Nat, -2047 ≤ stretch p ∧ stretch p ≤ 2047 ∧
    (∀ x : Int, -2047 ≤ x → x < stretch p → squash x < p) ∧
    (p ≤ squash (stretch p) ∨ (stretch p = 2047 ∧ ∀ x : Int, -2047 ≤ x → x ≤ 2047 → squash x < p))) ∧
  (∀ p q : Nat, p ≤ q → stretch p ≤ stretch q) ∧
  (∀ p : Nat, 1 ≤ p → p ≤ 4094 → p ≤ squash (stretch p)) ∧
  (∀ s t, 1 ≤ ctxProb t s ∧ ctxProb t s ≤ 4095 ∧ 1 ≤ mixProb s ∧ mixProb s ≤ 4095) ∧
  [0, 1, 2, 3, 100, 1024, 2047, 2048, 2049, 3072, 4093, 4094, 4095].map stretch =
    [-2047, -2047, -1984, -1856, -951, -284, 0, 1, 1, 285, 1856, 1984, 2047]

/-- R132: the guard keeps the refined probability on P_mix's side of one half, and changes it only where it would cross; what a MIX
session hands to the coder is the guarded value with the APM, P_mix without it, in [1, 4095]. -/
def Obligations.GuardKeepsTheSideOfOneHalf : Prop :=
  (∀ pm pa : Nat, (2048 < pm → 2048 < apmGuard pm pa) ∧ (pm < 2048 → apmGuard pm pa < 2048) ∧
    (2048 < pm → 2048 < pa → apmGuard pm pa = pa) ∧ (pm < 2048 → pa < 2048 → apmGuard pm pa = pa) ∧
    (pm = 2048 → apmGuard pm pa = pa) ∧ (2048 < pm → pa ≤ 2048 → apmGuard pm pa = 2049) ∧
    (pm < 2048 → 2048 ≤ pa → apmGuard pm pa = 2047)) ∧
  ∀ s : State, s.pmode = 2#2 →
    (s.apmEn = false → predict s = mixProb s) ∧
    (s.apmEn = true → predict s = apmGuard (mixProb s) (apmProb s)) ∧
    1 ≤ predict s ∧ predict s ≤ 4095

/-- R80: every probability the predictors hand to the coder lies in [1, 4095], and the P = 0 of a raw command never passes the
checks. -/
def Obligations.CoderProbabilitiesAreNeverExtreme : Prop :=
  (∀ s : State, 1 ≤ predict s ∧ predict s ≤ 4095) ∧
  (∀ (s : State) (b : Bool) (p : BitVec 12), check (.encRaw b p) s = .ok → 1 ≤ p.toNat ∧ p.toNat ≤ 4095) ∧
  (∀ (s : State) (p : BitVec 12), check (.decRaw p) s = .ok → 1 ≤ p.toNat ∧ p.toNat ≤ 4095)

/-- R140, an inference the spec marks as its own: if every component strongly favours a bit, so does the mix and the probability
handed to the coder, with or without the APM, in every state whose weights are legal; the last clause is the rule's example below
the threshold. -/
def Obligations.MixFollowsItsComponents : Prop :=
  (∀ s : State, (∀ i, i < 5 → 1024 ≤ weightOf i s) →
    ((∀ t, 2095 ≤ ctxProb t s) →
      (∀ t, 13 ≤ mixInput t s) ∧ 66560 ≤ mixDot s ∧ 1 ≤ mixLogit s ∧ 2051 ≤ mixProb s ∧ 2048 < mixPredict s) ∧
    ((∀ t, 3072 ≤ ctxProb t s) → (∀ t, 285 ≤ mixInput t s) ∧ 22 ≤ mixLogit s ∧ 2133 ≤ mixProb s) ∧
    ((∀ t, ctxProb t s ≤ 2043) →
      (∀ t, mixInput t s ≤ -1) ∧ mixDot s ≤ -5120 ∧ mixLogit s ≤ -1 ∧ mixProb s ≤ 2043 ∧ mixPredict s < 2048)) ∧
  ∃ s : State, (∀ i, i < 5 → 1024 ≤ weightOf i s) ∧ (∀ t, ctxProb t s = 2049) ∧ mixLogit s = 0 ∧ mixProb s = 2047

/-! ## What each command does -/

/-- R151: NOP answers OK with DATA 0 and changes nothing else, in every session state, FAULT included; a word with opcode 0 and any
other bit set faults ILLEGAL_FIELD. -/
def Obligations.NopOnlyAnswers : Prop :=
  decode 0x00000000#32 = .ok .nop ∧
  (∀ s : State, RespRoom 1 s →
    exec .nop s = .next { s with respq := s.respq ++ [responseWord 0x00000000#32 0x00#8 0#32], cip := none }) ∧
  (∀ (w : Word) (s : State), opcodeOf w = 0x0#4 → w ≠ 0x00000000#32 → checkWord w s = .fault .illegalField)

/-- R152, R82, R31, R232: an encoding INIT with legal fields opens a session from any state: every register has its value, every
table its INIT values, the FIFOs but RESPQ are untouched. -/
def Obligations.InitOpensAnEncodeSession : Prop :=
  ∀ (s : State) (m : BitVec 2) (a : Bool), initFieldsLegal m a = true → RespRoom 1 s →
    exec (.init .encode m a) s = .next { s with
      sstate := .coding, dir := .encode, pmode := m, apmEn := a, faultcode := 0#8, low := 0x00000000#32,
      high := 0xFFFFFFFF#32, code := 0x00000000#32, c0 := 1#8, c4 := 0x00000000#32, bitcount := 0#64, bytesIn := 0#32,
      bytesOut := 0#32, mem := Memory.initial, cip := none,
      respq := s.respq ++ [responseWord (encode (.init .encode m a)) 0x00#8 0#32] } ∧
    (∀ t i, Memory.initial.readCounter t i = { p := 32768#16, n := 0#5 }) ∧
    (∀ k i, Memory.initial.readWeight k i = 16384#20) ∧
    (∀ r j, j < 33 → (Memory.initial.readApm r j).toNat = squash (((j : Int) - 16) * 128) * 16)

/-- R152, R88, R43: a decoding INIT with legal fields and four stream bytes in INQ opens a session whose CODE holds them, the first
byte highest. -/
def Obligations.InitOpensADecodeSession : Prop :=
  ∀ (s : State) (m : BitVec 2) (a : Bool) (b0 b1 b2 b3 : Byte) (rest : List InItem),
    initFieldsLegal m a = true → RespRoom 1 s → s.inq = .byte b0 :: .byte b1 :: .byte b2 :: .byte b3 :: rest →
    exec (.init .decode m a) s = .next { s with
      sstate := .coding, dir := .decode, pmode := m, apmEn := a, faultcode := 0#8, low := 0x00000000#32,
      high := 0xFFFFFFFF#32, code := b0 ++ (b1 ++ (b2 ++ b3)), c0 := 1#8, c4 := 0x00000000#32, bitcount := 0#64,
      bytesIn := 4#32, bytesOut := 0#32, mem := Memory.initial, inq := rest, cip := none,
      respq := s.respq ++ [responseWord (encode (.init .decode m a)) 0x00#8 0#32] }

/-- R152, R224, R199: a decoding INIT that meets `End` among its first four items faults CORRUPT_EOF as the first fault of the new
session: `End` is consumed, BYTES_IN counts the bytes before it, the new configuration is kept. -/
def Obligations.InitOnAShortStreamFaults : Prop :=
  ∀ (s : State) (m : BitVec 2) (a : Bool) (bs : List Byte) (rest : List InItem),
    initFieldsLegal m a = true → RespRoom 1 s → bs.length < 4 → s.inq = bs.map InItem.byte ++ .endMark :: rest →
    ∃ t, exec (.init .decode m a) s = .next t ∧ t.cip = none ∧ t.sstate = .fault ∧ t.faultcode = 0x08#8 ∧
      t.dir = .decode ∧ t.pmode = m ∧ t.apmEn = a ∧ t.bitcount = 0#64 ∧ t.bytesIn = BitVec.ofNat 32 bs.length ∧
      t.bytesOut = 0#32 ∧ t.inq = rest ∧ t.outq = s.outq ∧ t.cmdq = s.cmdq ∧
      t.respq = s.respq ++ [responseWord (encode (.init .decode m a)) 0x08#8 0#32]

/-- R155, R153, R85: ENC_BIT predicts, subdivides, renormalises, trains and counts one bit; all else is unchanged. It completes wherever
OUTQ has room for the bytes it emits, which 7 places always are (R92), and holds at its OutPush otherwise (R167). -/
def Obligations.EncBitCodesOneBit : Prop :=
  ∀ (s : State) (y : Bool), Inv s → Ready .encode 1 s → s.pmode ≠ 0#2 →
    (OutRoom 7 s → ∃ u, renorm renormFuel (narrow y (predict s) s) = .settled u) ∧
    (∀ u, renorm renormFuel (narrow y (predict s) s) = .settled u →
      exec (.encBit y) s = .next { s with
        low := u.low, high := u.high, outq := u.outq, bytesOut := u.bytesOut,
        mem := (train y s).mem, c0 := (train y s).c0, c4 := (train y s).c4, bitcount := s.bitcount + 1#64,
        respq := s.respq ++ [responseWord (encode (.encBit y)) 0x00#8 0#32], cip := none }) ∧
    (∀ u, renorm renormFuel (narrow y (predict s) s) = .held u →
      u.depths.out ≤ u.outq.length ∧ exec (.encBit y) s = .next { u with cip := some { word := encode (.encBit y), pos := .encBit } })

/-- R156, R155, R44: ENC_BYTE completes wherever OUTQ has room for the bytes its eight bits emit and RESPQ for its one response, which
56 places of OUTQ always are (R92); it leaves what EncPredBit of its bits, most significant first, leaves: C0 = 1, C4 with the byte
appended, BITCOUNT 8 more, and the registers it does not write unchanged. Where eight ENC_BITs of those bits have room for their
responses, they complete and leave the same but for the responses. -/
def Obligations.EncByteIsEightEncBits : Prop :=
  ∀ (s : State) (v : Byte), Inv s → Ready .encode 1 s → s.pmode ≠ 0#2 → s.c0 = 1#8 →
    (OutRoom 56 s → ∃ t, encPredBits (msbFirst v) s = some t) ∧
    (∀ t, encPredBits (msbFirst v) s = some t →
      exec (.encByte v) s = .next (answered (encode (.encByte v)) 0x00#8 0#32 t) ∧
      (RespRoom 8 s → ∃ r, runAll ((msbFirst v).map Instr.encBit) s = some r ∧ { r with respq := s.respq } = t) ∧
      t.c0 = 1#8 ∧ t.c4 = (s.c4 <<< 8) ||| v.setWidth 32 ∧ t.bitcount = s.bitcount + 8#64 ∧
      t.sstate = .coding ∧ t.dir = .encode ∧ t.pmode = s.pmode ∧ t.apmEn = s.apmEn ∧ t.faultcode = s.faultcode ∧
      t.code = s.code ∧ t.bytesIn = s.bytesIn ∧ t.inq = s.inq ∧ t.cmdq = s.cmdq ∧ t.respq = s.respq ∧ t.depths = s.depths ∧
      t.cip = none)

/-- R157, R154, R86: DEC_BIT resolves the bit by CODE, renormalises, trains and counts it and answers it; at an empty INQ it holds with
the bit in its record; a corruption ends it with its code, untrained and uncounted. Where the narrowed interval is still normalised
it completes at once. That the record of a hold keeps the bit is the model's addition to R33 (log entry 16); what the faulted state
holds in the registers and tables that R196 leaves unspecified is the model's choice (log entries 1, 2 and 3). -/
def Obligations.DecBitDecodesOneBit : Prop :=
  ∀ (s : State) (y : Bool), Inv s → Ready .decode 1 s → s.pmode ≠ 0#2 → y = decide (s.code ≤ xmid s.low s.high (predict s)) →
    (∀ u, renorm renormFuel (narrow y (predict s) s) = .settled u →
      exec .decBit s = .next { s with
        low := u.low, high := u.high, code := u.code, inq := u.inq, bytesIn := u.bytesIn,
        mem := (train y s).mem, c0 := (train y s).c0, c4 := (train y s).c4, bitcount := s.bitcount + 1#64,
        respq := s.respq ++ [responseWord (encode .decBit) 0x00#8 ((BitVec.ofBool y).setWidth 32)], cip := none }) ∧
    (∀ u, renorm renormFuel (narrow y (predict s) s) = .held u →
      exec .decBit s = .next { u with cip := some { word := encode .decBit, pos := .decBit y } }) ∧
    (∀ f u, renorm renormFuel (narrow y (predict s) s) = .raised f u →
      (f = .corruptEof ∨ f = .corruptRange) ∧
      exec .decBit s = .next (answered (encode .decBit) f.value 0#32 (faultEntry f u)) ∧
      u.bitcount = s.bitcount) ∧
    (Normalised (narrow y (predict s) s) → renorm renormFuel (narrow y (predict s) s) = .settled (narrow y (predict s) s))

/-- R158, R44: when eight DEC_BITs complete, DEC_BYTE answers their bits as a byte, the first in bit 7, and leaves what they leave. -/
def Obligations.DecByteIsEightDecBits : Prop :=
  ∀ s t : State, Inv s → Ready .decode 8 s → s.pmode ≠ 0#2 → s.c0 = 1#8 →
    runAll (List.replicate 8 .decBit) s = some t → t.sstate = .coding →
    ∃ v : Byte,
      t.respq = s.respq ++ (msbFirst v).map (fun y => responseWord (encode .decBit) 0x00#8 ((BitVec.ofBool y).setWidth 32)) ∧
      exec .decByte s = .next { t with
        respq := s.respq ++ [responseWord (encode .decByte) 0x00#8 (v.setWidth 32)] } ∧
      t.c0 = 1#8 ∧ t.c4 = (s.c4 <<< 8) ||| v.setWidth 32 ∧ t.bitcount = s.bitcount + 8#64

/-- R158, R192, R196: a fault at bit k of DEC_BYTE ends it there: the bits before it have completed and are counted, the code of the
bit's fault is answered with DATA 0. One place in RESPQ is enough; with eight, the bits before are DEC_BITs. R196 leaves LOW, HIGH, CODE, C0, C4 and the tables unspecified; that they are the same free values
as after the DEC_BIT that faults is the model's choice (log entries 1, 3 and 4). -/
def Obligations.DecByteFaultsWhereItsBitFaults : Prop :=
  (∀ (s t u : State) (ys : List Bool) (k : Nat) (f : FaultCode), Inv s → Ready .decode 1 s → s.pmode ≠ 0#2 → s.c0 = 1#8 → k < 8 →
    decPredBits k s = some (ys, t) →
    renorm renormFuel (narrow (decide (t.code ≤ xmid t.low t.high (predict t))) (predict t) t) = .raised f u →
    (f = .corruptEof ∨ f = .corruptRange) ∧
    exec .decByte s = .next (answered (encode .decByte) f.value 0#32 (faultEntry f u)) ∧
    u.bitcount = s.bitcount + BitVec.ofNat 64 k) ∧
  ∀ (s t u : State) (k : Nat), Inv s → Ready .decode 8 s → s.pmode ≠ 0#2 → s.c0 = 1#8 → k < 8 →
    runAll (List.replicate k .decBit) s = some t → t.sstate = .coding →
    exec .decBit t = .next u → u.cip = none → u.sstate = .fault →
    exec .decByte s = .next { u with
      respq := s.respq ++ [responseWord (encode .decByte) u.faultcode 0#32] } ∧
    u.bitcount = s.bitcount + BitVec.ofNat 64 k

/-- R158, R154, R44: DEC_BYTE completes wherever its eight bits raise no fault and find the stream bytes they need, and leaves what
DecPredBit eight times leaves, with the bits as DATA, the first in bit 7. At the start of a DIRECT session it does so for every CODE
(R109, R83, R84): all eight probabilities are one half and bit 1 takes the lower part (R81, R86), so the byte is the complement of the
top byte of CODE, and one stream byte is taken in. -/
def Obligations.DecByteCompletesWhereItsBitsSettle : Prop :=
  (∀ (s t : State) (ys : List Bool), Inv s → Ready .decode 1 s → s.pmode ≠ 0#2 → s.c0 = 1#8 → decPredBits 8 s = some (ys, t) →
    ∃ v : Byte, msbFirst v = ys ∧
      exec .decByte s = .next (answered (encode .decByte) 0x00#8 (v.setWidth 32) t) ∧
      t.c0 = 1#8 ∧ t.c4 = (s.c4 <<< 8) ||| v.setWidth 32 ∧ t.bitcount = s.bitcount + 8#64 ∧
      t.sstate = .coding ∧ t.dir = .decode ∧ t.pmode = s.pmode ∧ t.apmEn = s.apmEn ∧ t.faultcode = s.faultcode ∧
      t.bytesOut = s.bytesOut ∧ t.outq = s.outq ∧ t.cmdq = s.cmdq ∧ t.respq = s.respq ∧ t.depths = s.depths ∧ t.cip = none) ∧
  ∀ (s : State) (b : Byte) (rest : List InItem), Ready .decode 1 s → s.pmode = 1#2 → s.mem = Memory.initial →
    s.c0 = 1#8 → s.c4 = 0#32 → s.low = 0x00000000#32 → s.high = 0xFFFFFFFF#32 → s.inq = .byte b :: rest →
    ∃ t, exec .decByte s = .next t ∧ t.cip = none ∧ t.sstate = .coding ∧
      t.respq = s.respq ++ [responseWord (encode .decByte) 0x00#8 ((~~~ s.code.extractLsb' 24 8).setWidth 32)] ∧
      t.low = 0x00000000#32 ∧ t.high = 0xFFFFFFFF#32 ∧ t.code = s.code.extractLsb' 0 24 ++ b ∧
      t.c0 = 1#8 ∧ t.c4 = (~~~ s.code.extractLsb' 24 8).setWidth 32 ∧ t.inq = rest ∧ t.bytesIn = s.bytesIn + 1#32 ∧
      t.bitcount = s.bitcount + 8#64 ∧ t.outq = s.outq

/-- R159, R85: ENC_RAW codes its bit at its own probability and counts it; C0, C4, every table and all else are unchanged. It completes
wherever OUTQ has room for the bytes it emits, which 7 places always are (R92), and holds at its OutPush otherwise (R167). -/
def Obligations.EncRawCodesOneBit : Prop :=
  ∀ (s : State) (y : Bool) (p : BitVec 12), Inv s → Ready .encode 1 s → p ≠ 0#12 →
    (OutRoom 7 s → ∃ u, renorm renormFuel (narrow y p.toNat s) = .settled u) ∧
    (∀ u, renorm renormFuel (narrow y p.toNat s) = .settled u →
      exec (.encRaw y p) s = .next { s with
        low := u.low, high := u.high, outq := u.outq, bytesOut := u.bytesOut, bitcount := s.bitcount + 1#64,
        respq := s.respq ++ [responseWord (encode (.encRaw y p)) 0x00#8 0#32], cip := none }) ∧
    (∀ u, renorm renormFuel (narrow y p.toNat s) = .held u →
      u.depths.out ≤ u.outq.length ∧
      exec (.encRaw y p) s = .next { u with cip := some { word := encode (.encRaw y p), pos := .encRaw } })

/-- R160, R86: DEC_RAW resolves the bit by CODE at its own probability, counts and answers it; C0, C4, every table and all else are
unchanged; holds and corruption as for DEC_BIT. That the record of a hold keeps the bit is the model's addition to R33 (log entry 16);
what the faulted state holds in the registers and tables that R196 leaves unspecified is the model's choice (log entries 1, 2 and 3). -/
def Obligations.DecRawDecodesOneBit : Prop :=
  ∀ (s : State) (p : BitVec 12) (y : Bool), Inv s → Ready .decode 1 s → p ≠ 0#12 →
    y = decide (s.code ≤ xmid s.low s.high p.toNat) →
    (∀ u, renorm renormFuel (narrow y p.toNat s) = .settled u →
      exec (.decRaw p) s = .next { s with
        low := u.low, high := u.high, code := u.code, inq := u.inq, bytesIn := u.bytesIn, bitcount := s.bitcount + 1#64,
        respq := s.respq ++ [responseWord (encode (.decRaw p)) 0x00#8 ((BitVec.ofBool y).setWidth 32)], cip := none }) ∧
    (∀ u, renorm renormFuel (narrow y p.toNat s) = .held u →
      exec (.decRaw p) s = .next { u with cip := some { word := encode (.decRaw p), pos := .decRaw y } }) ∧
    (∀ f u, renorm renormFuel (narrow y p.toNat s) = .raised f u →
      (f = .corruptEof ∨ f = .corruptRange) ∧
      exec (.decRaw p) s = .next (answered (encode (.decRaw p)) f.value 0#32 (faultEntry f u)) ∧
      u.bitcount = s.bitcount) ∧
    (Normalised (narrow y p.toNat s) → renorm renormFuel (narrow y p.toNat s) = .settled (narrow y p.toNat s))

/-- R161, R87, R43: the encoder's FLUSH emits the four bytes of LOW, most significant first, ends the session and answers BYTES_OUT;
LOW, the tables and all else are unchanged. With k < 4 places in OUTQ it emits the first k and holds (R167); once OUTQ has room for the
bytes left it emits them and ends as before. -/
def Obligations.FlushEmitsTheFourBytesOfLow : Prop :=
  (∀ s : State, Ready .encode 1 s →
    (OutRoom 4 s → exec .flush s = .next { s with
      sstate := .done,
      outq := s.outq ++ [s.low.extractLsb' 24 8, s.low.extractLsb' 16 8, s.low.extractLsb' 8 8, s.low.extractLsb' 0 8],
      bytesOut := s.bytesOut + 4#32,
      respq := s.respq ++ [responseWord (encode .flush) 0x00#8 (s.bytesOut + 4#32)], cip := none }) ∧
    (∀ k, k < 4 → s.depths.out = s.outq.length + k → exec .flush s = .next { s with
      outq := s.outq ++ [s.low.extractLsb' 24 8, s.low.extractLsb' 16 8, s.low.extractLsb' 8 8].take k,
      bytesOut := s.bytesOut + BitVec.ofNat 32 k, cip := some { word := encode .flush, pos := .flushEnc (4 - k) } })) ∧
  ∀ (s : State) (w : Word) (left : Nat), s.cip = some { word := w, pos := .flushEnc left } → 1 ≤ left → left ≤ 4 →
    OutRoom left s → RespRoom 1 s →
    step s = .next { s with
      sstate := .done,
      outq := s.outq ++
        [s.low.extractLsb' 24 8, s.low.extractLsb' 16 8, s.low.extractLsb' 8 8, s.low.extractLsb' 0 8].drop (4 - left),
      bytesOut := s.bytesOut + BitVec.ofNat 32 left,
      respq := s.respq ++ [responseWord w 0x00#8 (s.bytesOut + BitVec.ofNat 32 left)], cip := none }

/-- R161, R89: the decoder's FLUSH with CODE = LOW and `End` next ends the session and answers BYTES_IN; CODE ≠ LOW, or a byte next
(which is consumed and counted), faults CORRUPT_TRAILER. -/
def Obligations.FlushChecksTheEndOfTheStream : Prop :=
  ∀ s : State, Ready .decode 1 s →
    (∀ rest, s.code = s.low → s.inq = .endMark :: rest →
      exec .flush s = .next { s with
        sstate := .done, inq := rest, respq := s.respq ++ [responseWord (encode .flush) 0x00#8 s.bytesIn], cip := none }) ∧
    (s.code ≠ s.low → ∃ t, exec .flush s = .next t ∧ t.sstate = .fault ∧ t.faultcode = 0x0A#8 ∧ t.cip = none ∧
      t.respq = s.respq ++ [responseWord (encode .flush) 0x0A#8 0#32] ∧ SameExactState s t) ∧
    (∀ b rest, s.code = s.low → s.inq = .byte b :: rest →
      ∃ t, exec .flush s = .next t ∧ t.sstate = .fault ∧ t.faultcode = 0x0A#8 ∧ t.cip = none ∧
        t.respq = s.respq ++ [responseWord (encode .flush) 0x0A#8 0#32] ∧
        SameExactState { s with inq := rest, bytesIn := s.bytesIn + 1#32 } t)

/-- R162, R48, R109, R127, R128, R132, R134, R135: GETP answers the probability the session's predictor gives the next bit, which is
max(1, T1[Idx1].P >> 4) in a DIRECT session and, in a MIX session, P_mix or the guarded P_apm computed as the rules say; in either
direction and at every BITPOS; it changes nothing else. The coder and the weight update use these same values. -/
def Obligations.GetpOnlyAnswersTheProbability : Prop :=
  (∀ s : State, s.sstate = .coding → s.pmode ≠ 0#2 → RespRoom 1 s →
    exec .getp s = .next { s with
      respq := s.respq ++ [responseWord (encode .getp) 0x00#8 (BitVec.ofNat 32 (getpR162 s))], cip := none }) ∧
  ∀ s : State, predict s = getpR162 s ∧ dirPredict s = contextP12 .t1 s ∧ mixProb s = pMixR128 s ∧ apmProb s = pApmR135 s

/-- R23, R163, R14, R16, R48: RDREG of each of the twelve registers answers it in every session state and changes nothing else; a
reserved number faults ILLEGAL_FIELD in every session state. -/
def Obligations.RdregOnlyAnswersTheRegister : Prop :=
  ∀ (s : State) (reg : BitVec 8),
    (reg.toNat < 0x0C → RespRoom 1 s →
      exec (.rdreg reg) s = .next { s with
        respq := s.respq ++ [responseWord (encode (.rdreg reg)) 0x00#8
          ([0x41524331#32, statusReg s, s.low, s.high, s.code, 0#24 ++ s.c0, s.c4, s.bitcount.extractLsb' 0 32,
            s.bitcount.extractLsb' 32 32, s.bytesIn, s.bytesOut, 0x0805140C#32].getD reg.toNat 0#32)], cip := none }) ∧
    (0x0C ≤ reg.toNat → check (.rdreg reg) s = .fault .illegalField)

/-- R15: the fields of the STATUS register. BITPOS is stated where C0 has its leading 1; elsewhere the rule gives it no value. -/
def Obligations.StatusRegisterHasItsFields : Prop :=
  ∀ s : State,
    (statusReg s).extractLsb' 0 2 = (match s.sstate with | .idle => 0#2 | .coding => 1#2 | .done => 2#2 | .fault => 3#2) ∧
    (statusReg s).extractLsb' 2 1 = (match s.dir with | .encode => 0#1 | .decode => 1#1) ∧
    (statusReg s).extractLsb' 3 2 = s.pmode ∧
    (statusReg s).extractLsb' 5 1 = BitVec.ofBool s.apmEn ∧
    (statusReg s).extractLsb' 6 2 = 0#2 ∧
    (s.c0 ≠ 0#8 → ((statusReg s).extractLsb' 8 3).toNat = Nat.log2 s.c0.toNat) ∧
    (statusReg s).extractLsb' 11 5 = 0#5 ∧
    (statusReg s).extractLsb' 16 8 = s.faultcode ∧
    (statusReg s).extractLsb' 24 8 = 0#8

/-! ## The streams and the host -/

/-- R51, R167, R33: it makes no difference whether the host pushes an input item before a command reaches its `InPop` or while it holds
there; the first clause is the same for an INQ of any capacity. -/
def Obligations.InputArrivalTimeDoesNotMatter : Prop :=
  ∀ (s t : State) (c : InProgress) (x : InItem), Inv s → step s = .next t → t.cip = some c → c.pos.waits = .onInput →
    step (withInput x t) = step (withInput x s) ∧
    ∀ s', pushInput x s = some s' → ∃ t', pushInput x t = some t' ∧ step t' = step s'

/-- R51, R167, R33, R228: it makes no difference whether the host pops a byte of OUTQ before a command reaches its `OutPush` or while
it holds there, nor whether it pops a response before a command reaches its response push or while it holds there. A command held at its
`OutPush` goes on as it would have gone with one more place in OUTQ, whichever byte the host pops, one the command itself pushed
included. -/
def Obligations.OutputDrainTimeDoesNotMatter : Prop :=
  ∀ (s t : State) (c : InProgress), Inv s → step s = .next t → t.cip = some c →
    (c.pos.waits = .onOutput →
      (∀ b s', popOutput s = some (b, s') → ∃ t', popOutput t = some (b, t') ∧ step t' = step s') ∧
      ∃ u, step (withOutPlace s) = .next u ∧ step (withOutPlace t) = .next u ∧
        ∀ b t', popOutput t = some (b, t') →
          u.outq = b :: u.outq.tail ∧ step t' = .next { u with outq := u.outq.tail, depths := s.depths }) ∧
    (c.pos.waits = .onResponse →
      ∀ r s', popResponse s = some (r, s') → ∃ t', popResponse t = some (r, t') ∧ step t' = step s')

/-- R93, R225: the round trip, an inference the spec marks as its own. If an encode session runs any sequence of predicted bits, bytes and
raw bits and its FLUSH with no hold, every command answering OK, then a decode session of the same mode, its commands the mirror of the
encoder's bit for bit with the byte and bit forms mixed as its host likes (a byte form at byte boundaries only, R46), its INQ holding the
encoder's output and `End`, answers every bit and byte, ends OK with the same stream length, and leaves the same interval, context and
tables; the two sides agree after the same bits on the way as well. What a hold changes is nothing: that is stated by
InputArrivalTimeDoesNotMatter and OutputDrainTimeDoesNotMatter. -/
def Obligations.DecodingReversesEncoding : Prop :=
  ∀ (e e' d : State) (m : BitVec 2) (a : Bool) (es ds : List Symbol) (stream : List Byte) (rest : List InItem),
    e.cip = none →
    runAll (.init .encode m a :: (es.map Symbol.encoder ++ [.flush])) e = some e' →
    e'.sstate = .done →
    e'.outq = e.outq ++ stream →
    ds.flatMap symbolBits = es.flatMap symbolBits → bytesAligned 0 ds = true →
    d.cip = none → RespRoom (ds.length + 2) d → d.inq = streamItems stream ++ rest →
    (∃ d', runAll (.init .decode m a :: (ds.map Symbol.decoder ++ [.flush])) d = some d' ∧
      d'.sstate = .done ∧ d'.inq = rest ∧ d'.bytesIn = e'.bytesOut ∧ d'.bitcount = e'.bitcount ∧
      d'.low = e'.low ∧ d'.high = e'.high ∧ d'.c0 = e'.c0 ∧ d'.c4 = e'.c4 ∧ d'.mem = e'.mem ∧
      d'.respq = d.respq ++
        (responseWord (encode (.init .decode m a)) 0x00#8 0#32 ::
          (ds.map (fun y => responseWord (encode y.decoder) 0x00#8 y.data) ++
            [responseWord (encode .flush) 0x00#8 e'.bytesOut]))) ∧
    (∀ k l, (ds.take l).flatMap symbolBits = (es.take k).flatMap symbolBits → ∃ ek dk,
      runAll (.init .encode m a :: (es.take k).map Symbol.encoder) e = some ek ∧
      runAll (.init .decode m a :: (ds.take l).map Symbol.decoder) d = some dk ∧
      dk.low = ek.low ∧ dk.high = ek.high ∧ dk.c0 = ek.c0 ∧ dk.c4 = ek.c4 ∧ dk.mem = ek.mem)
end

