-- ==== Sys2Proof/Laws/State.lean ====
section
/-! SUPPORT. One lemma per field per named update of State: what an update leaves is rfl, and simp never unfolds an update. -/

namespace Sys2Proof.Machine

/-! ### shiftCode -/

@[simp] theorem shiftCode_sstate (b : Byte) (s : State) : (shiftCode b s).sstate = s.sstate := rfl
@[simp] theorem shiftCode_dir (b : Byte) (s : State) : (shiftCode b s).dir = s.dir := rfl
@[simp] theorem shiftCode_pmode (b : Byte) (s : State) : (shiftCode b s).pmode = s.pmode := rfl
@[simp] theorem shiftCode_apmEn (b : Byte) (s : State) : (shiftCode b s).apmEn = s.apmEn := rfl
@[simp] theorem shiftCode_faultcode (b : Byte) (s : State) : (shiftCode b s).faultcode = s.faultcode := rfl
@[simp] theorem shiftCode_low (b : Byte) (s : State) : (shiftCode b s).low = s.low := rfl
@[simp] theorem shiftCode_high (b : Byte) (s : State) : (shiftCode b s).high = s.high := rfl
@[simp] theorem shiftCode_code (b : Byte) (s : State) : (shiftCode b s).code = (s.code <<< 8) ||| b.setWidth 32 := rfl
@[simp] theorem shiftCode_c0 (b : Byte) (s : State) : (shiftCode b s).c0 = s.c0 := rfl
@[simp] theorem shiftCode_c4 (b : Byte) (s : State) : (shiftCode b s).c4 = s.c4 := rfl
@[simp] theorem shiftCode_bitcount (b : Byte) (s : State) : (shiftCode b s).bitcount = s.bitcount := rfl
@[simp] theorem shiftCode_bytesIn (b : Byte) (s : State) : (shiftCode b s).bytesIn = s.bytesIn := rfl
@[simp] theorem shiftCode_bytesOut (b : Byte) (s : State) : (shiftCode b s).bytesOut = s.bytesOut := rfl
@[simp] theorem shiftCode_mem (b : Byte) (s : State) : (shiftCode b s).mem = s.mem := rfl
@[simp] theorem shiftCode_cmdq (b : Byte) (s : State) : (shiftCode b s).cmdq = s.cmdq := rfl
@[simp] theorem shiftCode_respq (b : Byte) (s : State) : (shiftCode b s).respq = s.respq := rfl
@[simp] theorem shiftCode_inq (b : Byte) (s : State) : (shiftCode b s).inq = s.inq := rfl
@[simp] theorem shiftCode_outq (b : Byte) (s : State) : (shiftCode b s).outq = s.outq := rfl
@[simp] theorem shiftCode_cip (b : Byte) (s : State) : (shiftCode b s).cip = s.cip := rfl
@[simp] theorem shiftCode_depths (b : Byte) (s : State) : (shiftCode b s).depths = s.depths := rfl
@[simp] theorem shiftCode_draws (b : Byte) (s : State) : (shiftCode b s).draws = s.draws := rfl

/-! ### countBit -/

@[simp] theorem countBit_sstate (s : State) : (countBit s).sstate = s.sstate := rfl
@[simp] theorem countBit_dir (s : State) : (countBit s).dir = s.dir := rfl
@[simp] theorem countBit_pmode (s : State) : (countBit s).pmode = s.pmode := rfl
@[simp] theorem countBit_apmEn (s : State) : (countBit s).apmEn = s.apmEn := rfl
@[simp] theorem countBit_faultcode (s : State) : (countBit s).faultcode = s.faultcode := rfl
@[simp] theorem countBit_low (s : State) : (countBit s).low = s.low := rfl
@[simp] theorem countBit_high (s : State) : (countBit s).high = s.high := rfl
@[simp] theorem countBit_code (s : State) : (countBit s).code = s.code := rfl
@[simp] theorem countBit_c0 (s : State) : (countBit s).c0 = s.c0 := rfl
@[simp] theorem countBit_c4 (s : State) : (countBit s).c4 = s.c4 := rfl
@[simp] theorem countBit_bitcount (s : State) : (countBit s).bitcount = s.bitcount + 1#64 := rfl
@[simp] theorem countBit_bytesIn (s : State) : (countBit s).bytesIn = s.bytesIn := rfl
@[simp] theorem countBit_bytesOut (s : State) : (countBit s).bytesOut = s.bytesOut := rfl
@[simp] theorem countBit_mem (s : State) : (countBit s).mem = s.mem := rfl
@[simp] theorem countBit_cmdq (s : State) : (countBit s).cmdq = s.cmdq := rfl
@[simp] theorem countBit_respq (s : State) : (countBit s).respq = s.respq := rfl
@[simp] theorem countBit_inq (s : State) : (countBit s).inq = s.inq := rfl
@[simp] theorem countBit_outq (s : State) : (countBit s).outq = s.outq := rfl
@[simp] theorem countBit_cip (s : State) : (countBit s).cip = s.cip := rfl
@[simp] theorem countBit_depths (s : State) : (countBit s).depths = s.depths := rfl
@[simp] theorem countBit_draws (s : State) : (countBit s).draws = s.draws := rfl

/-! ### shiftBounds -/

@[simp] theorem shiftBounds_sstate (s : State) : (shiftBounds s).sstate = s.sstate := rfl
@[simp] theorem shiftBounds_dir (s : State) : (shiftBounds s).dir = s.dir := rfl
@[simp] theorem shiftBounds_pmode (s : State) : (shiftBounds s).pmode = s.pmode := rfl
@[simp] theorem shiftBounds_apmEn (s : State) : (shiftBounds s).apmEn = s.apmEn := rfl
@[simp] theorem shiftBounds_faultcode (s : State) : (shiftBounds s).faultcode = s.faultcode := rfl
@[simp] theorem shiftBounds_low (s : State) : (shiftBounds s).low = s.low <<< 8 := rfl
@[simp] theorem shiftBounds_high (s : State) : (shiftBounds s).high = (s.high <<< 8) ||| 0xFF#32 := rfl
@[simp] theorem shiftBounds_code (s : State) : (shiftBounds s).code = s.code := rfl
@[simp] theorem shiftBounds_c0 (s : State) : (shiftBounds s).c0 = s.c0 := rfl
@[simp] theorem shiftBounds_c4 (s : State) : (shiftBounds s).c4 = s.c4 := rfl
@[simp] theorem shiftBounds_bitcount (s : State) : (shiftBounds s).bitcount = s.bitcount := rfl
@[simp] theorem shiftBounds_bytesIn (s : State) : (shiftBounds s).bytesIn = s.bytesIn := rfl
@[simp] theorem shiftBounds_bytesOut (s : State) : (shiftBounds s).bytesOut = s.bytesOut := rfl
@[simp] theorem shiftBounds_mem (s : State) : (shiftBounds s).mem = s.mem := rfl
@[simp] theorem shiftBounds_cmdq (s : State) : (shiftBounds s).cmdq = s.cmdq := rfl
@[simp] theorem shiftBounds_respq (s : State) : (shiftBounds s).respq = s.respq := rfl
@[simp] theorem shiftBounds_inq (s : State) : (shiftBounds s).inq = s.inq := rfl
@[simp] theorem shiftBounds_outq (s : State) : (shiftBounds s).outq = s.outq := rfl
@[simp] theorem shiftBounds_cip (s : State) : (shiftBounds s).cip = s.cip := rfl
@[simp] theorem shiftBounds_depths (s : State) : (shiftBounds s).depths = s.depths := rfl
@[simp] theorem shiftBounds_draws (s : State) : (shiftBounds s).draws = s.draws := rfl

/-! ### truncateHigh -/

@[simp] theorem truncateHigh_sstate (s : State) : (truncateHigh s).sstate = s.sstate := rfl
@[simp] theorem truncateHigh_dir (s : State) : (truncateHigh s).dir = s.dir := rfl
@[simp] theorem truncateHigh_pmode (s : State) : (truncateHigh s).pmode = s.pmode := rfl
@[simp] theorem truncateHigh_apmEn (s : State) : (truncateHigh s).apmEn = s.apmEn := rfl
@[simp] theorem truncateHigh_faultcode (s : State) : (truncateHigh s).faultcode = s.faultcode := rfl
@[simp] theorem truncateHigh_low (s : State) : (truncateHigh s).low = s.low := rfl
@[simp] theorem truncateHigh_high (s : State) : (truncateHigh s).high = s.low ||| 0xFFFF#32 := rfl
@[simp] theorem truncateHigh_code (s : State) : (truncateHigh s).code = s.code := rfl
@[simp] theorem truncateHigh_c0 (s : State) : (truncateHigh s).c0 = s.c0 := rfl
@[simp] theorem truncateHigh_c4 (s : State) : (truncateHigh s).c4 = s.c4 := rfl
@[simp] theorem truncateHigh_bitcount (s : State) : (truncateHigh s).bitcount = s.bitcount := rfl
@[simp] theorem truncateHigh_bytesIn (s : State) : (truncateHigh s).bytesIn = s.bytesIn := rfl
@[simp] theorem truncateHigh_bytesOut (s : State) : (truncateHigh s).bytesOut = s.bytesOut := rfl
@[simp] theorem truncateHigh_mem (s : State) : (truncateHigh s).mem = s.mem := rfl
@[simp] theorem truncateHigh_cmdq (s : State) : (truncateHigh s).cmdq = s.cmdq := rfl
@[simp] theorem truncateHigh_respq (s : State) : (truncateHigh s).respq = s.respq := rfl
@[simp] theorem truncateHigh_inq (s : State) : (truncateHigh s).inq = s.inq := rfl
@[simp] theorem truncateHigh_outq (s : State) : (truncateHigh s).outq = s.outq := rfl
@[simp] theorem truncateHigh_cip (s : State) : (truncateHigh s).cip = s.cip := rfl
@[simp] theorem truncateHigh_depths (s : State) : (truncateHigh s).depths = s.depths := rfl
@[simp] theorem truncateHigh_draws (s : State) : (truncateHigh s).draws = s.draws := rfl

/-! ### unspecify -/

@[simp] theorem unspecify_sstate (s : State) : (unspecify s).sstate = s.sstate := rfl
@[simp] theorem unspecify_dir (s : State) : (unspecify s).dir = s.dir := rfl
@[simp] theorem unspecify_pmode (s : State) : (unspecify s).pmode = s.pmode := rfl
@[simp] theorem unspecify_apmEn (s : State) : (unspecify s).apmEn = s.apmEn := rfl
@[simp] theorem unspecify_faultcode (s : State) : (unspecify s).faultcode = s.faultcode := rfl
@[simp] theorem unspecify_low (s : State) : (unspecify s).low = Config.unspecLow s.draws := rfl
@[simp] theorem unspecify_high (s : State) : (unspecify s).high = Config.unspecHigh s.draws := rfl
@[simp] theorem unspecify_code (s : State) : (unspecify s).code = Config.unspecCode s.draws := rfl
@[simp] theorem unspecify_c0 (s : State) : (unspecify s).c0 = Config.unspecC0 s.draws := rfl
@[simp] theorem unspecify_c4 (s : State) : (unspecify s).c4 = Config.unspecC4 s.draws := rfl
@[simp] theorem unspecify_bitcount (s : State) : (unspecify s).bitcount = s.bitcount := rfl
@[simp] theorem unspecify_bytesIn (s : State) : (unspecify s).bytesIn = s.bytesIn := rfl
@[simp] theorem unspecify_bytesOut (s : State) : (unspecify s).bytesOut = s.bytesOut := rfl
@[simp] theorem unspecify_mem (s : State) : (unspecify s).mem = Memory.unspecified s.draws := rfl
@[simp] theorem unspecify_cmdq (s : State) : (unspecify s).cmdq = s.cmdq := rfl
@[simp] theorem unspecify_respq (s : State) : (unspecify s).respq = s.respq := rfl
@[simp] theorem unspecify_inq (s : State) : (unspecify s).inq = s.inq := rfl
@[simp] theorem unspecify_outq (s : State) : (unspecify s).outq = s.outq := rfl
@[simp] theorem unspecify_cip (s : State) : (unspecify s).cip = s.cip := rfl
@[simp] theorem unspecify_depths (s : State) : (unspecify s).depths = s.depths := rfl
@[simp] theorem unspecify_draws (s : State) : (unspecify s).draws = s.draws + 1 := rfl

/-! ### beginSession -/

@[simp] theorem beginSession_sstate (d : Dir) (m : BitVec 2) (a : Bool) (s : State) : (beginSession d m a s).sstate = .coding := rfl
@[simp] theorem beginSession_dir (d : Dir) (m : BitVec 2) (a : Bool) (s : State) : (beginSession d m a s).dir = d := rfl
@[simp] theorem beginSession_pmode (d : Dir) (m : BitVec 2) (a : Bool) (s : State) : (beginSession d m a s).pmode = m := rfl
@[simp] theorem beginSession_apmEn (d : Dir) (m : BitVec 2) (a : Bool) (s : State) : (beginSession d m a s).apmEn = a := rfl
@[simp] theorem beginSession_faultcode (d : Dir) (m : BitVec 2) (a : Bool) (s : State) : (beginSession d m a s).faultcode = 0#8 := rfl
@[simp] theorem beginSession_low (d : Dir) (m : BitVec 2) (a : Bool) (s : State) : (beginSession d m a s).low = 0x00000000#32 := rfl
@[simp] theorem beginSession_high (d : Dir) (m : BitVec 2) (a : Bool) (s : State) : (beginSession d m a s).high = 0xFFFFFFFF#32 := rfl
@[simp] theorem beginSession_code (d : Dir) (m : BitVec 2) (a : Bool) (s : State) : (beginSession d m a s).code = 0x00000000#32 := rfl
@[simp] theorem beginSession_c0 (d : Dir) (m : BitVec 2) (a : Bool) (s : State) : (beginSession d m a s).c0 = 1#8 := rfl
@[simp] theorem beginSession_c4 (d : Dir) (m : BitVec 2) (a : Bool) (s : State) : (beginSession d m a s).c4 = 0x00000000#32 := rfl
@[simp] theorem beginSession_bitcount (d : Dir) (m : BitVec 2) (a : Bool) (s : State) : (beginSession d m a s).bitcount = 0#64 := rfl
@[simp] theorem beginSession_bytesIn (d : Dir) (m : BitVec 2) (a : Bool) (s : State) : (beginSession d m a s).bytesIn = 0#32 := rfl
@[simp] theorem beginSession_bytesOut (d : Dir) (m : BitVec 2) (a : Bool) (s : State) : (beginSession d m a s).bytesOut = 0#32 := rfl
@[simp] theorem beginSession_mem (d : Dir) (m : BitVec 2) (a : Bool) (s : State) : (beginSession d m a s).mem = Memory.initial := rfl
@[simp] theorem beginSession_cmdq (d : Dir) (m : BitVec 2) (a : Bool) (s : State) : (beginSession d m a s).cmdq = s.cmdq := rfl
@[simp] theorem beginSession_respq (d : Dir) (m : BitVec 2) (a : Bool) (s : State) : (beginSession d m a s).respq = s.respq := rfl
@[simp] theorem beginSession_inq (d : Dir) (m : BitVec 2) (a : Bool) (s : State) : (beginSession d m a s).inq = s.inq := rfl
@[simp] theorem beginSession_outq (d : Dir) (m : BitVec 2) (a : Bool) (s : State) : (beginSession d m a s).outq = s.outq := rfl
@[simp] theorem beginSession_cip (d : Dir) (m : BitVec 2) (a : Bool) (s : State) : (beginSession d m a s).cip = s.cip := rfl
@[simp] theorem beginSession_depths (d : Dir) (m : BitVec 2) (a : Bool) (s : State) : (beginSession d m a s).depths = s.depths := rfl
@[simp] theorem beginSession_draws (d : Dir) (m : BitVec 2) (a : Bool) (s : State) : (beginSession d m a s).draws = s.draws := rfl

/-! ### answered -/

@[simp] theorem answered_sstate (w : Word) (st : BitVec 8) (data : Word) (s : State) : (answered w st data s).sstate = s.sstate := rfl
@[simp] theorem answered_dir (w : Word) (st : BitVec 8) (data : Word) (s : State) : (answered w st data s).dir = s.dir := rfl
@[simp] theorem answered_pmode (w : Word) (st : BitVec 8) (data : Word) (s : State) : (answered w st data s).pmode = s.pmode := rfl
@[simp] theorem answered_apmEn (w : Word) (st : BitVec 8) (data : Word) (s : State) : (answered w st data s).apmEn = s.apmEn := rfl
@[simp] theorem answered_faultcode (w : Word) (st : BitVec 8) (data : Word) (s : State) : (answered w st data s).faultcode = s.faultcode := rfl
@[simp] theorem answered_low (w : Word) (st : BitVec 8) (data : Word) (s : State) : (answered w st data s).low = s.low := rfl
@[simp] theorem answered_high (w : Word) (st : BitVec 8) (data : Word) (s : State) : (answered w st data s).high = s.high := rfl
@[simp] theorem answered_code (w : Word) (st : BitVec 8) (data : Word) (s : State) : (answered w st data s).code = s.code := rfl
@[simp] theorem answered_c0 (w : Word) (st : BitVec 8) (data : Word) (s : State) : (answered w st data s).c0 = s.c0 := rfl
@[simp] theorem answered_c4 (w : Word) (st : BitVec 8) (data : Word) (s : State) : (answered w st data s).c4 = s.c4 := rfl
@[simp] theorem answered_bitcount (w : Word) (st : BitVec 8) (data : Word) (s : State) : (answered w st data s).bitcount = s.bitcount := rfl
@[simp] theorem answered_bytesIn (w : Word) (st : BitVec 8) (data : Word) (s : State) : (answered w st data s).bytesIn = s.bytesIn := rfl
@[simp] theorem answered_bytesOut (w : Word) (st : BitVec 8) (data : Word) (s : State) : (answered w st data s).bytesOut = s.bytesOut := rfl
@[simp] theorem answered_mem (w : Word) (st : BitVec 8) (data : Word) (s : State) : (answered w st data s).mem = s.mem := rfl
@[simp] theorem answered_cmdq (w : Word) (st : BitVec 8) (data : Word) (s : State) : (answered w st data s).cmdq = s.cmdq := rfl
@[simp] theorem answered_respq (w : Word) (st : BitVec 8) (data : Word) (s : State) : (answered w st data s).respq = s.respq ++ [responseWord w st data] := rfl
@[simp] theorem answered_inq (w : Word) (st : BitVec 8) (data : Word) (s : State) : (answered w st data s).inq = s.inq := rfl
@[simp] theorem answered_outq (w : Word) (st : BitVec 8) (data : Word) (s : State) : (answered w st data s).outq = s.outq := rfl
@[simp] theorem answered_cip (w : Word) (st : BitVec 8) (data : Word) (s : State) : (answered w st data s).cip = none := rfl
@[simp] theorem answered_depths (w : Word) (st : BitVec 8) (data : Word) (s : State) : (answered w st data s).depths = s.depths := rfl
@[simp] theorem answered_draws (w : Word) (st : BitVec 8) (data : Word) (s : State) : (answered w st data s).draws = s.draws := rfl

/-! ### placeWord -/

@[simp] theorem placeWord_sstate (w : Word) (s : State) : (placeWord w s).sstate = s.sstate := rfl
@[simp] theorem placeWord_dir (w : Word) (s : State) : (placeWord w s).dir = s.dir := rfl
@[simp] theorem placeWord_pmode (w : Word) (s : State) : (placeWord w s).pmode = s.pmode := rfl
@[simp] theorem placeWord_apmEn (w : Word) (s : State) : (placeWord w s).apmEn = s.apmEn := rfl
@[simp] theorem placeWord_faultcode (w : Word) (s : State) : (placeWord w s).faultcode = s.faultcode := rfl
@[simp] theorem placeWord_low (w : Word) (s : State) : (placeWord w s).low = s.low := rfl
@[simp] theorem placeWord_high (w : Word) (s : State) : (placeWord w s).high = s.high := rfl
@[simp] theorem placeWord_code (w : Word) (s : State) : (placeWord w s).code = s.code := rfl
@[simp] theorem placeWord_c0 (w : Word) (s : State) : (placeWord w s).c0 = s.c0 := rfl
@[simp] theorem placeWord_c4 (w : Word) (s : State) : (placeWord w s).c4 = s.c4 := rfl
@[simp] theorem placeWord_bitcount (w : Word) (s : State) : (placeWord w s).bitcount = s.bitcount := rfl
@[simp] theorem placeWord_bytesIn (w : Word) (s : State) : (placeWord w s).bytesIn = s.bytesIn := rfl
@[simp] theorem placeWord_bytesOut (w : Word) (s : State) : (placeWord w s).bytesOut = s.bytesOut := rfl
@[simp] theorem placeWord_mem (w : Word) (s : State) : (placeWord w s).mem = s.mem := rfl
@[simp] theorem placeWord_cmdq (w : Word) (s : State) : (placeWord w s).cmdq = w :: s.cmdq.tail := rfl
@[simp] theorem placeWord_respq (w : Word) (s : State) : (placeWord w s).respq = s.respq := rfl
@[simp] theorem placeWord_inq (w : Word) (s : State) : (placeWord w s).inq = s.inq := rfl
@[simp] theorem placeWord_outq (w : Word) (s : State) : (placeWord w s).outq = s.outq := rfl
@[simp] theorem placeWord_cip (w : Word) (s : State) : (placeWord w s).cip = none := rfl
@[simp] theorem placeWord_depths (w : Word) (s : State) : (placeWord w s).depths = s.depths := rfl
@[simp] theorem placeWord_draws (w : Word) (s : State) : (placeWord w s).draws = s.draws := rfl

/-! ### narrow -/

@[simp] theorem narrow_sstate (y : Bool) (p : Nat) (s : State) : (narrow y p s).sstate = s.sstate := by
  unfold narrow; split <;> rfl
@[simp] theorem narrow_dir (y : Bool) (p : Nat) (s : State) : (narrow y p s).dir = s.dir := by
  unfold narrow; split <;> rfl
@[simp] theorem narrow_pmode (y : Bool) (p : Nat) (s : State) : (narrow y p s).pmode = s.pmode := by
  unfold narrow; split <;> rfl
@[simp] theorem narrow_apmEn (y : Bool) (p : Nat) (s : State) : (narrow y p s).apmEn = s.apmEn := by
  unfold narrow; split <;> rfl
@[simp] theorem narrow_faultcode (y : Bool) (p : Nat) (s : State) : (narrow y p s).faultcode = s.faultcode := by
  unfold narrow; split <;> rfl
@[simp] theorem narrow_low (y : Bool) (p : Nat) (s : State) : (narrow y p s).low = if y then s.low else xmid s.low s.high p + 1#32 := by
  cases y <;> rfl
@[simp] theorem narrow_high (y : Bool) (p : Nat) (s : State) : (narrow y p s).high = if y then xmid s.low s.high p else s.high := by
  cases y <;> rfl
@[simp] theorem narrow_code (y : Bool) (p : Nat) (s : State) : (narrow y p s).code = s.code := by
  unfold narrow; split <;> rfl
@[simp] theorem narrow_c0 (y : Bool) (p : Nat) (s : State) : (narrow y p s).c0 = s.c0 := by
  unfold narrow; split <;> rfl
@[simp] theorem narrow_c4 (y : Bool) (p : Nat) (s : State) : (narrow y p s).c4 = s.c4 := by
  unfold narrow; split <;> rfl
@[simp] theorem narrow_bitcount (y : Bool) (p : Nat) (s : State) : (narrow y p s).bitcount = s.bitcount := by
  unfold narrow; split <;> rfl
@[simp] theorem narrow_bytesIn (y : Bool) (p : Nat) (s : State) : (narrow y p s).bytesIn = s.bytesIn := by
  unfold narrow; split <;> rfl
@[simp] theorem narrow_bytesOut (y : Bool) (p : Nat) (s : State) : (narrow y p s).bytesOut = s.bytesOut := by
  unfold narrow; split <;> rfl
@[simp] theorem narrow_mem (y : Bool) (p : Nat) (s : State) : (narrow y p s).mem = s.mem := by
  unfold narrow; split <;> rfl
@[simp] theorem narrow_cmdq (y : Bool) (p : Nat) (s : State) : (narrow y p s).cmdq = s.cmdq := by
  unfold narrow; split <;> rfl
@[simp] theorem narrow_respq (y : Bool) (p : Nat) (s : State) : (narrow y p s).respq = s.respq := by
  unfold narrow; split <;> rfl
@[simp] theorem narrow_inq (y : Bool) (p : Nat) (s : State) : (narrow y p s).inq = s.inq := by
  unfold narrow; split <;> rfl
@[simp] theorem narrow_outq (y : Bool) (p : Nat) (s : State) : (narrow y p s).outq = s.outq := by
  unfold narrow; split <;> rfl
@[simp] theorem narrow_cip (y : Bool) (p : Nat) (s : State) : (narrow y p s).cip = s.cip := by
  unfold narrow; split <;> rfl
@[simp] theorem narrow_depths (y : Bool) (p : Nat) (s : State) : (narrow y p s).depths = s.depths := by
  unfold narrow; split <;> rfl
@[simp] theorem narrow_draws (y : Bool) (p : Nat) (s : State) : (narrow y p s).draws = s.draws := by
  unfold narrow; split <;> rfl

/-! ### ctxUpdate -/

@[simp] theorem ctxUpdate_sstate (y : Bool) (s : State) : (ctxUpdate y s).sstate = s.sstate := by
  unfold ctxUpdate; dsimp only; split <;> rfl
@[simp] theorem ctxUpdate_dir (y : Bool) (s : State) : (ctxUpdate y s).dir = s.dir := by
  unfold ctxUpdate; dsimp only; split <;> rfl
@[simp] theorem ctxUpdate_pmode (y : Bool) (s : State) : (ctxUpdate y s).pmode = s.pmode := by
  unfold ctxUpdate; dsimp only; split <;> rfl
@[simp] theorem ctxUpdate_apmEn (y : Bool) (s : State) : (ctxUpdate y s).apmEn = s.apmEn := by
  unfold ctxUpdate; dsimp only; split <;> rfl
@[simp] theorem ctxUpdate_faultcode (y : Bool) (s : State) : (ctxUpdate y s).faultcode = s.faultcode := by
  unfold ctxUpdate; dsimp only; split <;> rfl
@[simp] theorem ctxUpdate_low (y : Bool) (s : State) : (ctxUpdate y s).low = s.low := by
  unfold ctxUpdate; dsimp only; split <;> rfl
@[simp] theorem ctxUpdate_high (y : Bool) (s : State) : (ctxUpdate y s).high = s.high := by
  unfold ctxUpdate; dsimp only; split <;> rfl
@[simp] theorem ctxUpdate_code (y : Bool) (s : State) : (ctxUpdate y s).code = s.code := by
  unfold ctxUpdate; dsimp only; split <;> rfl
@[simp] theorem ctxUpdate_bitcount (y : Bool) (s : State) : (ctxUpdate y s).bitcount = s.bitcount := by
  unfold ctxUpdate; dsimp only; split <;> rfl
@[simp] theorem ctxUpdate_bytesIn (y : Bool) (s : State) : (ctxUpdate y s).bytesIn = s.bytesIn := by
  unfold ctxUpdate; dsimp only; split <;> rfl
@[simp] theorem ctxUpdate_bytesOut (y : Bool) (s : State) : (ctxUpdate y s).bytesOut = s.bytesOut := by
  unfold ctxUpdate; dsimp only; split <;> rfl
@[simp] theorem ctxUpdate_mem (y : Bool) (s : State) : (ctxUpdate y s).mem = s.mem := by
  unfold ctxUpdate; dsimp only; split <;> rfl
@[simp] theorem ctxUpdate_cmdq (y : Bool) (s : State) : (ctxUpdate y s).cmdq = s.cmdq := by
  unfold ctxUpdate; dsimp only; split <;> rfl
@[simp] theorem ctxUpdate_respq (y : Bool) (s : State) : (ctxUpdate y s).respq = s.respq := by
  unfold ctxUpdate; dsimp only; split <;> rfl
@[simp] theorem ctxUpdate_inq (y : Bool) (s : State) : (ctxUpdate y s).inq = s.inq := by
  unfold ctxUpdate; dsimp only; split <;> rfl
@[simp] theorem ctxUpdate_outq (y : Bool) (s : State) : (ctxUpdate y s).outq = s.outq := by
  unfold ctxUpdate; dsimp only; split <;> rfl
@[simp] theorem ctxUpdate_cip (y : Bool) (s : State) : (ctxUpdate y s).cip = s.cip := by
  unfold ctxUpdate; dsimp only; split <;> rfl
@[simp] theorem ctxUpdate_depths (y : Bool) (s : State) : (ctxUpdate y s).depths = s.depths := by
  unfold ctxUpdate; dsimp only; split <;> rfl
@[simp] theorem ctxUpdate_draws (y : Bool) (s : State) : (ctxUpdate y s).draws = s.draws := by
  unfold ctxUpdate; dsimp only; split <;> rfl

/-! ### faultEntry -/

@[simp] theorem faultEntry_sstate (f : FaultCode) (s : State) : (faultEntry f s).sstate = .fault := by
  unfold faultEntry; split <;> simp_all
@[simp] theorem faultEntry_dir (f : FaultCode) (s : State) : (faultEntry f s).dir = s.dir := by
  unfold faultEntry; split <;> rfl
@[simp] theorem faultEntry_pmode (f : FaultCode) (s : State) : (faultEntry f s).pmode = s.pmode := by
  unfold faultEntry; split <;> rfl
@[simp] theorem faultEntry_apmEn (f : FaultCode) (s : State) : (faultEntry f s).apmEn = s.apmEn := by
  unfold faultEntry; split <;> rfl
@[simp] theorem faultEntry_faultcode (f : FaultCode) (s : State) : (faultEntry f s).faultcode = if s.sstate = .fault then s.faultcode else f.value := by
  unfold faultEntry; split <;> rfl
@[simp] theorem faultEntry_bitcount (f : FaultCode) (s : State) : (faultEntry f s).bitcount = s.bitcount := by
  unfold faultEntry; split <;> rfl
@[simp] theorem faultEntry_bytesIn (f : FaultCode) (s : State) : (faultEntry f s).bytesIn = s.bytesIn := by
  unfold faultEntry; split <;> rfl
@[simp] theorem faultEntry_bytesOut (f : FaultCode) (s : State) : (faultEntry f s).bytesOut = s.bytesOut := by
  unfold faultEntry; split <;> rfl
@[simp] theorem faultEntry_cmdq (f : FaultCode) (s : State) : (faultEntry f s).cmdq = s.cmdq := by
  unfold faultEntry; split <;> rfl
@[simp] theorem faultEntry_respq (f : FaultCode) (s : State) : (faultEntry f s).respq = s.respq := by
  unfold faultEntry; split <;> rfl
@[simp] theorem faultEntry_inq (f : FaultCode) (s : State) : (faultEntry f s).inq = s.inq := by
  unfold faultEntry; split <;> rfl
@[simp] theorem faultEntry_outq (f : FaultCode) (s : State) : (faultEntry f s).outq = s.outq := by
  unfold faultEntry; split <;> rfl
@[simp] theorem faultEntry_cip (f : FaultCode) (s : State) : (faultEntry f s).cip = s.cip := by
  unfold faultEntry; split <;> rfl
@[simp] theorem faultEntry_depths (f : FaultCode) (s : State) : (faultEntry f s).depths = s.depths := by
  unfold faultEntry; split <;> rfl

/-! ### respond -/

@[simp] theorem respond_sstate (w : Word) (st : BitVec 8) (data : Word) (s : State) : (respond w st data s).sstate = s.sstate := by
  unfold respond; split <;> rfl
@[simp] theorem respond_dir (w : Word) (st : BitVec 8) (data : Word) (s : State) : (respond w st data s).dir = s.dir := by
  unfold respond; split <;> rfl
@[simp] theorem respond_pmode (w : Word) (st : BitVec 8) (data : Word) (s : State) : (respond w st data s).pmode = s.pmode := by
  unfold respond; split <;> rfl
@[simp] theorem respond_apmEn (w : Word) (st : BitVec 8) (data : Word) (s : State) : (respond w st data s).apmEn = s.apmEn := by
  unfold respond; split <;> rfl
@[simp] theorem respond_faultcode (w : Word) (st : BitVec 8) (data : Word) (s : State) : (respond w st data s).faultcode = s.faultcode := by
  unfold respond; split <;> rfl
@[simp] theorem respond_low (w : Word) (st : BitVec 8) (data : Word) (s : State) : (respond w st data s).low = s.low := by
  unfold respond; split <;> rfl
@[simp] theorem respond_high (w : Word) (st : BitVec 8) (data : Word) (s : State) : (respond w st data s).high = s.high := by
  unfold respond; split <;> rfl
@[simp] theorem respond_code (w : Word) (st : BitVec 8) (data : Word) (s : State) : (respond w st data s).code = s.code := by
  unfold respond; split <;> rfl
@[simp] theorem respond_c0 (w : Word) (st : BitVec 8) (data : Word) (s : State) : (respond w st data s).c0 = s.c0 := by
  unfold respond; split <;> rfl
@[simp] theorem respond_c4 (w : Word) (st : BitVec 8) (data : Word) (s : State) : (respond w st data s).c4 = s.c4 := by
  unfold respond; split <;> rfl
@[simp] theorem respond_bitcount (w : Word) (st : BitVec 8) (data : Word) (s : State) : (respond w st data s).bitcount = s.bitcount := by
  unfold respond; split <;> rfl
@[simp] theorem respond_bytesIn (w : Word) (st : BitVec 8) (data : Word) (s : State) : (respond w st data s).bytesIn = s.bytesIn := by
  unfold respond; split <;> rfl
@[simp] theorem respond_bytesOut (w : Word) (st : BitVec 8) (data : Word) (s : State) : (respond w st data s).bytesOut = s.bytesOut := by
  unfold respond; split <;> rfl
@[simp] theorem respond_mem (w : Word) (st : BitVec 8) (data : Word) (s : State) : (respond w st data s).mem = s.mem := by
  unfold respond; split <;> rfl
@[simp] theorem respond_cmdq (w : Word) (st : BitVec 8) (data : Word) (s : State) : (respond w st data s).cmdq = s.cmdq := by
  unfold respond; split <;> rfl
@[simp] theorem respond_inq (w : Word) (st : BitVec 8) (data : Word) (s : State) : (respond w st data s).inq = s.inq := by
  unfold respond; split <;> rfl
@[simp] theorem respond_outq (w : Word) (st : BitVec 8) (data : Word) (s : State) : (respond w st data s).outq = s.outq := by
  unfold respond; split <;> rfl
@[simp] theorem respond_depths (w : Word) (st : BitVec 8) (data : Word) (s : State) : (respond w st data s).depths = s.depths := by
  unfold respond; split <;> rfl
@[simp] theorem respond_draws (w : Word) (st : BitVec 8) (data : Word) (s : State) : (respond w st data s).draws = s.draws := by
  unfold respond; split <;> rfl

end Sys2Proof.Machine
end

