-- ==== Sys2Proof/Laws/Ops.lean ====
section
/-! SUPPORT. What each shared operation can do, said once: the streams, fault entry, the response, `execute`, `step`. -/

namespace Sys2Proof.Machine

/-- `OutPush` either holds on a full OUTQ or appends the byte and counts it (20_memory.md R41). -/
theorem outPush_cases (b : Byte) (s : State) :
    (s.depths.out ≤ s.outq.length ∧ outPush b s = none) ∨
    (s.outq.length < s.depths.out ∧
      outPush b s = some { s with outq := s.outq ++ [b], bytesOut := s.bytesOut + 1#32 }) := by
  unfold outPush
  split
  · exact .inr ⟨‹_›, rfl⟩
  · exact .inl ⟨by omega, rfl⟩

theorem outPush_eq_some {b : Byte} {s t : State} (h : outPush b s = some t) :
    s.outq.length < s.depths.out ∧ t = { s with outq := s.outq ++ [b], bytesOut := s.bytesOut + 1#32 } := by
  rcases outPush_cases b s with ⟨-, h'⟩ | ⟨hl, h'⟩
  · simp [h'] at h
  · exact ⟨hl, by simpa [h'] using h.symm⟩

theorem outPush_eq_none {b : Byte} {s : State} (h : outPush b s = none) : s.depths.out ≤ s.outq.length := by
  rcases outPush_cases b s with ⟨hl, -⟩ | ⟨-, h'⟩
  · exact hl
  · simp [h'] at h

/-- `InPop` holds on an empty INQ, or removes a byte and counts it, or removes `End` (20_memory.md R42). -/
theorem inPop_cases (s : State) :
    (s.inq = [] ∧ inPop s = .empty) ∨
    (∃ b rest, s.inq = .byte b :: rest ∧
      inPop s = .item (.byte b) { s with inq := rest, bytesIn := s.bytesIn + 1#32 }) ∨
    (∃ rest, s.inq = .endMark :: rest ∧ inPop s = .item .endMark { s with inq := rest }) := by
  unfold inPop
  rcases h : s.inq with _ | ⟨_ | _, rest⟩
  · exact .inl ⟨rfl, rfl⟩
  · exact .inr (.inl ⟨_, _, rfl, rfl⟩)
  · exact .inr (.inr ⟨_, rfl, rfl⟩)

theorem inPop_empty {s : State} (h : inPop s = .empty) : s.inq = [] := by
  rcases inPop_cases s with ⟨h', -⟩ | ⟨_, _, -, h'⟩ | ⟨_, -, h'⟩
  · exact h'
  · simp [h'] at h
  · simp [h'] at h

theorem inPop_byte {s t : State} {b : Byte} (h : inPop s = .item (.byte b) t) :
    ∃ rest, s.inq = .byte b :: rest ∧ t = { s with inq := rest, bytesIn := s.bytesIn + 1#32 } := by
  rcases inPop_cases s with ⟨-, h'⟩ | ⟨c, rest, hq, h'⟩ | ⟨_, -, h'⟩
  · simp [h'] at h
  · rw [h'] at h
    injection h with h1 h2
    injection h1 with h1
    subst h1
    exact ⟨rest, hq, h2.symm⟩
  · simp [h'] at h

theorem inPop_endMark {s t : State} (h : inPop s = .item .endMark t) :
    ∃ rest, s.inq = .endMark :: rest ∧ t = { s with inq := rest } := by
  rcases inPop_cases s with ⟨-, h'⟩ | ⟨c, rest, hq, h'⟩ | ⟨rest, hq, h'⟩
  · simp [h'] at h
  · simp [h'] at h
  · rw [h'] at h
    injection h with _ h2
    exact ⟨rest, hq, h2.symm⟩

/-- `respond` completes the command with one response, or holds at the response push (30_encoding.md R66). -/
theorem respond_cases (w : Word) (st : BitVec 8) (data : Word) (s : State) :
    (RespRoom 1 s ∧ respond w st data s = answered w st data s) ∨
    (s.depths.resp ≤ s.respq.length ∧
      respond w st data s = { s with cip := some { word := w, pos := .respond st data } }) := by
  unfold respond
  split
  · exact .inl ⟨‹_›, rfl⟩
  · exact .inr ⟨by omega, rfl⟩

theorem respond_of_room {w : Word} {st : BitVec 8} {data : Word} {s : State} (h : RespRoom 1 s) :
    respond w st data s = answered w st data s := by
  rcases respond_cases w st data s with ⟨-, h'⟩ | ⟨hf, -⟩
  · exact h'
  · unfold RespRoom at h; omega

/-- In FAULT state fault entry changes nothing (60_exceptions.md R199). -/
@[simp] theorem faultEntry_of_fault {f : FaultCode} {s : State} (h : s.sstate = .fault) : faultEntry f s = s := by
  simp [faultEntry, h]

/-- Outside FAULT state fault entry records the code and frees what FAULT leaves unspecified (R195, R196). -/
theorem faultEntry_of_ne {f : FaultCode} {s : State} (h : s.sstate ≠ .fault) :
    faultEntry f s = { unspecify s with faultcode := f.value, sstate := .fault } := by
  simp [faultEntry, h]

/-- `Execute` is a refusal, a check fault, or the command's pseudocode settled (43_commands.md R150). -/
theorem execute_cases (i : Instr) (sem : State → Result) (s : State) :
    (check i s = .refused ∧ execute i sem s = refuse (encode i) s) ∨
    (∃ f, check i s = .fault f ∧ execute i sem s = checkFault (encode i) f s) ∨
    (check i s = .ok ∧ execute i sem s = settle (encode i) (sem s)) := by
  unfold execute
  cases h : check i s
  · exact .inr (.inr ⟨rfl, rfl⟩)
  · exact .inl ⟨rfl, rfl⟩
  · exact .inr (.inl ⟨_, rfl, rfl⟩)

theorem execute_of_ok {i : Instr} {sem : State → Result} {s : State} (h : check i s = .ok) :
    execute i sem s = settle (encode i) (sem s) := by simp [execute, h]

/-- The pseudocode of each command (43_commands.md R150, `Sem`). -/
def semOf : Instr → State → Result
  | .nop => nopSem
  | .init d m a => initSem d m a
  | .encBit b => encBitSem b
  | .encByte v => encByteFrom v 8
  | .decBit => decBitSem
  | .decByte => decByteFrom 8 0#8
  | .encRaw b p => encRawSem b p
  | .decRaw p => decRawSem p
  | .flush => flushSem
  | .getp => getpSem
  | .rdreg r => rdregSem r

/-- Every command answers a next state: the checks, then its pseudocode. -/
theorem exec_eq (i : Instr) (s : State) : exec i s = .next (execute i (semOf i) s) := by cases i <;> rfl

/-- What a step can be: going on with a held command, idling, executing a command, or turning away a word that is none. -/
theorem step_cases (s : State) :
    (∃ c, s.cip = some c ∧ step s = .next (resume c s)) ∨
    (s.cip = none ∧ s.cmdq = [] ∧ step s = .next s) ∨
    (∃ w rest i, s.cip = none ∧ s.cmdq = w :: rest ∧ decode w = .ok i ∧ step s = exec i { s with cmdq := rest }) ∨
    (∃ w rest e, s.cip = none ∧ s.cmdq = w :: rest ∧ decode w = .error e ∧
      step s = .next (executeIllegal w e { s with cmdq := rest })) := by
  unfold step fetch
  cases hc : s.cip with
  | some c => exact .inl ⟨c, rfl, rfl⟩
  | none =>
    cases hq : s.cmdq with
    | nil => exact .inr (.inl ⟨rfl, rfl, rfl⟩)
    | cons w rest =>
      cases hd : decode w with
      | ok i => exact .inr (.inr (.inl ⟨w, rest, i, rfl, rfl, hd, by simp [hd]⟩))
      | error e => exact .inr (.inr (.inr ⟨w, rest, e, rfl, rfl, hd, by simp [hd]⟩))

end Sys2Proof.Machine
end

