-- ==== Sys2Proof/Laws/Coder.lean ====
section
/-! SUPPORT. The range coder on numbers, and what renormalisation can do (40_range_coder.md R84). -/

namespace Sys2Proof.Machine

/-! ## The bounds as numbers -/

theorem topSettled_iff (s : State) : topSettled s ↔ s.low.toNat / 16777216 = s.high.toNat / 16777216 := by
  unfold topSettled
  rw [← BitVec.toNat_inj, BitVec.extractLsb'_toNat, BitVec.extractLsb'_toNat, Nat.shiftRight_eq_div_pow,
    Nat.shiftRight_eq_div_pow]
  have h1 := s.low.isLt
  have h2 := s.high.isLt
  omega

theorem toNat_shiftLow (x : Word) : (x <<< 8).toNat = x.toNat * 256 % 4294967296 := by
  rw [BitVec.toNat_shiftLeft, Nat.shiftLeft_eq]

theorem toNat_shiftIn (x : Word) (b : Byte) :
    ((x <<< 8) ||| b.setWidth 32).toNat = x.toNat * 256 % 4294967296 + b.toNat := by
  have hb := b.isLt
  rw [BitVec.toNat_or, toNat_shiftLow, BitVec.toNat_setWidth, Nat.mod_eq_of_lt (a := b.toNat) (by omega)]
  have hx : x.toNat * 256 % 4294967296 = 2 ^ 8 * (x.toNat % 16777216) := by omega
  rw [hx, ← Nat.two_pow_add_eq_or_of_lt hb]

theorem toNat_shiftHigh (x : Word) : ((x <<< 8) ||| 0xFF#32).toNat = x.toNat * 256 % 4294967296 + 255 :=
  toNat_shiftIn x 0xFF#8

theorem toNat_truncate (x : Word) : (x ||| 0xFFFF#32).toNat = x.toNat / 65536 * 65536 + 65535 := by
  have hx : x.toNat = 2 ^ 16 * (x.toNat / 65536) + x.toNat % 65536 := by omega
  rw [BitVec.toNat_or]
  show x.toNat ||| 65535 = _
  conv_lhs => rw [hx, Nat.two_pow_add_eq_or_of_lt (by omega : x.toNat % 65536 < 2 ^ 16), Nat.or_assoc]
  have h2 : x.toNat % 65536 ||| 65535 = 65535 := by
    have h3 : x.toNat % 65536 ||| 65535 < 2 ^ 16 := Nat.or_lt_two_pow (by omega) (by omega)
    have h4 : 65535 ≤ x.toNat % 65536 ||| 65535 := Nat.right_le_or
    omega
  rw [h2, ← Nat.two_pow_add_eq_or_of_lt (by omega)]
  omega

/-! ## Renormalisation -/

/-- One round of the loop of `RC_Renorm` that goes on (R84). -/
inductive RenormRound : State → State → Prop where
  /-- The encoder emits the settled byte. -/
  | emit {s t : State} (hs : topSettled s) (hd : s.dir = .encode)
      (hp : outPush (s.low.extractLsb' 24 8) s = some t) : RenormRound s (shiftBounds t)
  /-- The decoder consumes a byte. -/
  | take {s t : State} {b : Byte} (hs : topSettled s) (hd : s.dir = .decode)
      (hp : inPop s = .item (.byte b) t) : RenormRound s (shiftBounds (shiftCode b t))
  /-- The interval is cut to its lower part. -/
  | truncate {s : State} (hs : ¬ topSettled s) (hw : widthBelowFloor s)
      (hc : ¬ (s.dir = .decode ∧ (truncateHigh s).high < s.code)) : RenormRound s (truncateHigh s)

/-- The rounds of one renormalisation so far. -/
inductive RenormRounds : State → State → Prop where
  | refl (s : State) : RenormRounds s s
  | head {s t u : State} (h : RenormRound s t) (hr : RenormRounds t u) : RenormRounds s u

/-- How a renormalisation ends, after some rounds (R84). -/
inductive RenormEnd : Renorm → State → Prop where
  | settled {t : State} (hs : ¬ topSettled t) (hw : ¬ widthBelowFloor t) : RenormEnd (.settled t) t
  | full {t : State} (hs : topSettled t) (hd : t.dir = .encode)
      (hp : outPush (t.low.extractLsb' 24 8) t = none) : RenormEnd (.held t) t
  | empty {t : State} (hs : topSettled t) (hd : t.dir = .decode) (hp : inPop t = .empty) : RenormEnd (.held t) t
  | eof {t u : State} (hs : topSettled t) (hd : t.dir = .decode) (hp : inPop t = .item .endMark u) :
      RenormEnd (.raised .corruptEof u) t
  | range {t : State} (hs : ¬ topSettled t) (hw : widthBelowFloor t) (hd : t.dir = .decode)
      (hc : (truncateHigh t).high < t.code) : RenormEnd (.raised .corruptRange (truncateHigh t)) t

/-- The first round of `renorm`: it ends, or goes on with one round less. -/
theorem renorm_succ (n : Nat) (s : State) :
    RenormEnd (renorm (n + 1) s) s ∨ ∃ t, RenormRound s t ∧ renorm (n + 1) s = renorm n t := by
  simp only [renorm]
  split
  · rename_i hs
    cases hd : s.dir with
    | encode =>
      dsimp only
      cases hp : outPush (s.low.extractLsb' 24 8) s with
      | none => exact .inl (.full hs hd hp)
      | some t => exact .inr ⟨_, .emit hs hd hp, rfl⟩
    | decode =>
      dsimp only
      cases hp : inPop s with
      | empty => exact .inl (.empty hs hd hp)
      | item x t =>
        cases x with
        | endMark => exact .inl (.eof hs hd hp)
        | byte b => exact .inr ⟨_, .take hs hd hp, rfl⟩
  · rename_i hs
    split
    · rename_i hw
      split
      · rename_i hc
        exact .inl (.range hs hw hc.1 hc.2)
      · rename_i hc
        exact .inr ⟨_, .truncate hs hw hc, rfl⟩
    · rename_i hw
      exact .inl (.settled hs hw)

/-! ### The loop always ends within `renormFuel` rounds -/

/-- The interval as `k` bytes shifted in leave it: the low `k` bytes of LOW are 0 and those of HIGH are 0xFF. -/
def ShiftedIn (k : Nat) (s : State) : Prop :=
  s.low.toNat % 256 ^ k = 0 ∧ s.high.toNat % 256 ^ k = 256 ^ k - 1

/-- The interval right after a truncation, or one shift later: all that follows is shifts. -/
def CutTo (k : Nat) (s : State) : Prop :=
  s.low.toNat / 256 ^ k = s.high.toNat / 256 ^ k ∧ s.high.toNat % 256 ^ k = 256 ^ k - 1

/-- The bounds after one round, as numbers. -/
theorem RenormRound.bounds {s t : State} (h : RenormRound s t) :
    (s.low.toNat / 16777216 = s.high.toNat / 16777216 ∧
      t.low.toNat = s.low.toNat * 256 % 4294967296 ∧ t.high.toNat = s.high.toNat * 256 % 4294967296 + 255) ∨
    (s.low.toNat / 16777216 ≠ s.high.toNat / 16777216 ∧ s.high.toNat < s.low.toNat + 65536 ∧
      t.low.toNat = s.low.toNat ∧ t.high.toNat = s.low.toNat / 65536 * 65536 + 65535) := by
  cases h with
  | emit hs hd hp =>
    obtain ⟨-, rfl⟩ := outPush_eq_some hp
    exact .inl ⟨(topSettled_iff s).1 hs, toNat_shiftLow s.low, toNat_shiftHigh s.high⟩
  | take hs hd hp =>
    obtain ⟨rest, -, rfl⟩ := inPop_byte hp
    exact .inl ⟨(topSettled_iff s).1 hs, toNat_shiftLow s.low, toNat_shiftHigh s.high⟩
  | truncate hs hw hc =>
    exact .inr ⟨fun e => hs ((topSettled_iff s).2 e), hw, rfl, toNat_truncate s.low⟩

/-- The loop needs at most `n` rounds from `s`, the one that ends it among them. -/
inductive EndsWithin : Nat → State → Prop where
  | intro {n : Nat} {s : State} (h : ∀ t, RenormRound s t → EndsWithin n t) : EndsWithin (n + 1) s

/-- A loop that ends within its fuel is never cut short. -/
theorem renorm_end_of_endsWithin {n : Nat} {s : State} (h : EndsWithin n s) :
    ∃ t, RenormRounds s t ∧ RenormEnd (renorm n s) t := by
  induction h with
  | @intro n s h ih =>
    rcases renorm_succ n s with he | ⟨t, hr, he⟩
    · exact ⟨s, .refl s, he⟩
    · obtain ⟨u, hu, hend⟩ := ih t hr
      exact ⟨u, .head hr hu, he ▸ hend⟩

theorem EndsWithin.succ {n : Nat} {s : State} (h : EndsWithin n s) : EndsWithin (n + 1) s := by
  induction h with
  | intro _ ih => exact .intro fun t ht => ih t ht

/-- HIGH all ones, `k` zero bytes in LOW: only shifts can follow. -/
theorem endsWithin_ones (k : Nat) (hk : k ≤ 4) (s : State) (hh : s.high.toNat = 4294967295)
    (hl : s.low.toNat % 256 ^ k = 0) : EndsWithin (5 - k) s := by
  obtain ⟨m, hm⟩ : ∃ m, m = 4 - k := ⟨_, rfl⟩
  induction m generalizing k s with
  | zero =>
    have hk4 : k = 4 := by omega
    subst hk4
    refine .intro fun t ht => ?_
    have hlt := s.low.isLt
    rcases ht.bounds with ⟨h1, -, -⟩ | ⟨h1, h2, -, -⟩ <;> omega
  | succ m ih =>
    have h5 : 5 - k = (5 - (k + 1)) + 1 := by omega
    rw [h5]
    refine .intro fun t ht => ?_
    have hlt := s.low.isLt
    rcases ht.bounds with ⟨h1, h2, h3⟩ | ⟨h1, h2, -, -⟩
    · refine ih (k + 1) (by omega) t (by omega) ?_ (by omega)
      interval_cases k <;> omega
    · omega

/-- After a truncation two shifts make HIGH all ones, then at most two more follow (40_range_coder.md R92). -/
theorem endsWithin_cut (s : State) (h : CutTo 2 s) : EndsWithin 5 s := by
  obtain ⟨h1, h2⟩ := h
  have hlt := s.low.isLt
  have hht := s.high.isLt
  refine .intro fun t ht => ?_
  rcases ht.bounds with ⟨-, hl, hh⟩ | ⟨hne, -, -, -⟩
  · have hlt' := t.low.isLt
    have hht' := t.high.isLt
    refine .intro fun u hu => ?_
    rcases hu.bounds with ⟨-, hl', hh'⟩ | ⟨hne, -, -, -⟩
    · exact endsWithin_ones 2 (by omega) u (by omega) (by omega)
    · omega
  · omega

/-- With `k` bytes shifted in, at most `4 - k` shifts come before a truncation. -/
theorem endsWithin_shiftedIn (k : Nat) (hk : k ≤ 4) (s : State) (h : ShiftedIn k s) : EndsWithin (10 - k) s := by
  obtain ⟨m, hm⟩ : ∃ m, m = 4 - k := ⟨_, rfl⟩
  induction m generalizing k s with
  | zero =>
    have hk4 : k = 4 := by omega
    subst hk4
    obtain ⟨h1, h2⟩ := h
    have hlt := s.low.isLt
    have hht := s.high.isLt
    exact (endsWithin_ones 4 (by omega) s (by omega) h1).succ.succ.succ.succ.succ
  | succ m ih =>
    have h5 : 10 - k = (10 - (k + 1)) + 1 := by omega
    rw [h5]
    obtain ⟨h1, h2⟩ := h
    have hlt := s.low.isLt
    have hht := s.high.isLt
    refine .intro fun t ht => ?_
    rcases ht.bounds with ⟨hs, hl, hh⟩ | ⟨-, -, hl, hh⟩
    · refine ih (k + 1) (by omega) t ?_ (by omega)
      unfold ShiftedIn
      interval_cases k <;> omega
    · have hc : EndsWithin 5 t := endsWithin_cut t ⟨by omega, by omega⟩
      have h10 : ∃ j, 10 - (k + 1) = 5 + j := ⟨4 - k, by omega⟩
      obtain ⟨j, hj⟩ := h10
      rw [hj]
      clear * - hc
      induction j with
      | zero => exact hc
      | succ j ih => exact ih.succ

/-- From any state whatever, `renormFuel` rounds are enough (log entry 13): a renormalisation ends settled, at a blocked FIFO, or
with a corruption fault. -/
theorem renorm_cases (s : State) : ∃ t, RenormRounds s t ∧ RenormEnd (renorm renormFuel s) t := by
  refine renorm_end_of_endsWithin ?_
  have h : EndsWithin 10 s := endsWithin_shiftedIn 0 (by omega) s ⟨by omega, by omega⟩
  exact h.succ.succ.succ.succ.succ.succ

/-! ### What renormalisation leaves alone -/

/-- The fields no round touches. -/
structure SameButCoder (s t : State) : Prop where
  sstate : t.sstate = s.sstate
  dir : t.dir = s.dir
  pmode : t.pmode = s.pmode
  apmEn : t.apmEn = s.apmEn
  faultcode : t.faultcode = s.faultcode
  c0 : t.c0 = s.c0
  c4 : t.c4 = s.c4
  bitcount : t.bitcount = s.bitcount
  mem : t.mem = s.mem
  cmdq : t.cmdq = s.cmdq
  respq : t.respq = s.respq
  cip : t.cip = s.cip
  depths : t.depths = s.depths
  draws : t.draws = s.draws

theorem SameButCoder.refl (s : State) : SameButCoder s s := by constructor <;> rfl

theorem SameButCoder.trans {s t u : State} (h : SameButCoder s t) (h' : SameButCoder t u) : SameButCoder s u := by
  cases h; cases h'; constructor <;> simp_all

theorem RenormRound.same {s t : State} (h : RenormRound s t) : SameButCoder s t := by
  cases h with
  | emit hs hd hp => obtain ⟨-, rfl⟩ := outPush_eq_some hp; constructor <;> rfl
  | take hs hd hp => obtain ⟨rest, -, rfl⟩ := inPop_byte hp; constructor <;> rfl
  | truncate hs hw hc => constructor <;> rfl

theorem RenormRounds.same {s t : State} (h : RenormRounds s t) : SameButCoder s t := by
  induction h with
  | refl s => exact .refl s
  | head h _ ih => exact h.same.trans ih

end Sys2Proof.Machine
end

