-- ==== Sys2Proof/Laws/Memory.lean ====
section
/-! SUPPORT. The laws of the tables: a read after a write, and that every write keeps the canonical form. -/

namespace Sys2Proof.Machine

/-! ## One sparse list -/

section Cells

variable {α : Type} {dflt : Nat → α} {cells : List (Nat × α)} {i j size : Nat} {v : α}

/-- Below every listed index a list reads as the default. -/
theorem cellsRead_of_lt (h : ∀ c ∈ cells, i < c.1) : cellsRead dflt cells i = dflt i := by
  induction cells with
  | nil => rfl
  | cons c rest ih =>
    have hc := h c (by simp)
    have hr := ih fun x hx => h x (by simp [hx])
    obtain ⟨k, u⟩ := c
    simp only [cellsRead]
    rw [if_neg (by simp at hc; omega), hr]

theorem cellsRead_cellsInsert : cellsRead dflt (cellsInsert cells i v) j = if j = i then v else cellsRead dflt cells j := by
  induction cells with
  | nil => simp [cellsInsert, cellsRead, eq_comm]
  | cons c rest ih =>
    obtain ⟨k, u⟩ := c
    simp only [cellsInsert]
    split
    · simp only [cellsRead, eq_comm]
    · split
      · subst_vars
        simp only [cellsRead, eq_comm]
        split <;> rfl
      · simp only [cellsRead, ih]
        split <;> split <;> simp_all

theorem cellsRead_cellsErase (h : cells.Pairwise fun x y => x.1 < y.1) :
    cellsRead dflt (cellsErase cells i) j = if j = i then dflt i else cellsRead dflt cells j := by
  induction cells with
  | nil => simp only [cellsErase, cellsRead]; split <;> simp_all
  | cons c rest ih =>
    obtain ⟨k, u⟩ := c
    rw [List.pairwise_cons] at h
    simp only [cellsErase]
    split
    · subst_vars
      by_cases hji : j = k
      · subst hji
        rw [cellsRead_of_lt fun c hc => h.1 c hc, if_pos rfl]
      · simp only [cellsRead]
        rw [if_neg hji, if_neg (fun e => hji e.symm)]
    · simp only [cellsRead, ih h.2]
      split <;> split <;> simp_all

/-- A read after a write (00_scope.md R8): the entry written reads as written, every other entry as before. -/
theorem cellsRead_cellsWrite [DecidableEq α] (h : cells.Pairwise fun x y => x.1 < y.1) :
    cellsRead dflt (cellsWrite dflt cells i v) j = if j = i then v else cellsRead dflt cells j := by
  unfold cellsWrite
  split
  · subst_vars
    exact cellsRead_cellsErase h
  · exact cellsRead_cellsInsert

theorem mem_cellsErase {c : Nat × α} (h : c ∈ cellsErase cells i) : c ∈ cells := by
  induction cells with
  | nil => simp [cellsErase] at h
  | cons d rest ih =>
    obtain ⟨k, u⟩ := d
    simp only [cellsErase] at h
    split at h
    · exact List.mem_cons_of_mem _ h
    · rcases List.mem_cons.1 h with h | h
      · simp [h]
      · exact List.mem_cons_of_mem _ (ih h)

theorem mem_cellsInsert {c : Nat × α} (h : c ∈ cellsInsert cells i v) : c = (i, v) ∨ c ∈ cells := by
  induction cells with
  | nil => simpa [cellsInsert] using h
  | cons d rest ih =>
    obtain ⟨k, u⟩ := d
    simp only [cellsInsert] at h
    split at h
    · simpa using h
    · split at h
      · simp only [List.mem_cons] at h ⊢; tauto
      · simp only [List.mem_cons] at h ⊢
        rcases h with h | h
        · tauto
        · rcases ih h with h | h <;> tauto

theorem pairwise_cellsErase (h : cells.Pairwise fun x y => x.1 < y.1) :
    (cellsErase cells i).Pairwise fun x y => x.1 < y.1 := by
  induction cells with
  | nil => simp [cellsErase]
  | cons d rest ih =>
    obtain ⟨k, u⟩ := d
    rw [List.pairwise_cons] at h
    simp only [cellsErase]
    split
    · exact h.2
    · exact List.pairwise_cons.2 ⟨fun c hc => h.1 c (mem_cellsErase hc), ih h.2⟩

theorem pairwise_cellsInsert (h : cells.Pairwise fun x y => x.1 < y.1) :
    (cellsInsert cells i v).Pairwise fun x y => x.1 < y.1 := by
  induction cells with
  | nil => simp [cellsInsert]
  | cons d rest ih =>
    obtain ⟨k, u⟩ := d
    have hp := h
    rw [List.pairwise_cons] at h
    simp only [cellsInsert]
    split
    · rename_i hik
      refine List.pairwise_cons.2 ⟨fun c hc => ?_, hp⟩
      rcases List.mem_cons.1 hc with rfl | hc
      · exact hik
      · exact lt_trans hik (h.1 c hc)
    · split
      · subst_vars
        exact List.pairwise_cons.2 h
      · rename_i h1 h2
        refine List.pairwise_cons.2 ⟨fun c hc => ?_, ih h.2⟩
        rcases mem_cellsInsert hc with rfl | hc
        · show k < i
          omega
        · exact h.1 c hc

/-- Every write inside the index space keeps the canonical form. -/
theorem cellsWf_cellsWrite [DecidableEq α] (h : cellsWf size dflt cells) (hi : i < size) :
    cellsWf size dflt (cellsWrite dflt cells i v) := by
  unfold cellsWrite
  split
  · exact ⟨pairwise_cellsErase h.1, fun c hc => h.2 c (mem_cellsErase hc)⟩
  · rename_i hv
    refine ⟨pairwise_cellsInsert h.1, fun c hc => ?_⟩
    rcases mem_cellsInsert hc with rfl | hc
    · exact ⟨hi, hv⟩
    · exact h.2 c hc

end Cells

/-! ## The seven tables -/

@[simp] theorem Memory.withCounters_base (m : Memory) (t : TableId) (c : List (Nat × Counter)) :
    (m.withCounters t c).base = m.base := by cases t <;> rfl

@[simp] theorem Memory.withCounters_w (m : Memory) (t : TableId) (c : List (Nat × Counter)) :
    (m.withCounters t c).w = m.w := by cases t <;> rfl

@[simp] theorem Memory.withCounters_a (m : Memory) (t : TableId) (c : List (Nat × Counter)) :
    (m.withCounters t c).a = m.a := by cases t <;> rfl

theorem Memory.counters_withCounters (m : Memory) (t u : TableId) (c : List (Nat × Counter)) :
    (m.withCounters t c).counters u = if u = t then c else m.counters u := by
  cases t <;> cases u <;> rfl

@[simp] theorem Memory.writeCounter_base (m : Memory) (t : TableId) (i : Nat) (v : Counter) :
    (m.writeCounter t i v).base = m.base := by simp [Memory.writeCounter]

@[simp] theorem Memory.writeWeight_base (m : Memory) (s i : Nat) (v : BitVec 20) :
    (m.writeWeight s i v).base = m.base := rfl

@[simp] theorem Memory.writeApm_base (m : Memory) (r j : Nat) (v : BitVec 16) :
    (m.writeApm r j v).base = m.base := rfl

/-- The listed entries of one counter table are in canonical form. -/
theorem Memory.wf_counters {m : Memory} (h : m.wf) (t : TableId) :
    cellsWf (tableSize t) (counterDefault m.base t) (m.counters t) := by
  cases t
  exacts [h.1, h.2.1, h.2.2.1, h.2.2.2.1, h.2.2.2.2.1]

/-- `TRead` after `TWrite` of a counter table (00_scope.md R8). -/
theorem Memory.readCounter_writeCounter {m : Memory} (h : m.wf) (t u : TableId) (i j : Nat) (v : Counter) :
    (m.writeCounter t i v).readCounter u j = if u = t ∧ j = i then v else m.readCounter u j := by
  unfold Memory.readCounter
  rw [Memory.writeCounter_base, Memory.writeCounter, Memory.counters_withCounters]
  by_cases hu : u = t
  · subst hu
    rw [if_pos rfl, cellsRead_cellsWrite (m.wf_counters h u).1]
    simp
  · rw [if_neg hu, if_neg (fun e => hu e.1)]

@[simp] theorem Memory.readWeight_writeCounter (m : Memory) (t : TableId) (i k j : Nat) (v : Counter) :
    (m.writeCounter t i v).readWeight k j = m.readWeight k j := by
  simp [Memory.readWeight, Memory.writeCounter]

@[simp] theorem Memory.readApm_writeCounter (m : Memory) (t : TableId) (i r j : Nat) (v : Counter) :
    (m.writeCounter t i v).readApm r j = m.readApm r j := by
  simp [Memory.readApm, Memory.writeCounter]

@[simp] theorem Memory.readCounter_writeWeight (m : Memory) (t : TableId) (i k j : Nat) (v : BitVec 20) :
    (m.writeWeight k j v).readCounter t i = m.readCounter t i := by cases t <;> rfl

@[simp] theorem Memory.readApm_writeWeight (m : Memory) (k i r j : Nat) (v : BitVec 20) :
    (m.writeWeight k i v).readApm r j = m.readApm r j := rfl

@[simp] theorem Memory.readCounter_writeApm (m : Memory) (t : TableId) (i r j : Nat) (v : BitVec 16) :
    (m.writeApm r j v).readCounter t i = m.readCounter t i := by cases t <;> rfl

@[simp] theorem Memory.readWeight_writeApm (m : Memory) (k i r j : Nat) (v : BitVec 16) :
    (m.writeApm r j v).readWeight k i = m.readWeight k i := rfl

/-- A weight read after a weight write, for weights of the sets' five inputs. -/
theorem Memory.readWeight_writeWeight {m : Memory} (h : m.wf) (k i l j : Nat) (hi : i < 5) (hj : j < 5) (v : BitVec 20) :
    (m.writeWeight k i v).readWeight l j = if l = k ∧ j = i then v else m.readWeight l j := by
  unfold Memory.readWeight
  rw [Memory.writeWeight_base, Memory.writeWeight, cellsRead_cellsWrite h.2.2.2.2.2.1.1]
  have : weightKey l j = weightKey k i ↔ l = k ∧ j = i := by unfold weightKey; omega
  simp only [this]

/-- An APM entry read after an APM write, for the 33 buckets of a row. -/
theorem Memory.readApm_writeApm {m : Memory} (h : m.wf) (r j q l : Nat) (hj : j < 33) (hl : l < 33) (v : BitVec 16) :
    (m.writeApm r j v).readApm q l = if q = r ∧ l = j then v else m.readApm q l := by
  unfold Memory.readApm
  rw [Memory.writeApm_base, Memory.writeApm, cellsRead_cellsWrite h.2.2.2.2.2.2.1]
  have : apmKey q l = apmKey r j ↔ q = r ∧ l = j := by unfold apmKey; omega
  simp only [this]

theorem Memory.wf_writeCounter {m : Memory} (h : m.wf) (t : TableId) (i : Nat) (v : Counter) (hi : i < tableSize t) :
    (m.writeCounter t i v).wf := by
  have hw := cellsWf_cellsWrite (v := v) (m.wf_counters h t) hi
  obtain ⟨h0, h1, h2, h3, h4, h5, h6⟩ := h
  cases t
  · exact ⟨hw, h1, h2, h3, h4, h5, h6⟩
  · exact ⟨h0, hw, h2, h3, h4, h5, h6⟩
  · exact ⟨h0, h1, hw, h3, h4, h5, h6⟩
  · exact ⟨h0, h1, h2, hw, h4, h5, h6⟩
  · exact ⟨h0, h1, h2, h3, hw, h5, h6⟩

theorem Memory.wf_writeWeight {m : Memory} (h : m.wf) (k i : Nat) (v : BitVec 20) (hk : k < 8) (hi : i < 5) :
    (m.writeWeight k i v).wf := by
  obtain ⟨h0, h1, h2, h3, h4, h5, h6⟩ := h
  exact ⟨h0, h1, h2, h3, h4, cellsWf_cellsWrite h5 (by unfold weightKey; omega), h6⟩

theorem Memory.wf_writeApm {m : Memory} (h : m.wf) (r j : Nat) (v : BitVec 16) (hr : r < 256) (hj : j < 33) :
    (m.writeApm r j v).wf := by
  obtain ⟨h0, h1, h2, h3, h4, h5, h6⟩ := h
  exact ⟨h0, h1, h2, h3, h4, h5, cellsWf_cellsWrite h6 (by unfold apmKey; omega)⟩

/-- Tables with nothing listed are in canonical form: those of reset, of fault entry and of INIT. -/
theorem Memory.wf_unspecified (k : Nat) : (Memory.unspecified k).wf := by
  simp [Memory.wf, Memory.unspecified, cellsWf]

theorem Memory.wf_initial : Memory.initial.wf := by
  simp [Memory.wf, Memory.initial, cellsWf]

@[simp] theorem Memory.readCounter_initial (t : TableId) (i : Nat) : Memory.initial.readCounter t i = counterInit := by
  cases t <;> rfl

@[simp] theorem Memory.readWeight_initial (k i : Nat) : Memory.initial.readWeight k i = weightInit := rfl

@[simp] theorem Memory.readApm_initial (r j : Nat) (hj : j < 33) : Memory.initial.readApm r j = apmInit j := by
  simp only [Memory.readApm, Memory.initial, cellsRead, apmDefault, apmKey]
  congr 1
  omega

end Sys2Proof.Machine
end

