-- ==== Sys2Proof/Laws/PerInstr.lean ====
section
/-! SUPPORT. Per-command facts about the encoding: the word of a command is its opcode and operand bits, and it sets no reserved
bit (30_encoding.md R60, R61). -/

namespace Sys2Proof.Laws.EncodingForm

open Sys2Proof

theorem toNat_append {m n : Nat} (x : BitVec m) (y : BitVec n) : (x ++ y).toNat = x.toNat * 2 ^ n + y.toNat := by
  rw [BitVec.toNat_append, Nat.shiftLeft_eq, Nat.mul_comm, Nat.two_pow_add_eq_or_of_lt y.isLt]

/-- A word is its opcode, then 28 operand bits. -/
theorem toNat_encode (i : Instr) : (encode i).toNat = i.opc.toNat * 2 ^ 28 + i.operandBits.toNat :=
  toNat_append i.opc i.operandBits

/-- The operand bits as a number: the fields at their places (R61). -/
def operandNat : Instr → Nat
  | .nop => 0
  | .init d m a => a.toNat * 8 + m.toNat * 2 + d.bit.toNat
  | .encBit b => b.toNat
  | .encByte v => v.toNat
  | .decBit => 0
  | .decByte => 0
  | .encRaw b p => b.toNat * 4096 + p.toNat
  | .decRaw p => p.toNat
  | .flush => 0
  | .getp => 0
  | .rdreg r => r.toNat

theorem toNat_operandBits (i : Instr) : i.operandBits.toNat = operandNat i := by
  cases i <;> simp only [Instr.operandBits, operandNat, toNat_append, BitVec.toNat_ofBool] <;> simp
  omega

/-- The lowest reserved bit of each format (R61). -/
def reservedFrom : Instr → Nat
  | .nop => 0
  | .init _ _ _ => 4
  | .encBit _ => 1
  | .encByte _ => 8
  | .decBit => 0
  | .decByte => 0
  | .encRaw _ _ => 13
  | .decRaw _ => 12
  | .flush => 0
  | .getp => 0
  | .rdreg _ => 8

theorem operandNat_lt (i : Instr) : operandNat i < 2 ^ reservedFrom i := by
  cases i with
  | init d m a =>
    have h1 := m.isLt
    have h2 := d.bit.isLt
    cases a <;> simp only [operandNat, reservedFrom, Bool.toNat_true, Bool.toNat_false] <;> omega
  | encBit b => cases b <;> simp [operandNat, reservedFrom]
  | encByte v => exact v.isLt
  | encRaw b p =>
    have h1 := p.isLt
    cases b <;> simp only [operandNat, reservedFrom, Bool.toNat_true, Bool.toNat_false] <;> omega
  | decRaw p => exact p.isLt
  | rdreg r => exact r.isLt
  | _ => simp [operandNat, reservedFrom]

/-- The opcode of a command's word. -/
theorem opcodeOf_encode (i : Instr) : opcodeOf (encode i) = i.opc := by
  apply BitVec.eq_of_toNat_eq
  unfold opcodeOf
  rw [BitVec.extractLsb'_toNat, toNat_encode, Nat.shiftRight_eq_div_pow]
  have h1 := i.opc.isLt
  have h2 := i.operandBits.isLt
  omega

/-- A word whose bits from `k` to 27 are 0 sets no reserved bit, if its mask covers none below `k`. -/
theorem reservedSet_eq_zero {w : Word} {k : Nat} (hk : ∀ j < k, (maskOf (opcodeOf w)).getLsbD j = false)
    (hw : w.toNat % 2 ^ 28 < 2 ^ k) : reservedSet w = 0#32 := by
  unfold reservedSet
  apply BitVec.eq_of_getLsbD_eq
  intro j hj
  rw [BitVec.getLsbD_and, BitVec.getLsbD_and, BitVec.getLsbD_zero]
  by_cases h1 : j < k
  · simp [hk j h1]
  · by_cases h2 : j < 28
    · have h3 : (w.toNat % 2 ^ 28).testBit j = false :=
        Nat.testBit_lt_two_pow (lt_of_lt_of_le hw (Nat.pow_le_pow_right (by omega) (by omega)))
      rw [Nat.testBit_mod_two_pow] at h3
      have h4 : w.getLsbD j = false := by
        rw [BitVec.getLsbD]
        simpa [h2] using h3
      simp [h4]
    · have h3 : (0x0FFFFFFF#32).getLsbD j = false := by
        have : j = 28 ∨ j = 29 ∨ j = 30 ∨ j = 31 := by omega
        rcases this with rfl | rfl | rfl | rfl <;> rfl
      rw [h3, Bool.and_false]

/-- The encoded word of a command carries its opcode in [31:28] and sets no reserved bit of its format. -/
def Statement (i : Instr) : Prop := opcodeOf (encode i) = i.opc ∧ reservedSet (encode i) = 0#32

theorem of_mask (i : Instr) (hk : ∀ j < reservedFrom i, (maskOf i.opc).getLsbD j = false) : Statement i := by
  refine ⟨opcodeOf_encode i, reservedSet_eq_zero (k := reservedFrom i) (by rwa [opcodeOf_encode]) ?_⟩
  rw [toNat_encode, toNat_operandBits]
  have h1 := operandNat_lt i
  have h2 : 2 ^ reservedFrom i ≤ 2 ^ 28 := Nat.pow_le_pow_right (by omega) (by cases i <;> simp [reservedFrom])
  omega

theorem nop : Statement .nop := of_mask _ (by decide)
theorem init (dir : Dir) (pmode : BitVec 2) (apmEn : Bool) : Statement (.init dir pmode apmEn) :=
  of_mask _ (by decide : ∀ j < 4, (maskOf 0x1#4).getLsbD j = false)
theorem encBit (bit : Bool) : Statement (.encBit bit) := of_mask _ (by decide : ∀ j < 1, (maskOf 0x2#4).getLsbD j = false)
theorem encByte (byte : Byte) : Statement (.encByte byte) :=
  of_mask _ (by decide : ∀ j < 8, (maskOf 0x3#4).getLsbD j = false)
theorem decBit : Statement .decBit := of_mask _ (by decide)
theorem decByte : Statement .decByte := of_mask _ (by decide)
theorem encRaw (bit : Bool) (p : BitVec 12) : Statement (.encRaw bit p) :=
  of_mask _ (by decide : ∀ j < 13, (maskOf 0x6#4).getLsbD j = false)
theorem decRaw (p : BitVec 12) : Statement (.decRaw p) :=
  of_mask _ (by decide : ∀ j < 12, (maskOf 0x7#4).getLsbD j = false)
theorem flush : Statement .flush := of_mask _ (by decide)
theorem getp : Statement .getp := of_mask _ (by decide)
theorem rdreg (reg : BitVec 8) : Statement (.rdreg reg) :=
  of_mask _ (by decide : ∀ j < 8, (maskOf 0xA#4).getLsbD j = false)

end Sys2Proof.Laws.EncodingForm
end

