-- ==== Sys2Proof/Tests/Slice0.lean ====
section
/-! SUPPORT. Tests of single steps against the vectors of 95_test_vectors.md and words written out from 30_encoding.md, and a witness
for the hypotheses of every obligation that has some. -/

namespace Sys2Proof.Tests

open Sys2Proof Sys2Proof.Machine

/-! ## Small states -/

/-- An open encode session, as INIT leaves it (43_commands.md R152). -/
def encSession (m : BitVec 2) (a : Bool) : State :=
  { State.reset with sstate := .coding, pmode := m, apmEn := a, mem := Memory.initial }

/-- An open decode session with the stream window `code` and the items `q` waiting. -/
def decSession (m : BitVec 2) (a : Bool) (code : Word) (q : List InItem) : State :=
  { State.reset with
    sstate := .coding, dir := .decode, pmode := m, apmEn := a, code := code, bytesIn := 4#32, inq := q, mem := Memory.initial }

/-- A core in FAULT state with the given code. -/
def faulted (f : BitVec 8) : State := { State.reset with sstate := .fault, faultcode := f }

/-- The same state of a machine whose FIFOs have these capacities. -/
def withDepths (out resp : Nat) (s : State) : State :=
  { s with depths := { cmd := 1, resp := resp, inp := 8, out := out } }

/-- What a step that answers a next state shows of it. -/
def shown {α : Type} (f : State → α) : Host.Outcome State Fault Refusal → Option α
  | .next s => some (f s)
  | .fault _ => none
  | .refused _ => none

/-- What the step that takes the word `w` shows. -/
def onWord {α : Type} (f : State → α) (w : Word) (s : State) : Option α := shown f (step { s with cmdq := [w] })

/-! ## WellFormed: each check refuses an ill-formed term (30_encoding.md R62) -/

theorem test_wellFormed_pmode_3 : (Instr.init .encode 3#2 false).wellFormed = false := by decide
theorem test_wellFormed_apm_without_mix : (Instr.init .decode 1#2 true).wellFormed = false := by decide
theorem test_wellFormed_encRaw_zero : (Instr.encRaw true 0#12).wellFormed = false := by decide
theorem test_wellFormed_decRaw_zero : (Instr.decRaw 0#12).wellFormed = false := by decide
theorem test_wellFormed_register : (Instr.rdreg 0x0C#8).wellFormed = false := by decide
theorem test_wellFormed_accepts : (Instr.init .encode 2#2 true).wellFormed = true ∧ (Instr.rdreg 0x0B#8).wellFormed = true ∧
    (Instr.encRaw false 4095#12).wellFormed = true := by decide

/-! ## Decoding: words written out from the bit pictures of 30_encoding.md R61 and the map R63 -/

theorem test_decode_nop : decode 0b00000000000000000000000000000000#32 = .ok .nop := by decide
theorem test_decode_init : decode 0b00010000000000000000000000001101#32 = .ok (.init .decode 2#2 true) := by decide
theorem test_decode_init_direct : decode 0b00010000000000000000000000000010#32 = .ok (.init .encode 1#2 false) := by decide
theorem test_decode_encBit : decode 0b00100000000000000000000000000001#32 = .ok (.encBit true) := by decide
theorem test_decode_encByte : decode 0b00110000000000000000000010000001#32 = .ok (.encByte 0x81#8) := by decide
theorem test_decode_decBit : decode 0b01000000000000000000000000000000#32 = .ok .decBit := by decide
theorem test_decode_decByte : decode 0b01010000000000000000000000000000#32 = .ok .decByte := by decide
theorem test_decode_encRaw : decode 0b01100000000000000001100000000001#32 = .ok (.encRaw true 0x801#12) := by decide
theorem test_decode_decRaw : decode 0b01110000000000000000100000000001#32 = .ok (.decRaw 0x801#12) := by decide
theorem test_decode_flush : decode 0b10000000000000000000000000000000#32 = .ok .flush := by decide
theorem test_decode_getp : decode 0b10010000000000000000000000000000#32 = .ok .getp := by decide
theorem test_decode_rdreg : decode 0b10100000000000000000000000001011#32 = .ok (.rdreg 0x0B#8) := by decide
theorem test_decode_illFormed_fields : decode 0x10000006#32 = .ok (.init .encode 3#2 false) ∧
    decode 0x60000000#32 = .ok (.encRaw false 0#12) := by decide
theorem test_decode_rejects_reserved_opcode : decode 0xB0000000#32 = .error (.reservedOpcode 0xB#4) := by decide
theorem test_decode_rejects_reserved_bit : decode 0x10000012#32 = .error (.reservedBits 0x1#4) := by decide
theorem test_decode_rejects_raw_bit_13 : decode 0x60002001#32 = .error (.reservedBits 0x6#4) := by decide
theorem test_decodeTableWord : decodeTableWord 32 0x60001BB8 = some (.encRaw true 3000#12) ∧ decodeTableWord 32 0xF0000000 = none := by
  decide
theorem test_withFetchWord : shown State.respq (step (State.reset.withFetchWord 32 0xA0000000)) = some [0x4152433100000A00#64] := by
  decide

/-! ## The numeric functions (95_test_vectors.md V-SQ, V-ST, V-CTR, V-IDX, V-RC, V-APM) -/

theorem test_squash : [-2048, -1000, -129, -1, 0, 22, 127, 2047, 5000].map squash =
    [1, 82, 1543, 2043, 2047, 2133, 2545, 4094, 4094] := by decide
theorem test_stretch : [0, 1, 2, 100, 2043, 2048, 2094, 2095, 3072, 4094, 4095].map stretch =
    [-2047, -2047, -1984, -951, -1, 1, 12, 13, 285, 1984, 2047] := by decide
theorem test_counter_rate_5 : ctrUpdate { p := 32768#16, n := 29#5 } true = { p := 34816#16, n := 30#5 } := by decide
theorem test_counter_down : ctrUpdate { p := 65535#16, n := 30#5 } false = { p := 63487#16, n := 30#5 } := by decide
theorem test_hash_index : ctxIndex .t3 { State.reset with c0 := 0x85#8, c4 := 0x41424344#32 } = 0x6E37A := by decide
theorem test_order1_index : ctxIndex .t1 { State.reset with c0 := 0x02#8, c4 := 0x00000041#32 } = 0x4102 := by decide
theorem test_split_point : [1, 2048, 3000, 4095].map (xmid 0x00000000#32 0xFFFFFFFF#32) =
    [0x000FFFFF#32, 0x7FFFFFFF#32, 0xBB7FFFFF#32, 0xFFEFFFFF#32] := by decide
theorem test_apm_guard : apmGuard 2051 1250 = 2049 ∧ apmGuard 2047 3125 = 2047 := by decide

/-- What renormalisation leaves of the interval, CODE and the streams. -/
def settledTo (r : Renorm) : Option (Word × Word × Word × List Byte × Nat) :=
  match r with
  | .settled s => some (s.low, s.high, s.code, s.outq, s.inq.length)
  | .held _ => none
  | .raised _ _ => none

/-- The start state of V-RC-4. -/
def straddlingEnc : State := { encSession 0#2 false with low := 0x00FFF000#32, high := 0x01000FFF#32 }

/-- The start state of V-RC-6. -/
def straddlingDec : State :=
  { decSession 0#2 false 0x00FFF800#32 [.byte 0x12#8, .byte 0x34#8] with low := 0x00FFF000#32, high := 0x01000FFF#32 }

/-- V-RC-4. -/
theorem test_truncation_encoder :
    settledTo (renorm renormFuel straddlingEnc) =
      some (0xF0000000#32, 0xFFFFFFFF#32, 0#32, [0x00#8, 0xFF#8], 0) := by decide
/-- V-RC-6. -/
theorem test_truncation_decoder :
    settledTo (renorm renormFuel straddlingDec) =
      some (0xF0000000#32, 0xFFFFFFFF#32, 0xF8001234#32, [], 0) := by decide
/-- V-RC-5. -/
theorem test_truncation_corrupt :
    (match renorm renormFuel { decSession 0#2 false 0x01000000#32 [] with low := 0x00FFF000#32, high := 0x01000FFF#32 } with
      | .raised f s => some (f, s.high)
      | .settled _ => none
      | .held _ => none) = some (.corruptRange, 0x00FFFFFF#32) := by decide

/-! ## One step per command (V-CMD) -/

theorem test_nop_in_fault : onWord (fun t => (t.respq, t.sstate, t.faultcode)) 0x00000000#32 (faulted 1#8) =
    some ([0x0000000000000000#64], .fault, 1#8) := by decide
theorem test_init_decode : onWord (fun t => (t.respq, t.sstate, t.code, t.bytesIn, t.inq)) 0x10000003#32
    { State.reset with inq := [.byte 0xBE#8, .byte 0#8, .byte 0#8, .byte 0#8, .byte 0#8, .endMark] } =
    some ([0x0000000000000100#64], .coding, 0xBE000000#32, 4#32, [.byte 0#8, .endMark]) := by decide
theorem test_init_short_stream : onWord (fun t => (t.respq, t.faultcode, t.pmode, t.bytesIn, t.inq)) 0x10000003#32
    { State.reset with inq := [.byte 1#8, .byte 2#8, .endMark] } =
    some ([0x0000000000000108#64], 8#8, 1#2, 2#32, []) := by decide
theorem test_encBit_direct : onWord (fun t => (t.high, t.c0, t.mem.t1)) 0x20000001#32 (encSession 1#2 false) =
    some (0x7FFFFFFF#32, 3#8, [(1, { p := 49152#16, n := 1#5 })]) := by decide
/-- V-MIX bit 1 and V-APM's first bit. -/
theorem test_encBit_mix_apm : onWord (fun t => (t.mem.w, t.mem.t4, t.mem.a)) 0x20000001#32 (encSession 2#2 true) =
    some ([(0, 16385#20), (1, 16385#20), (2, 16385#20), (3, 16385#20), (4, 16385#20)], [(0x1000, { p := 49152#16, n := 1#5 })],
      [(33 + 16, 33008#16)]) := by decide +kernel
theorem test_encByte : onWord (fun t => (t.respq, t.outq, t.high, t.c4, t.bitcount)) 0x30000041#32
    (encSession 1#2 false) =
    some ([0x0000000000000300#64], [0xBE#8], 0xFFFFFFFF#32, 0x41#32, 8#64) := by decide
/-- V-RUN, `A` with MIX + APM: LOW and HIGH after the byte. -/
theorem test_encByte_mix_apm : onWord (fun t => (t.low, t.high, t.outq)) 0x30000041#32 (encSession 2#2 true) =
    some (0xBE227AE0#32, 0xBF217B1F#32, []) := by decide +kernel
theorem test_decBit : onWord (fun t => (t.respq, t.low, t.high, t.code, t.c0)) 0x40000000#32
    (decSession 1#2 false 0xBE000000#32 [.byte 0#8, .endMark]) =
    some ([0x0000000000000400#64], 0x80000000#32, 0xFFFFFFFF#32, 0xBE000000#32, 2#8) := by decide
theorem test_decByte : onWord (fun t => (t.respq, t.c4, t.bytesIn, t.inq)) 0x50000000#32
    (decSession 1#2 false 0xBE000000#32 [.byte 0#8, .endMark]) =
    some ([0x0000004100000500#64], 0x41#32, 5#32, [.endMark]) := by decide
theorem test_encRaw : onWord (fun t => (t.respq, t.outq, t.low, t.high, t.c0)) 0x60001001#32 (encSession 0#2 false) =
    some ([0x0000000000000600#64], [0x00#8], 0#32, 0x0FFFFFFF#32, 1#8) := by decide
theorem test_encRaw_zero : onWord (fun t => (t.respq, t.sstate, t.faultcode)) 0x60000000#32 (encSession 0#2 false) =
    some ([0x0000000000000607#64], .fault, 7#8) := by decide
theorem test_decRaw : onWord (fun t => (t.respq, t.low, t.high, t.code)) 0x70000BB8#32
    (decSession 0#2 false 0x89544000#32 [.endMark]) =
    some ([0x0000000100000700#64], 0#32, 0xBB7FFFFF#32, 0x89544000#32) := by decide
/-- V-FAULT 0x08, decoded bit: the bit does not complete and `End` is consumed. -/
theorem test_decRaw_end : onWord (fun t => (t.respq, t.sstate, t.bitcount, t.bytesIn, t.inq)) 0x70000FFF#32
    (decSession 0#2 false 0xFFFFFFFF#32 [.endMark]) =
    some ([0x0000000000000708#64], .fault, 0#64, 4#32, []) := by decide
theorem test_flush_encode : onWord (fun t => (t.respq, t.outq, t.sstate)) 0x80000000#32
    { encSession 0#2 false with low := 0x89544000#32, high := 0xAE134B1F#32 } =
    some ([0x0000000400000800#64], [0x89#8, 0x54#8, 0x40#8, 0x00#8], .done) := by decide
theorem test_flush_decode : onWord (fun t => (t.respq, t.inq, t.sstate, t.bytesIn)) 0x80000000#32
    { decSession 1#2 false 0#32 [.byte 7#8, .endMark] with bytesIn := 5#32 } =
    some ([0x000000000000080A#64], [.endMark], .fault, 6#32) := by decide
theorem test_getp_mix_apm : onWord State.respq 0x90000000#32 (encSession 2#2 true) = some [0x0000080200000900#64] := by decide
theorem test_getp_direct : onWord State.respq 0x90000000#32 (encSession 1#2 false) = some [0x0000080000000900#64] := by decide
theorem test_rdreg_status : onWord State.respq 0xA0000001#32 (encSession 2#2 true) = some [0x0000003100000A00#64] := by decide
theorem test_rdreg_reserved : onWord (fun t => (t.respq, t.faultcode)) 0xA000000C#32 State.reset =
    some ([0x0000000000000A02#64], 2#8) := by decide
/-- V-FAULT 0x01, 0x0C, 0x03, 0x04, 0x05, 0x06 and the bad INIT in FAULT state. -/
theorem test_reserved_opcode : onWord (fun t => (t.respq, t.faultcode)) 0xB0000000#32 State.reset =
    some ([0x0000000000000B01#64], 1#8) := by decide
theorem test_refusal : onWord (fun t => (t.respq, t.faultcode)) 0x20000001#32 (faulted 1#8) =
    some ([0x000000010000020C#64], 1#8) := by decide
theorem test_sequence : onWord State.respq 0x20000001#32 State.reset = some [0x0000000000000203#64] := by decide
theorem test_wrong_direction_first : onWord State.respq 0x60000000#32 (decSession 0#2 false 0#32 []) =
    some [0x0000000000000604#64] := by decide
theorem test_no_predictor : onWord State.respq 0x20000001#32 (encSession 0#2 false) = some [0x0000000000000205#64] := by decide
theorem test_misaligned : onWord State.respq 0x30000003#32 { encSession 1#2 false with c0 := 3#8 } =
    some [0x0000000000000306#64] := by decide
theorem test_bad_init_in_fault : onWord (fun t => (t.respq, t.sstate, t.faultcode)) 0x10000006#32 (faulted 7#8) =
    some ([0x0000000000000102#64], .fault, 7#8) := by decide
/-- V-HOLD: a decoding INIT waits at its first priming read. -/
theorem test_init_holds : onWord (fun t => (t.respq, t.cip)) 0x10000003#32 State.reset =
    some ([], some { word := 0x10000003#32, pos := .prime 4 }) := by decide

/-! ## The assembler (30_encoding.md R69, R70) -/

theorem test_assemble_encRaw : assemble ["ENC_RAW 1, 3000 ; a bit".toList] = some [0x60001BB8#32] := by decide
theorem test_assemble_refuses : assemble ["ENC_BYTE 256".toList] = none := by decide
theorem test_assemble_pseudo : assemble ["ENC_STR \"AA\"".toList, "RDBITCOUNT".toList] =
    some [0x30000041#32, 0x30000041#32, 0xA0000007#32, 0xA0000008#32] := by decide


/-! ## Witnesses: for every obligation with hypotheses, data that meet them together -/

/-- A step that shows something answers a next state. -/
theorem next_of_shown {α : Type} {f : State → α} {o : Host.Outcome State Fault Refusal} {v : α} (h : shown f o = some v) :
    ∃ t, o = .next t ∧ f t = v := by
  cases o with
  | next s => exact ⟨s, rfl, by simpa [shown] using h⟩
  | fault r => simp [shown] at h
  | refused r => simp [shown] at h

/-- A run that shows something ends. -/
theorem some_of_map {α : Type} {f : State → α} {o : Option State} {v : α} (h : o.map f = some v) : ∃ t, o = some t ∧ f t = v := by
  simpa using h

/-- The invariant of a state whose tables have their INIT values. -/
theorem inv_of_initial {s : State} (hm : s.mem = Memory.initial) (h1 : ModeOk s) (h2 : ContextOk s) (h3 : FaultcodeOk s)
    (h4 : CommandOk s) (h5 : IntervalOk s) (h6 : CodeOk s) (h7 : QueuesOk s) : Inv s where
  mode := h1
  context := h2
  tables := fun _ => by
    rw [hm]
    exact ⟨fun t i => by simp [counterInit], fun k i => by rw [Memory.readWeight_initial]; decide⟩
  faultcode := h3
  command := h4
  interval := h5
  code := h6
  queues := h7
  canonical := by rw [hm]; exact Memory.wf_initial

/-- The invariant of a state after reset or in FAULT state, whose tables are free values. -/
theorem inv_of_unspecified {s : State} {k : Nat} (hm : s.mem = Memory.unspecified k) (h0 : s.sstate = .idle ∨ s.sstate = .fault)
    (h1 : ModeOk s) (h2 : ContextOk s) (h3 : FaultcodeOk s) (h4 : CommandOk s) (h5 : IntervalOk s) (h6 : CodeOk s)
    (h7 : QueuesOk s) : Inv s where
  mode := h1
  context := h2
  tables := fun h => by rcases h0 with h0 | h0 <;> simp [h0] at h
  faultcode := h3
  command := h4
  interval := h5
  code := h6
  queues := h7
  canonical := by rw [hm]; exact Memory.wf_unspecified k

/-- A decode session whose interval [0x01000000, 0x02FFFFFF] settles a byte at the next bit of probability one half. -/
def tight (m : BitVec 2) (q : List InItem) : State :=
  { decSession m false 0x01000000#32 q with low := 0x01000000#32, high := 0x02FFFFFF#32 }

/-- A decode session whose next bit of probability one half truncates the interval below CODE. -/
def straddling (m : BitVec 2) : State :=
  { decSession m false 0x01000000#32 [] with low := 0x00FFF000#32, high := 0x01010FFF#32 }

/-- A decoding INIT that waits for its first stream byte. -/
def waiting : State :=
  { decSession 1#2 false 0#32 [] with bytesIn := 0#32, cip := some { word := 0x10000003#32, pos := .prime 4 } }

/-- An encode session of a machine with an OUTQ of one byte, the byte already in it. -/
def narrowOut (w : Word) : State :=
  { withDepths 1 8 (encSession 0#2 false) with outq := [0xAA#8], cmdq := [w] }

/-- ENC_RAW 1, 1 held at its OutPush, the settled byte not yet pushed. -/
def heldRaw : State :=
  { withDepths 1 8 (encSession 0#2 false) with
    high := 0x000FFFFF#32, outq := [0xAA#8], cip := some { word := 0x60001001#32, pos := .encRaw } }

theorem inv_heldRaw : Inv heldRaw :=
  inv_of_initial rfl (by unfold ModeOk; decide) (by unfold ContextOk; decide) (by unfold FaultcodeOk; decide) (by decide : _ ∧ _)
    (fun _ => (by decide : topSettled heldRaw ∧ heldRaw.low ≤ heldRaw.high)) (by unfold CodeOk; decide) (by unfold QueuesOk; decide)

/-- An encode session of a machine with a RESPQ of one response, an earlier response still in it. -/
def unread : State :=
  { withDepths 8 1 (encSession 1#2 false) with respq := [responseWord 0x10000002#32 0x00#8 0#32], cmdq := [0x20000001#32] }

theorem inv_unread : Inv unread :=
  inv_of_initial rfl (by unfold ModeOk; decide) (by unfold ContextOk; decide) (by unfold FaultcodeOk; decide) trivial
    (fun _ => (by decide : _ ∧ _)) (by unfold CodeOk; decide) (by unfold QueuesOk; decide)

theorem inv_encSession_none : Inv (encSession 0#2 false) :=
  inv_of_initial rfl (by unfold ModeOk; decide) (by unfold ContextOk; decide) (by unfold FaultcodeOk; decide) trivial
    (fun _ => (by decide : _ ∧ _)) (by unfold CodeOk; decide) (by unfold QueuesOk; decide)
theorem inv_encSession_direct : Inv (encSession 1#2 false) :=
  inv_of_initial rfl (by unfold ModeOk; decide) (by unfold ContextOk; decide) (by unfold FaultcodeOk; decide) trivial
    (fun _ => (by decide : _ ∧ _)) (by unfold CodeOk; decide) (by unfold QueuesOk; decide)
theorem inv_decSession_byte : Inv (decSession 1#2 false 0xBE000000#32 [.byte 0#8, .endMark]) :=
  inv_of_initial rfl (by unfold ModeOk; decide) (by unfold ContextOk; decide) (by unfold FaultcodeOk; decide) trivial
    (fun _ => (by decide : _ ∧ _)) (by unfold CodeOk; decide) (by unfold QueuesOk; decide)
theorem inv_decSession_end : Inv (decSession 1#2 false 0xBE000000#32 [.endMark]) :=
  inv_of_initial rfl (by unfold ModeOk; decide) (by unfold ContextOk; decide) (by unfold FaultcodeOk; decide) trivial
    (fun _ => (by decide : _ ∧ _)) (by unfold CodeOk; decide) (by unfold QueuesOk; decide)
theorem inv_tight_direct : Inv (tight 1#2 [.byte 0x55#8]) :=
  inv_of_initial rfl (by unfold ModeOk; decide) (by unfold ContextOk; decide) (by unfold FaultcodeOk; decide) trivial
    (fun _ => (by decide : _ ∧ _)) (by unfold CodeOk; decide) (by unfold QueuesOk; decide)
theorem inv_tight_direct_empty : Inv (tight 1#2 []) :=
  inv_of_initial rfl (by unfold ModeOk; decide) (by unfold ContextOk; decide) (by unfold FaultcodeOk; decide) trivial
    (fun _ => (by decide : _ ∧ _)) (by unfold CodeOk; decide) (by unfold QueuesOk; decide)
theorem inv_tight_direct_end : Inv (tight 1#2 [.endMark]) :=
  inv_of_initial rfl (by unfold ModeOk; decide) (by unfold ContextOk; decide) (by unfold FaultcodeOk; decide) trivial
    (fun _ => (by decide : _ ∧ _)) (by unfold CodeOk; decide) (by unfold QueuesOk; decide)
theorem inv_tight_none : Inv (tight 0#2 [.byte 0x55#8]) :=
  inv_of_initial rfl (by unfold ModeOk; decide) (by unfold ContextOk; decide) (by unfold FaultcodeOk; decide) trivial
    (fun _ => (by decide : _ ∧ _)) (by unfold CodeOk; decide) (by unfold QueuesOk; decide)
theorem inv_tight_none_empty : Inv (tight 0#2 []) :=
  inv_of_initial rfl (by unfold ModeOk; decide) (by unfold ContextOk; decide) (by unfold FaultcodeOk; decide) trivial
    (fun _ => (by decide : _ ∧ _)) (by unfold CodeOk; decide) (by unfold QueuesOk; decide)
theorem inv_tight_none_end : Inv (tight 0#2 [.endMark]) :=
  inv_of_initial rfl (by unfold ModeOk; decide) (by unfold ContextOk; decide) (by unfold FaultcodeOk; decide) trivial
    (fun _ => (by decide : _ ∧ _)) (by unfold CodeOk; decide) (by unfold QueuesOk; decide)
theorem inv_straddling_direct : Inv (straddling 1#2) :=
  inv_of_initial rfl (by unfold ModeOk; decide) (by unfold ContextOk; decide) (by unfold FaultcodeOk; decide) trivial
    (fun _ => (by decide : _ ∧ _)) (by unfold CodeOk; decide) (by unfold QueuesOk; decide)
theorem inv_straddling_none : Inv (straddling 0#2) :=
  inv_of_initial rfl (by unfold ModeOk; decide) (by unfold ContextOk; decide) (by unfold FaultcodeOk; decide) trivial
    (fun _ => (by decide : _ ∧ _)) (by unfold CodeOk; decide) (by unfold QueuesOk; decide)
theorem inv_tight_end_one : Inv (withDepths 1 1 (tight 1#2 [.endMark])) :=
  inv_of_initial rfl (by unfold ModeOk; decide) (by unfold ContextOk; decide) (by unfold FaultcodeOk; decide) trivial
    (fun _ => (by decide : _ ∧ _)) (by unfold CodeOk; decide) (by unfold QueuesOk; decide)
theorem inv_decSession_end_one : Inv (withDepths 1 1 (decSession 1#2 false 0xBE000000#32 [.endMark])) :=
  inv_of_initial rfl (by unfold ModeOk; decide) (by unfold ContextOk; decide) (by unfold FaultcodeOk; decide) trivial
    (fun _ => (by decide : _ ∧ _)) (by unfold CodeOk; decide) (by unfold QueuesOk; decide)
theorem inv_straddling_one : Inv (withDepths 1 1 (straddling 1#2)) :=
  inv_of_initial rfl (by unfold ModeOk; decide) (by unfold ContextOk; decide) (by unfold FaultcodeOk; decide) trivial
    (fun _ => (by decide : _ ∧ _)) (by unfold CodeOk; decide) (by unfold QueuesOk; decide)
/-- FLUSH with one place in OUTQ, empty. -/
def flushOut : State := { withDepths 1 1 (encSession 0#2 false) with cmdq := [0x80000000#32] }

theorem inv_flushOut : Inv flushOut :=
  inv_of_initial rfl (by unfold ModeOk; decide) (by unfold ContextOk; decide) (by unfold FaultcodeOk; decide) trivial
    (fun _ => (by decide : _ ∧ _)) (by unfold CodeOk; decide) (by unfold QueuesOk; decide)
theorem inv_narrowOut : Inv (narrowOut 0x60001001#32) :=
  inv_of_initial rfl (by unfold ModeOk; decide) (by unfold ContextOk; decide) (by unfold FaultcodeOk; decide) trivial
    (fun _ => (by decide : _ ∧ _)) (by unfold CodeOk; decide) (by unfold QueuesOk; decide)
/-- An encode session with OUTQ full whose next 1-bit of probability one half settles a byte. -/
def fullOut (m : BitVec 2) : State :=
  { withDepths 1 8 (encSession m false) with outq := [0xAA#8], low := 0x01000000#32, high := 0x02FFFFFF#32 }

theorem inv_fullOut_direct : Inv (fullOut 1#2) :=
  inv_of_initial rfl (by unfold ModeOk; decide) (by unfold ContextOk; decide) (by unfold FaultcodeOk; decide) trivial
    (fun _ => (by decide : _ ∧ _)) (by unfold CodeOk; decide) (by unfold QueuesOk; decide)
theorem inv_fullOut_none : Inv (fullOut 0#2) :=
  inv_of_initial rfl (by unfold ModeOk; decide) (by unfold ContextOk; decide) (by unfold FaultcodeOk; decide) trivial
    (fun _ => (by decide : _ ∧ _)) (by unfold CodeOk; decide) (by unfold QueuesOk; decide)
theorem inv_oneByteOut : Inv (withDepths 1 1 (encSession 1#2 false)) :=
  inv_of_initial rfl (by unfold ModeOk; decide) (by unfold ContextOk; decide) (by unfold FaultcodeOk; decide) trivial
    (fun _ => (by decide : _ ∧ _)) (by unfold CodeOk; decide) (by unfold QueuesOk; decide)
theorem inv_waiting : Inv waiting :=
  inv_of_initial rfl (by unfold ModeOk; decide) (by unfold ContextOk; decide) (by unfold FaultcodeOk; decide) (by decide : _ ∧ _)
    (fun _ => (by decide : ¬ topSettled waiting ∧ waiting.low.toNat + 65536 ≤ waiting.high.toNat)) (by unfold CodeOk; decide) (by unfold QueuesOk; decide)
theorem inv_reset_init : Inv { State.reset with cmdq := [0x10000003#32] } :=
  inv_of_unspecified rfl (.inl rfl) (by unfold ModeOk; decide) (by unfold ContextOk; decide) (by unfold FaultcodeOk; decide) trivial
    (fun _ => (by decide : _ ∧ _)) (by unfold CodeOk; decide) (by unfold QueuesOk; decide)
theorem inv_faulted_init : Inv { faulted 1#8 with cmdq := [0x10000002#32] } :=
  inv_of_unspecified rfl (.inr rfl) (by unfold ModeOk; decide) (by unfold ContextOk; decide) (by unfold FaultcodeOk; decide) trivial
    (fun h => absurd rfl h) (by unfold CodeOk; decide) (by unfold QueuesOk; decide)

theorem witness_EncodeOfDecodeIsTheWord : ∃ w i, decode w = .ok i := ⟨0x20000001#32, .encBit true, by decide⟩
theorem witness_WordSelectsItsRowOfTheOpcodeMap :
    (∃ row ∈ opcodeMap, row.1 = 0xA#4) ∧ 0xB ≤ (opcodeOf 0xB0000000#32).toNat ∧ 0xB ≤ (opcodeOf 0xFFFFFFFF#32).toNat ∧
    ((opcodeOf 0xA0000100#32).toNat < 0xB ∧ ∀ row ∈ opcodeMap, 0xA0000100#32 &&& row.2.2 ≠ row.2.1) :=
  ⟨⟨(0xA#4, 0xA0000000#32, 0xFFFFFF00#32), by simp [opcodeMap], rfl⟩, by decide, by decide, by decide, by simp [opcodeMap]⟩

theorem witness_StepRunsTheDecodedCommand :
    ∃ (s : State) (w : Word) (rest : List Word) (i : Instr), s.cip = none ∧ s.cmdq = w :: rest ∧ decode w = .ok i :=
  ⟨{ encSession 1#2 false with cmdq := [0x20000001#32] }, _, _, .encBit true, rfl, rfl, by decide⟩

theorem witness_BlockedStepLeavesTheState :
    (∃ (s : State) (c : InProgress), Inv s ∧ s.cip = some c ∧ Blocked c.pos.waits s) ∧ ∃ s : State, s.cip = none ∧ s.cmdq = [] :=
  ⟨⟨waiting, _, inv_waiting, rfl, rfl⟩, State.reset, rfl, rfl⟩

/-- The command waits for input. -/
theorem witness_CommandsStopOnlyAtABlockedFifo :
    ∃ (s t : State) (c : InProgress), Inv s ∧ step s = .next t ∧ t.cip = some c ∧ c.pos.waits = .onInput := by
  obtain ⟨t, ht, hc⟩ := next_of_shown (by decide : onWord State.cip 0x10000003#32 State.reset =
    some (some { word := 0x10000003#32, pos := .prime 4 }))
  exact ⟨_, t, _, inv_reset_init, ht, hc, rfl⟩

theorem witness_EveryCommandAnswersExactlyOnce :
    (∃ (s t : State) (w : Word) (rest : List Word), step s = .next t ∧ s.cip = none ∧ s.cmdq = w :: rest) ∧
    ∃ (s t : State) (c : InProgress), step s = .next t ∧ s.cip = some c :=
  ⟨⟨{ State.reset with cmdq := [0x00000000#32] }, _, _, _, rfl, rfl, rfl⟩, waiting, _, _, rfl, rfl⟩

theorem witness_FaultStateRefusesAllButThreeOpcodes :
    ∃ (s : State) (w : Word) (rest : List Word), s.sstate = .fault ∧ s.cip = none ∧ s.cmdq = w :: rest ∧ RespRoom 1 s ∧
      opcodeOf w ≠ 0x0#4 ∧ opcodeOf w ≠ 0x1#4 ∧ opcodeOf w ≠ 0xA#4 :=
  ⟨{ faulted 1#8 with cmdq := [0xB0000000#32] }, _, _, rfl, rfl, rfl, by decide, by decide, by decide, by decide⟩

/-- Outside FAULT state and in it. -/
theorem witness_CheckFaultsEnterTheFaultState :
    (∃ (s : State) (w : Word) (rest : List Word) (f : FaultCode), s.cip = none ∧ s.cmdq = w :: rest ∧ RespRoom 1 s ∧
      checkWord w s = .fault f ∧ s.sstate ≠ .fault) ∧
    ∃ (s : State) (w : Word) (rest : List Word) (f : FaultCode), s.cip = none ∧ s.cmdq = w :: rest ∧ RespRoom 1 s ∧
      checkWord w s = .fault f ∧ s.sstate = .fault :=
  ⟨⟨{ State.reset with cmdq := [0xB0000000#32] }, _, _, .illegalOpcode, rfl, rfl, by decide, by decide, by decide⟩,
    { faulted 1#8 with cmdq := [0xA000000C#32] }, _, _, .illegalField, rfl, rfl, by decide, by decide, rfl⟩

theorem witness_OnlyInitOrResetLeavesFault :
    (∃ s t : State, Inv s ∧ s.sstate = .fault ∧ step s = .next t ∧ t.sstate ≠ .fault) ∧
    ∃ (s : State) (m : BitVec 2) (a : Bool), s.sstate = .fault ∧ s.cip = none ∧ RespRoom 1 s ∧ initFieldsLegal m a = false := by
  refine ⟨?_, faulted 1#8, 3#2, false, rfl, rfl, by decide, by decide⟩
  obtain ⟨t, ht, hs⟩ := next_of_shown (by decide : onWord State.sstate 0x10000002#32 (faulted 1#8) = some .coding)
  exact ⟨_, t, inv_faulted_init, rfl, ht, by simp [hs]⟩

theorem witness_OnlyInitWritesTheConfiguration :
    ∃ s t : State, step s = .next t ∧ (t.dir ≠ s.dir ∨ t.pmode ≠ s.pmode ∨ t.apmEn ≠ s.apmEn) := by
  obtain ⟨t, ht, hs⟩ := next_of_shown (by decide : onWord State.pmode 0x10000002#32 State.reset = some 1#2)
  exact ⟨_, t, ht, .inr (.inl (by rw [hs]; decide))⟩

/-- A sound state whose step answers a next state. -/
theorem witness_InvariantFaultNeverFires :
    ∃ s t : State, Inv s ∧ s.faultcode ≠ 0x0B#8 ∧ step s = .next t ∧ t.dir = .encode :=
  ⟨encSession 1#2 false, _, inv_encSession_direct, by decide, rfl, rfl⟩
/-- A step; a push into each queue of the host; a pop from each; each push with one place left and none, each pop with one entry and
none. -/
theorem witness_EveryStepKeepsTheInvariant :
    (∃ s t : State, Inv s ∧ step s = .next t) ∧
    (∃ (s t u : State) (w : Word) (x : InItem), Inv s ∧ pushCommand w s = some t ∧ pushInput x s = some u) ∧
    (∃ (s t : State) (r : Response), Inv s ∧ popResponse s = some (r, t)) ∧
    (∃ (s t : State) (b : Byte), Inv s ∧ popOutput s = some (b, t)) ∧
    (heldRaw.cmdq.length + 1 = heldRaw.depths.cmd ∧ unread.depths.cmd = unread.cmdq.length) ∧
    (∃ s : State, s.inq.length + 1 = s.depths.inp) ∧ (∃ s : State, s.depths.inp = s.inq.length) ∧
    (unread.respq ≠ [] ∧ heldRaw.outq ≠ [] ∧ State.reset.respq = [] ∧ State.reset.outq = []) :=
  ⟨⟨encSession 1#2 false, _, inv_encSession_direct, rfl⟩, ⟨waiting, _, _, 0x00000000#32, .endMark, inv_waiting, rfl, rfl⟩,
    ⟨unread, _, _, inv_unread, rfl⟩, ⟨heldRaw, _, _, inv_heldRaw, rfl⟩, by decide,
    ⟨{ heldRaw with inq := List.replicate 7 .endMark }, rfl⟩, ⟨{ heldRaw with inq := List.replicate 8 .endMark }, rfl⟩, by decide⟩
/-- In a decode and in an encode session. -/
theorem witness_StreamsMoveOneWay : (∃ s t : State, Inv s ∧ step s = .next t ∧ t.dir = .decode) ∧
    ∃ s t : State, Inv s ∧ step s = .next t ∧ t.dir = .encode :=
  ⟨⟨decSession 1#2 false 0xBE000000#32 [.endMark], _, inv_decSession_end, rfl, rfl⟩,
    encSession 1#2 false, _, inv_encSession_direct, rfl, rfl⟩

theorem witness_EncodingCommandsRaiseNoExecutionFault :
    ∀ i ∈ [Instr.encBit true, .encByte 0x41#8, .encRaw false 1#12],
      ∃ s t : State, Inv s ∧ s.cip = none ∧ check i s = .ok ∧ exec i s = .next t := by
  intro i hi
  refine ⟨encSession 1#2 false, execute i (semOf i) (encSession 1#2 false), inv_encSession_direct, rfl, ?_, exec_eq i _⟩
  simp only [List.mem_cons, List.not_mem_nil, or_false] at hi
  rcases hi with rfl | rfl | rfl <;> decide

/-- ENC_RAW held at its OutPush goes on. -/
theorem witness_EncodingCommandsRaiseNoExecutionFault_resumed :
    ∃ (s t : State) (c : InProgress), Inv s ∧ s.cip = some c ∧ opcodeOf c.word = 0x6#4 ∧ step s = .next t ∧ c.pos.waits = .onOutput :=
  ⟨heldRaw, _, _, inv_heldRaw, rfl, by decide, rfl, rfl⟩

theorem witness_SplitPointIsExact : (0#32 < 1#32 ∧ 1 ≤ 1 ∧ 1 ≤ 4095) ∧ (0x00000000#32 < 0xFFFFFFFF#32 ∧ 1 ≤ 4095 ∧ 4095 ≤ 4095) := by
  decide
theorem witness_BothPartsOfASplitAreWide : ∃ (low high : Word) (p : Nat), low.toNat + 65536 ≤ high.toNat ∧ 1 ≤ p ∧ p ≤ 4095 :=
  ⟨0x00FFF000#32, 0x0100F000#32, 4095, by decide⟩

/-- A renormalisation that shows something settles. -/
theorem settled_of_settledTo {r : Renorm} {v : Word × Word × Word × List Byte × Nat} (h : settledTo r = some v) :
    ∃ t, r = .settled t := by
  cases r with
  | settled s => exact ⟨s, rfl⟩
  | held s => simp [settledTo] at h
  | raised f s => simp [settledTo] at h

/-- The encoder of V-RC-4 and the decoder of V-RC-6, one interval. -/
theorem witness_DecoderMirrorsEncoderRenormalisation :
    ∃ e d e' d' : State, e.dir = .encode ∧ d.dir = .decode ∧ d.low = e.low ∧ d.high = e.high ∧ e.low < e.high ∧ d.low < d.high ∧
      renorm renormFuel e = .settled e' ∧ renorm renormFuel d = .settled d' := by
  obtain ⟨e', he⟩ := settled_of_settledTo test_truncation_encoder
  obtain ⟨d', hd⟩ := settled_of_settledTo test_truncation_decoder
  exact ⟨straddlingEnc, straddlingDec, e', d', rfl, rfl, rfl, rfl, by decide, by decide, he, hd⟩
/-- The given interval, CODE and input in a session of the given direction with one place in OUTQ. -/
def coder (d : Dir) (low high code : Word) (q : List InItem) : State :=
  { withDepths 1 8 (encSession 0#2 false) with dir := d, low := low, high := high, code := code, inq := q }

/-- A settled top byte, at a point interval: room and none in OUTQ; a byte, `End` and nothing in INQ. -/
theorem witness_RenormalisationMovesAtMostSevenBytes_settled :
    (∀ s ∈ [coder .encode 5#32 5#32 0#32 [], heldRaw, coder .decode 5#32 5#32 5#32 [.byte 7#8], coder .decode 5#32 5#32 5#32 [.endMark],
      coder .decode 5#32 5#32 5#32 []], (s.low ^^^ s.high) &&& 0xFF000000#32 = 0#32) ∧
    (coder .encode 5#32 5#32 0#32 []).outq.length < (coder .encode 5#32 5#32 0#32 []).depths.out ∧
    heldRaw.depths.out ≤ heldRaw.outq.length := by decide
/-- An unsettled top byte: a width of 2^16 - 1 in both directions, CODE at the end of the lower part and one above it; the bounds in
reverse order; a width of 2^16. -/
theorem witness_RenormalisationMovesAtMostSevenBytes_unsettled :
    (∀ s ∈ [coder .encode 0x00FFFF00#32 0x0100FEFF#32 0#32 [], coder .decode 0x00FFFF00#32 0x0100FEFF#32 0x00FFFFFF#32 [],
      coder .decode 0x00FFFF00#32 0x0100FEFF#32 0x01000000#32 [], coder .encode 0x01000000#32 0x00FFFFFF#32 0#32 []],
      (s.low ^^^ s.high) &&& 0xFF000000#32 ≠ 0#32 ∧ (s.high.toNat : Int) - s.low.toNat < 2 ^ 16) ∧
    (0x00FFFFFF#32 ≤ 0x00FFFF00#32 ||| 0xFFFF#32 ∧ 0x00FFFF00#32 ||| 0xFFFF#32 < 0x01000000#32) ∧
    (0x00FFFF00#32 ^^^ 0x0100FF00#32) &&& 0xFF000000#32 ≠ 0#32 ∧
    (2 : Int) ^ 16 ≤ ((0x0100FF00#32).toNat : Int) - (0x00FFFF00#32).toNat := by decide
/-- The same two renormalisations. -/
theorem witness_RenormalisationMovesAtMostSevenBytes :
    ∃ s t : State, s.low < s.high ∧ renorm renormFuel s = .settled t ∧ s.dir = .encode := by
  obtain ⟨e, d, e', d', he, -, -, -, hlt, -, hr, -⟩ := witness_DecoderMirrorsEncoderRenormalisation
  exact ⟨e, e', hlt, hr, he⟩
theorem witness_RenormalisationMovesAtMostSevenBytes_decode :
    ∃ s t : State, s.low < s.high ∧ renorm renormFuel s = .settled t ∧ s.dir = .decode := by
  obtain ⟨e, d, e', d', -, hd, -, -, -, hlt, -, hr⟩ := witness_DecoderMirrorsEncoderRenormalisation
  exact ⟨d, d', hlt, hr, hd⟩

/-- The last count of each row of R102. -/
theorem witness_CounterRateFollowsItsTable : 1 ≤ 1 ∧ (2 ≤ 5 ∧ 5 ≤ 5) ∧ (6 ≤ 13 ∧ 13 ≤ 13) ∧ 14 ≤ 29 ∧ 29 ≤ 29 := by decide

theorem witness_ContextIndicesLieInTheirTables :
    (∃ s : State, s.c0 = 0x01#8 ∧ s.c0 ≠ 0#8 ∧ s.c4 = 0x00000041#32) ∧ ∃ s : State, s.c0 = 0x85#8 ∧ s.c4 = 0x41424344#32 :=
  ⟨⟨{ State.reset with c4 := 0x00000041#32 }, rfl, by decide, rfl⟩, { State.reset with c0 := 0x85#8, c4 := 0x41424344#32 }, rfl, rfl⟩

/-- Either side of the eighth bit. -/
theorem witness_ContextAdvancesByOneBit :
    (∃ s : State, s.c0 ≠ 0#8 ∧ s.c0.toNat = 127) ∧ ∃ s : State, s.c0 ≠ 0#8 ∧ s.c0.toNat = 128 :=
  ⟨⟨{ State.reset with c0 := 127#8 }, by decide, rfl⟩, { State.reset with c0 := 128#8 }, by decide, rfl⟩

/-- Canonical tables. -/
theorem witness_DirectUpdateWritesOneCounter : (encSession 1#2 false).mem.wf ∧ (encSession 1#2 false).pmode = 1#2 :=
  ⟨Memory.wf_initial, rfl⟩
theorem witness_MixUpdateTrainsOneCounterPerTable : (encSession 2#2 true).mem.wf ∧ 0 ≠ ctxIndex .t4 (encSession 2#2 true) ∧
    (encSession 2#2 true).pmode = 2#2 :=
  ⟨Memory.wf_initial, by decide, rfl⟩
theorem witness_MixUpdateMovesTheWeightsOfItsSet : (encSession 2#2 true).mem.wf ∧ (4, TableId.t4) ∈ mixerInputs ∧
    1 ≠ weightSet (encSession 2#2 true) := ⟨Memory.wf_initial, by decide, by decide⟩
/-- With the APM and without. -/
theorem witness_MixUpdateTrainsOneApmBucket : (encSession 2#2 true).mem.wf ∧ (encSession 2#2 true).apmEn = true ∧
    (encSession 2#2 false).mem.wf ∧ (encSession 2#2 false).apmEn = false := ⟨Memory.wf_initial, rfl, Memory.wf_initial, rfl⟩

theorem witness_SquashIsNonDecreasing : (-2048 : Int) ≤ 2047 := by decide
theorem witness_StretchIsTheLeastLogit : ((-2047 : Int) ≤ 0 ∧ (0 : Int) < stretch 2048) ∧ (2047 ≤ 2048) ∧ (1 ≤ 4094 ∧ 4094 ≤ 4094) := by
  decide
theorem witness_GuardKeepsTheSideOfOneHalf :
    (2048 < 2049 ∧ 2048 < 2049) ∧ (2047 < 2048 ∧ 2048 ≤ 2048) ∧ (encSession 2#2 true).pmode = 2#2 ∧
    (encSession 2#2 true).apmEn = true ∧ (encSession 2#2 false).pmode = 2#2 ∧ (encSession 2#2 false).apmEn = false := by decide
theorem witness_CoderProbabilitiesAreNeverExtreme : check (.encRaw true 1#12) (encSession 0#2 false) = .ok ∧
    check (.decRaw 4095#12) (decSession 0#2 false 0#32 []) = .ok := by decide

/-- A MIX session whose five counters in the first context have the probability `p`. -/
def favouring (p : BitVec 16) : State :=
  { encSession 2#2 true with
    mem := { Memory.initial with
      t0 := [(1, { p := p, n := 3#5 })], t1 := [(1, { p := p, n := 3#5 })], t2 := [(4096, { p := p, n := 3#5 })],
      t3 := [(4096, { p := p, n := 3#5 })], t4 := [(4096, { p := p, n := 3#5 })] } }
theorem witness_MixFollowsItsComponents :
    (∃ s : State, (∀ i, i < 5 → 1024 ≤ weightOf i s) ∧ ∀ t, 2095 ≤ ctxProb t s) ∧
    (∃ s : State, (∀ i, i < 5 → 1024 ≤ weightOf i s) ∧ ∀ t, 3072 ≤ ctxProb t s) ∧
    ∃ s : State, (∀ i, i < 5 → 1024 ≤ weightOf i s) ∧ ∀ t, ctxProb t s ≤ 2043 :=
  ⟨⟨favouring 33520#16, by decide, fun t => by cases t <;> decide⟩, ⟨favouring 49152#16, by decide, fun t => by cases t <;> decide⟩,
    favouring 32703#16, by decide, fun t => by cases t <;> decide⟩

theorem witness_NopOnlyAnswers : RespRoom 1 State.reset ∧ opcodeOf 0x00000001#32 = 0x0#4 ∧ 0x00000001#32 ≠ 0x00000000#32 := by decide
theorem witness_InitOpensAnEncodeSession :
    initFieldsLegal 0#2 false = true ∧ initFieldsLegal 2#2 true = true ∧ RespRoom 1 (faulted 7#8) := by decide
theorem witness_InitOpensADecodeSession : ∃ (s : State) (b0 b1 b2 b3 : Byte) (rest : List InItem),
    initFieldsLegal 1#2 false = true ∧ RespRoom 1 s ∧ s.inq = .byte b0 :: .byte b1 :: .byte b2 :: .byte b3 :: rest :=
  ⟨{ State.reset with inq := [.byte 0xBE#8, .byte 0#8, .byte 0#8, .byte 0#8] }, _, _, _, _, _, by decide, by decide, rfl⟩
/-- No byte before `End`, and three. -/
theorem witness_InitOnAShortStreamFaults :
    (∃ s : State, RespRoom 1 s ∧ s.inq = ([] : List Byte).map InItem.byte ++ .endMark :: []) ∧
    ∃ s : State, RespRoom 1 s ∧ ([1#8, 2#8, 3#8] : List Byte).length < 4 ∧
      s.inq = [1#8, 2#8, 3#8].map InItem.byte ++ .endMark :: [.byte 9#8] :=
  ⟨⟨{ State.reset with inq := [.endMark] }, by decide, rfl⟩,
    { State.reset with inq := [.byte 1#8, .byte 2#8, .byte 3#8, .endMark, .byte 9#8] }, by decide, by decide, rfl⟩

/-- How renormalisation ends. -/
def endOf : Renorm → Option (Option FaultCode)
  | .settled _ => some none
  | .held _ => none
  | .raised f _ => some (some f)

/-- With room for its bytes; and the hold of a core whose one place of OUTQ is taken, on a bit that settles a byte. -/
theorem witness_EncBitCodesOneBit :
    (∃ s : State, Inv s ∧ Ready .encode 1 s ∧ s.pmode ≠ 0#2 ∧ OutRoom 7 s ∧
      endOf (renorm renormFuel (narrow true (predict s) s)) = some none) ∧
    ∃ s : State, Inv s ∧ Ready .encode 1 s ∧ s.pmode ≠ 0#2 ∧ endOf (renorm renormFuel (narrow true (predict s) s)) = none :=
  ⟨⟨encSession 1#2 false, inv_encSession_direct, ⟨rfl, rfl, rfl, by decide⟩, by decide, by decide, by decide⟩,
    fullOut 1#2, inv_fullOut_direct, ⟨rfl, rfl, rfl, by decide⟩, by decide, by decide⟩
/-- With 56 places; and on a core with one place in OUTQ and one in RESPQ. -/
theorem witness_EncByteIsEightEncBits :
    (∃ s : State, Inv s ∧ Ready .encode 1 s ∧ s.pmode ≠ 0#2 ∧ s.c0 = 1#8 ∧ OutRoom 56 s ∧ RespRoom 8 s) ∧
    ∃ s t : State, Inv s ∧ Ready .encode 1 s ∧ s.pmode ≠ 0#2 ∧ s.c0 = 1#8 ∧ s.depths.out = 1 ∧ s.depths.resp = 1 ∧
      encPredBits (msbFirst 0x41#8) s = some t := by
  refine ⟨⟨encSession 1#2 false, inv_encSession_direct, ⟨rfl, rfl, rfl, by decide⟩, by decide, rfl, by decide, by decide⟩, ?_⟩
  obtain ⟨t, ht, -⟩ := some_of_map (by decide :
    (encPredBits (msbFirst 0x41#8) (withDepths 1 1 (encSession 1#2 false))).map State.outq = some [0xBE#8])
  exact ⟨_, t, inv_oneByteOut, ⟨rfl, rfl, rfl, by decide⟩, by decide, rfl, rfl, rfl, ht⟩
/-- As for ENC_BIT. -/
theorem witness_EncRawCodesOneBit :
    (∃ (s : State) (p : BitVec 12), Inv s ∧ Ready .encode 1 s ∧ p ≠ 0#12 ∧ OutRoom 7 s ∧
      endOf (renorm renormFuel (narrow true p.toNat s)) = some none) ∧
    ∃ (s : State) (p : BitVec 12), Inv s ∧ Ready .encode 1 s ∧ p ≠ 0#12 ∧ endOf (renorm renormFuel (narrow true p.toNat s)) = none :=
  ⟨⟨encSession 0#2 false, 4095#12, inv_encSession_none, ⟨rfl, rfl, rfl, by decide⟩, by decide, by decide, by decide⟩,
    fullOut 0#2, 2048#12, inv_fullOut_none, ⟨rfl, rfl, rfl, by decide⟩, by decide, by decide⟩

/-- The four clauses. -/
theorem witness_DecBitDecodesOneBit :
    (∃ s : State, Inv s ∧ Ready .decode 1 s ∧ s.pmode ≠ 0#2 ∧ endOf (renorm renormFuel (narrow true (predict s) s)) = some none ∧
      true = decide (s.code ≤ xmid s.low s.high (predict s))) ∧
    (∃ s : State, Inv s ∧ Ready .decode 1 s ∧ s.pmode ≠ 0#2 ∧ endOf (renorm renormFuel (narrow true (predict s) s)) = none ∧
      true = decide (s.code ≤ xmid s.low s.high (predict s))) ∧
    (∃ s : State, Inv s ∧ Ready .decode 1 s ∧ s.pmode ≠ 0#2 ∧
      endOf (renorm renormFuel (narrow true (predict s) s)) = some (some .corruptEof) ∧
      true = decide (s.code ≤ xmid s.low s.high (predict s))) ∧
    (∃ s : State, Inv s ∧ Ready .decode 1 s ∧ s.pmode ≠ 0#2 ∧
      endOf (renorm renormFuel (narrow true (predict s) s)) = some (some .corruptRange) ∧
      true = decide (s.code ≤ xmid s.low s.high (predict s))) ∧
    ∃ s : State, Inv s ∧ Ready .decode 1 s ∧ s.pmode ≠ 0#2 ∧ false = decide (s.code ≤ xmid s.low s.high (predict s)) ∧
      Normalised (narrow false (predict s) s) :=
  ⟨⟨_, inv_tight_direct, ⟨rfl, rfl, rfl, by decide⟩, by decide, by decide, by decide⟩,
    ⟨_, inv_tight_direct_empty, ⟨rfl, rfl, rfl, by decide⟩, by decide, by decide, by decide⟩,
    ⟨_, inv_tight_direct_end, ⟨rfl, rfl, rfl, by decide⟩, by decide, by decide, by decide⟩,
    ⟨_, inv_straddling_direct, ⟨rfl, rfl, rfl, by decide⟩, by decide, by decide, by decide⟩,
    ⟨_, inv_decSession_byte, ⟨rfl, rfl, rfl, by decide⟩, by decide, by decide, (by decide : _ ∧ _)⟩⟩
/-- The four clauses, at p = 2048. -/
theorem witness_DecRawDecodesOneBit :
    (∃ s : State, Inv s ∧ Ready .decode 1 s ∧ endOf (renorm renormFuel (narrow true 2048 s)) = some none ∧
      true = decide (s.code ≤ xmid s.low s.high 2048)) ∧
    (∃ s : State, Inv s ∧ Ready .decode 1 s ∧ endOf (renorm renormFuel (narrow true 2048 s)) = none ∧
      true = decide (s.code ≤ xmid s.low s.high 2048)) ∧
    (∃ s : State, Inv s ∧ Ready .decode 1 s ∧ endOf (renorm renormFuel (narrow true 2048 s)) = some (some .corruptEof) ∧
      true = decide (s.code ≤ xmid s.low s.high 2048)) ∧
    (∃ s : State, Inv s ∧ Ready .decode 1 s ∧ endOf (renorm renormFuel (narrow true 2048 s)) = some (some .corruptRange) ∧
      true = decide (s.code ≤ xmid s.low s.high 2048)) ∧
    ∃ s : State, Inv s ∧ Ready .decode 1 s ∧ false = decide (s.code ≤ xmid s.low s.high 2048) ∧ Normalised (narrow false 2048 s) :=
  ⟨⟨_, inv_tight_none, ⟨rfl, rfl, rfl, by decide⟩, by decide, by decide⟩,
    ⟨_, inv_tight_none_empty, ⟨rfl, rfl, rfl, by decide⟩, by decide, by decide⟩,
    ⟨_, inv_tight_none_end, ⟨rfl, rfl, rfl, by decide⟩, by decide, by decide⟩,
    ⟨_, inv_straddling_none, ⟨rfl, rfl, rfl, by decide⟩, by decide, by decide⟩,
    ⟨_, inv_decSession_byte, ⟨rfl, rfl, rfl, by decide⟩, by decide, (by decide : _ ∧ _)⟩⟩

theorem witness_DecByteIsEightDecBits :
    ∃ s t : State, Inv s ∧ Ready .decode 8 s ∧ s.pmode ≠ 0#2 ∧ s.c0 = 1#8 ∧
      runAll (List.replicate 8 .decBit) s = some t ∧ t.sstate = .coding := by
  obtain ⟨t, ht, hs⟩ := some_of_map (f := State.sstate) (by decide :
    (runAll (List.replicate 8 .decBit) (decSession 1#2 false 0xBE000000#32 [.byte 0#8, .endMark])).map State.sstate = some .coding)
  exact ⟨_, t, inv_decSession_byte, ⟨rfl, rfl, rfl, by decide⟩, by decide, rfl, ht, hs⟩

/-- What renormalisation raises, if anything. -/
def raisedBy : Renorm → Option FaultCode
  | .settled _ => none
  | .held _ => none
  | .raised f _ => some f

theorem raised_of_raisedBy {r : Renorm} {f : FaultCode} (h : raisedBy r = some f) : ∃ u, r = .raised f u := by
  cases r <;> simp_all [raisedBy]

/-- Renormalisation of the bit DecPredBit resolves. -/
def nextBit (t : State) : Renorm :=
  renorm renormFuel (narrow (decide (t.code ≤ xmid t.low t.high (predict t))) (predict t) t)

/-- With one place in RESPQ: `End` at the first bit of the byte and at the last, and a truncation below CODE. -/
theorem witness_DecByteFaultsWhereItsBitFaults_onePlace :
    ∀ c ∈ [(0, withDepths 1 1 (tight 1#2 [.endMark]), FaultCode.corruptEof),
        (7, withDepths 1 1 (decSession 1#2 false 0xBE000000#32 [.endMark]), .corruptEof),
        (0, withDepths 1 1 (straddling 1#2), .corruptRange)],
      ∃ (t u : State) (ys : List Bool), Inv c.2.1 ∧ Ready .decode 1 c.2.1 ∧ c.2.1.pmode ≠ 0#2 ∧ c.2.1.c0 = 1#8 ∧ c.1 < 8 ∧
        decPredBits c.1 c.2.1 = some (ys, t) ∧ nextBit t = .raised c.2.2 u := by
  intro c hc
  have hr : Inv c.2.1 ∧ Ready .decode 1 c.2.1 ∧ c.2.1.pmode ≠ 0#2 ∧ c.2.1.c0 = 1#8 ∧ c.1 < 8 ∧
      (decPredBits c.1 c.2.1).map (fun r => raisedBy (nextBit r.2)) = some (some c.2.2) := by
    simp only [List.mem_cons, List.not_mem_nil, or_false] at hc
    rcases hc with rfl | rfl | rfl
    · exact ⟨inv_tight_end_one, ⟨rfl, rfl, rfl, by decide⟩, by decide, rfl, by decide, by decide⟩
    · exact ⟨inv_decSession_end_one, ⟨rfl, rfl, rfl, by decide⟩, by decide, rfl, by decide, by decide⟩
    · exact ⟨inv_straddling_one, ⟨rfl, rfl, rfl, by decide⟩, by decide, rfl, by decide, by decide⟩
  obtain ⟨hi, hd, hp, h0, hk, hm⟩ := hr
  obtain ⟨⟨ys, t⟩, ht, hf⟩ := Option.map_eq_some_iff.mp hm
  obtain ⟨u, hu⟩ := raised_of_raisedBy hf
  exact ⟨t, u, ys, hi, hd, hp, h0, hk, ht, hu⟩

/-- A fault at the first bit of the byte and at the last. -/
theorem witness_DecByteFaultsWhereItsBitFaults :
    ∀ k ∈ [0, 7], ∃ s t u : State, Inv s ∧ Ready .decode 8 s ∧ s.pmode ≠ 0#2 ∧ s.c0 = 1#8 ∧ k < 8 ∧
      runAll (List.replicate k .decBit) s = some t ∧ t.sstate = .coding ∧
      exec .decBit t = .next u ∧ u.cip = none ∧ u.sstate = .fault := by
  intro k hk
  simp only [List.mem_cons, List.not_mem_nil, or_false] at hk
  rcases hk with rfl | rfl
  · obtain ⟨u, hu, h⟩ := next_of_shown (by decide :
      shown (fun u => (u.cip, u.sstate)) (exec .decBit (tight 1#2 [.endMark])) = some (none, .fault))
    simp only [Prod.mk.injEq] at h
    exact ⟨_, _, u, inv_tight_direct_end, ⟨rfl, rfl, rfl, by decide⟩, by decide, rfl, by decide, rfl, rfl, hu, h.1, h.2⟩
  · obtain ⟨t, ht, h⟩ := some_of_map (f := fun t => (t.sstate, shown (fun u => (u.cip, u.sstate)) (exec .decBit t))) (by decide :
      (runAll (List.replicate 7 .decBit) (decSession 1#2 false 0xBE000000#32 [.endMark])).map
        (fun t => (t.sstate, shown (fun u => (u.cip, u.sstate)) (exec .decBit t))) = some (.coding, some (none, .fault)))
    simp only [Prod.mk.injEq] at h
    obtain ⟨u, hu, h'⟩ := next_of_shown h.2
    simp only [Prod.mk.injEq] at h'
    exact ⟨_, t, u, inv_decSession_end, ⟨rfl, rfl, rfl, by decide⟩, by decide, rfl, by decide, ht, h.1, hu, h'.1, h'.2⟩

/-- V-CMD row 6: the stream byte BE decodes to its complement 41. -/
theorem witness_DecByteCompletesWhereItsBitsSettle :
    (∃ (s t : State) (ys : List Bool), Inv s ∧ Ready .decode 1 s ∧ s.pmode ≠ 0#2 ∧ s.c0 = 1#8 ∧ decPredBits 8 s = some (ys, t) ∧
      ys = msbFirst 0x41#8) ∧
    ∃ (s : State) (b : Byte) (rest : List InItem), Ready .decode 1 s ∧ s.pmode = 1#2 ∧ s.mem = Memory.initial ∧ s.c0 = 1#8 ∧
      s.c4 = 0#32 ∧ s.low = 0x00000000#32 ∧ s.high = 0xFFFFFFFF#32 ∧ s.inq = .byte b :: rest ∧
      ~~~ s.code.extractLsb' 24 8 = 0x41#8 := by
  refine ⟨?_, decSession 1#2 false 0xBE000000#32 [.byte 0#8, .endMark], _, _, ⟨rfl, rfl, rfl, by decide⟩, rfl, rfl, rfl, rfl, rfl,
    rfl, rfl, by decide⟩
  have h : (decPredBits 8 (decSession 1#2 false 0xBE000000#32 [.byte 0#8, .endMark])).map Prod.fst = some (msbFirst 0x41#8) := by decide
  obtain ⟨⟨ys, t⟩, hr, hy⟩ := Option.map_eq_some_iff.mp h
  exact ⟨_, t, ys, inv_decSession_byte, ⟨rfl, rfl, rfl, by decide⟩, by decide, rfl, hr, hy⟩

/-- Room for all four bytes; for none and for three; one byte left and four. -/
theorem witness_FlushEmitsTheFourBytesOfLow :
    (∃ s : State, Ready .encode 1 s ∧ OutRoom 4 s) ∧
    (∀ k ∈ [0, 3], ∃ s : State, Ready .encode 1 s ∧ k < 4 ∧ s.depths.out = s.outq.length + k) ∧
    ∀ left ∈ [1, 4], ∃ s : State, s.cip = some { word := 0x80000000#32, pos := .flushEnc left } ∧ 1 ≤ left ∧ left ≤ 4 ∧
      OutRoom left s ∧ RespRoom 1 s := by
  refine ⟨⟨encSession 0#2 false, ⟨rfl, rfl, rfl, by decide⟩, by decide⟩, fun k hk => ?_, fun left hl => ?_⟩
  · simp only [List.mem_cons, List.not_mem_nil, or_false] at hk
    exact ⟨withDepths k 1 (encSession 0#2 false), ⟨rfl, rfl, rfl, Nat.le_refl 1⟩, by omega, (Nat.zero_add k).symm⟩
  · simp only [List.mem_cons, List.not_mem_nil, or_false] at hl
    exact ⟨{ withDepths left 1 (encSession 0#2 false) with cip := some { word := 0x80000000#32, pos := .flushEnc left } }, rfl,
      by omega, by omega, by rcases hl with rfl | rfl <;> decide, by rcases hl with rfl | rfl <;> decide⟩
/-- The three clauses. -/
theorem witness_FlushChecksTheEndOfTheStream :
    (∃ (s : State) (rest : List InItem), Ready .decode 1 s ∧ s.code = s.low ∧ s.inq = .endMark :: rest) ∧
    (∃ s : State, Ready .decode 1 s ∧ s.code ≠ s.low) ∧
    ∃ (s : State) (b : Byte) (rest : List InItem), Ready .decode 1 s ∧ s.code = s.low ∧ s.inq = .byte b :: rest :=
  ⟨⟨decSession 0#2 false 0#32 [.endMark], _, ⟨rfl, rfl, rfl, by decide⟩, rfl, rfl⟩,
    ⟨decSession 0#2 false 1#32 [], ⟨rfl, rfl, rfl, by decide⟩, by decide⟩,
    decSession 0#2 false 0#32 [.byte 7#8], _, _, ⟨rfl, rfl, rfl, by decide⟩, rfl, rfl⟩

theorem witness_GetpOnlyAnswersTheProbability : (encSession 1#2 false).sstate = .coding ∧ (encSession 1#2 false).pmode ≠ 0#2 ∧
    RespRoom 1 (encSession 1#2 false) := by decide
/-- The last register and the first reserved number, in FAULT state too. -/
theorem witness_RdregOnlyAnswersTheRegister :
    (0x0B#8).toNat < 0x0C ∧ 0x0C ≤ (0x0C#8).toNat ∧ RespRoom 1 State.reset ∧ RespRoom 1 (faulted 1#8) := by decide
theorem witness_StatusRegisterHasItsFields : State.reset.c0 ≠ 0#8 := by decide

theorem witness_InputArrivalTimeDoesNotMatter :
    ∃ (s t s' : State) (c : InProgress) (x : InItem), Inv s ∧ step s = .next t ∧ t.cip = some c ∧ c.pos.waits = .onInput ∧
      pushInput x s = some s' := by
  obtain ⟨t, ht, hc⟩ := next_of_shown (by decide : onWord State.cip 0x10000003#32 State.reset =
    some (some { word := 0x10000003#32, pos := .prime 4 }))
  exact ⟨_, t, _, _, .endMark, inv_reset_init, ht, hc, rfl, rfl⟩

/-- A full OUTQ, with a byte from before the command and with a byte of its own; a full RESPQ. -/
theorem witness_OutputDrainTimeDoesNotMatter :
    (∃ (s t s' : State) (c : InProgress) (b : Byte), Inv s ∧ step s = .next t ∧ t.cip = some c ∧ c.pos.waits = .onOutput ∧
      popOutput s = some (b, s')) ∧
    (∃ (s t t' : State) (c : InProgress) (b : Byte), Inv s ∧ step s = .next t ∧ t.cip = some c ∧ c.pos.waits = .onOutput ∧
      popOutput s = none ∧ popOutput t = some (b, t')) ∧
    ∃ (s t s' : State) (c : InProgress) (r : Response), Inv s ∧ step s = .next t ∧ t.cip = some c ∧ c.pos.waits = .onResponse ∧
      popResponse s = some (r, s') := by
  obtain ⟨t, ht, hc⟩ := next_of_shown (by decide :
    shown State.cip (step (narrowOut 0x60001001#32)) = some (some { word := 0x60001001#32, pos := .encRaw }))
  obtain ⟨v, hv, he⟩ := next_of_shown (by decide : shown (fun v => (v.cip, (popOutput v).map Prod.fst)) (step flushOut) =
    some (some { word := 0x80000000#32, pos := .flushEnc 3 }, some 0x00#8))
  obtain ⟨u, hu, hd⟩ := next_of_shown (by decide :
    shown State.cip (step unread) = some (some { word := 0x20000001#32, pos := .respond 0x00#8 0#32 }))
  simp only [Prod.mk.injEq] at he
  obtain ⟨⟨b, v'⟩, hb, -⟩ := Option.map_eq_some_iff.mp he.2
  exact ⟨⟨_, t, _, _, _, inv_narrowOut, ht, hc, rfl, rfl⟩, ⟨_, v, v', _, b, inv_flushOut, hv, he.1, rfl, rfl, hb⟩,
    _, u, _, _, _, inv_unread, hu, hd, rfl, rfl⟩

/-- `A` with DIRECT and a raw bit before it, decoded bit by bit. -/
theorem witness_DecodingReversesEncoding :
    ∃ (e e' d : State) (es ds : List Symbol) (stream : List Byte) (rest : List InItem), e.cip = none ∧
      runAll (.init .encode 1#2 false :: (es.map Symbol.encoder ++ [.flush])) e = some e' ∧ e'.sstate = .done ∧
      e'.outq = e.outq ++ stream ∧ ds.flatMap symbolBits = es.flatMap symbolBits ∧ bytesAligned 0 ds = true ∧ ds ≠ es ∧
      d.cip = none ∧ RespRoom (ds.length + 2) d ∧ d.inq = streamItems stream ++ rest := by
  obtain ⟨e', he, h⟩ := some_of_map (f := fun e => (e.sstate, e.outq)) (by decide +kernel :
    (runAll [.init .encode 1#2 false, .encRaw true 1#12, .encByte 0x41#8, .flush] State.reset).map (fun e => (e.sstate, e.outq)) =
      some (.done, [0x00#8, 0x0B#8, 0xE0#8, 0x00#8, 0x00#8, 0x00#8]))
  simp only [Prod.mk.injEq] at h
  exact ⟨State.reset, e', { State.reset with inq := streamItems [0x00#8, 0x0B#8, 0xE0#8, 0x00#8, 0x00#8, 0x00#8] },
    [.raw true 1#12, .byte 0x41#8], .raw true 1#12 :: (msbFirst 0x41#8).map Symbol.bit, _, [], rfl, he, h.1, h.2, by decide, by decide,
    by decide, rfl, by decide, rfl⟩

end Sys2Proof.Tests
end

section
/-! PROOFS. What leaves the configuration alone, and the read of STATUS and the registers (10_state.md R13, R15, R23, R35). -/

namespace Sys2Proof.Machine

/-- Settles O18: the reset column of 10_state.md R35 is `State.afterReset`. -/
theorem hardwareResetGivesTheResetState : Obligations.HardwareResetGivesTheResetState := fun _ => ⟨rfl, rfl⟩

/-! ## DIR, PMODE and APM_EN -/

/-- The state in which the pseudocode of a command ends or stops. -/
def Result.state : Result → State
  | .done _ s => s
  | .held _ s => s
  | .raised _ s => s

/-- The state in which a renormalisation ends or stops. -/
def Renorm.state : Renorm → State
  | .settled s => s
  | .held s => s
  | .raised _ s => s

theorem RenormEnd.same {r : Renorm} {t : State} (h : RenormEnd r t) : SameButCoder t r.state := by
  cases h with
  | settled _ _ => exact .refl _
  | full _ _ _ => exact .refl _
  | empty _ _ _ => exact .refl _
  | eof _ _ hp => obtain ⟨rest, -, rfl⟩ := inPop_endMark hp; constructor <;> rfl
  | range _ _ _ _ => constructor <;> rfl

/-- Renormalisation touches nothing but the interval, CODE and the streams, however it ends. -/
theorem renorm_same (s : State) : SameButCoder s (renorm renormFuel s).state := by
  obtain ⟨t, hr, he⟩ := renorm_cases s
  exact hr.same.trans he.same

theorem narrow_same (y : Bool) (p : Nat) (s : State) : SameButCoder s (narrow y p s) := by
  constructor <;> simp

/-- The configuration registers of 10_state.md R13 are the same. -/
structure SameConfig (s t : State) : Prop where
  dir : t.dir = s.dir
  pmode : t.pmode = s.pmode
  apmEn : t.apmEn = s.apmEn

theorem SameConfig.refl (s : State) : SameConfig s s := ⟨rfl, rfl, rfl⟩

theorem SameConfig.trans {s t u : State} (h : SameConfig s t) (h' : SameConfig t u) : SameConfig s u :=
  ⟨h'.dir.trans h.dir, h'.pmode.trans h.pmode, h'.apmEn.trans h.apmEn⟩

theorem SameButCoder.sameConfig {s t : State} (h : SameButCoder s t) : SameConfig s t := ⟨h.dir, h.pmode, h.apmEn⟩

theorem respond_sameConfig (w : Word) (st : BitVec 8) (data : Word) (s : State) : SameConfig s (respond w st data s) := by
  constructor <;> simp

theorem faultEntry_sameConfig (f : FaultCode) (s : State) : SameConfig s (faultEntry f s) := by
  constructor <;> simp

theorem settle_sameConfig (w : Word) (r : Result) : SameConfig r.state (settle w r) := by
  cases r with
  | done data s => exact respond_sameConfig w _ data s
  | held pos s => exact ⟨rfl, rfl, rfl⟩
  | raised f s => exact (faultEntry_sameConfig f s).trans (respond_sameConfig w _ _ _)

/-- `train` is the update of the context over the trained tables. -/
def trainedMem (y : Bool) (s : State) : Memory :=
  if s.pmode = 1#2 then trainCounter .t1 y s s.mem else trainApm y s (trainWeights y s (trainCounters y s s.mem))

theorem train_eq (y : Bool) (s : State) : train y s = ctxUpdate y { s with mem := trainedMem y s } := by
  unfold train trainedMem
  split <;> rfl

theorem shiftCode_sameConfig (b : Byte) (s : State) : SameConfig s (shiftCode b s) := ⟨rfl, rfl, rfl⟩

theorem finishPredBit_sameConfig (y : Bool) (s : State) : SameConfig s (finishPredBit y s) := by
  unfold finishPredBit
  constructor <;> simp [train_eq]

theorem outPush_sameConfig {b : Byte} {s t : State} (h : outPush b s = some t) : SameConfig s t := by
  obtain ⟨-, rfl⟩ := outPush_eq_some h
  exact ⟨rfl, rfl, rfl⟩

theorem inPop_sameConfig {x : InItem} {s t : State} (h : inPop s = .item x t) : SameConfig s t := by
  cases x with
  | byte b => obtain ⟨rest, -, rfl⟩ := inPop_byte h; exact ⟨rfl, rfl, rfl⟩
  | endMark => obtain ⟨rest, -, rfl⟩ := inPop_endMark h; exact ⟨rfl, rfl, rfl⟩

section Coding

variable {pos : HoldPoint} {next : State → Result}

theorem renormThen_sameConfig (hn : ∀ t, SameConfig t (next t).state) (s : State) :
    SameConfig s (renormThen pos next s).state := by
  have h := (renorm_same s).sameConfig
  unfold renormThen
  cases hr : renorm renormFuel s with
  | settled t => rw [hr] at h; exact h.trans (hn t)
  | held t => rw [hr] at h; exact h
  | raised f t => rw [hr] at h; exact h

theorem rcEncode_sameConfig (hn : ∀ t, SameConfig t (next t).state) (y : Bool) (p : Nat) (s : State) :
    SameConfig s (rcEncode y p pos next s).state := by
  unfold rcEncode
  split
  · exact (narrow_same y p s).sameConfig.trans (renormThen_sameConfig hn _)
  · exact .refl s

theorem rcDecode_sameConfig {pos : Bool → HoldPoint} {next : Bool → State → Result}
    (hn : ∀ y t, SameConfig t (next y t).state) (p : Nat) (s : State) : SameConfig s (rcDecode p pos next s).state := by
  unfold rcDecode
  split
  · exact (narrow_same _ p s).sameConfig.trans (renormThen_sameConfig (hn _) _)
  · exact .refl s

theorem encPredBit_sameConfig (hn : ∀ t, SameConfig t (next t).state) (y : Bool) (s : State) :
    SameConfig s (encPredBit y pos next s).state :=
  rcEncode_sameConfig (fun t => (finishPredBit_sameConfig y t).trans (hn _)) y _ s

theorem decPredBit_sameConfig {pos : Bool → HoldPoint} {next : Bool → State → Result}
    (hn : ∀ y t, SameConfig t (next y t).state) (s : State) : SameConfig s (decPredBit pos next s).state :=
  rcDecode_sameConfig (fun y t => (finishPredBit_sameConfig y t).trans (hn y _)) _ s

/-- A predicted bit that goes on inside its renormalisation. -/
theorem resumePredBit_sameConfig (hn : ∀ t, SameConfig t (next t).state) (y : Bool) (s : State) :
    SameConfig s (renormThen pos (fun t => next (finishPredBit y t)) s).state :=
  renormThen_sameConfig (fun t => (finishPredBit_sameConfig y t).trans (hn _)) s

end Coding

theorem encByteFrom_sameConfig (v : Byte) (k : Nat) (s : State) : SameConfig s (encByteFrom v k s).state := by
  induction k generalizing s with
  | zero => exact .refl s
  | succ k ih => exact encPredBit_sameConfig ih _ s

theorem decByteFrom_sameConfig (k : Nat) (acc : Byte) (s : State) : SameConfig s (decByteFrom k acc s).state := by
  induction k generalizing acc s with
  | zero => exact .refl s
  | succ k ih => exact decPredBit_sameConfig (fun y => ih (pushBit acc y)) s

theorem primeFrom_sameConfig (left : Nat) (s : State) : SameConfig s (primeFrom left s).state := by
  induction left generalizing s with
  | zero => exact .refl s
  | succ left ih =>
    unfold primeFrom
    cases h : inPop s with
    | empty => exact .refl s
    | item x t =>
      cases x with
      | byte b => exact (inPop_sameConfig h).trans ((shiftCode_sameConfig b t).trans (ih _))
      | endMark => exact inPop_sameConfig h

theorem flushEncFrom_sameConfig (left : Nat) (s : State) : SameConfig s (flushEncFrom left s).state := by
  induction left generalizing s with
  | zero => exact ⟨rfl, rfl, rfl⟩
  | succ left ih =>
    unfold flushEncFrom
    cases h : outPush (s.low.extractLsb' (8 * left) 8) s with
    | none => exact .refl s
    | some t => exact (outPush_sameConfig h).trans (ih t)

theorem endItem_sameConfig (s : State) : SameConfig s (endItem s).state := by
  unfold endItem
  cases h : inPop s with
  | empty => exact .refl s
  | item x t =>
    cases x with
    | byte b => exact inPop_sameConfig h
    | endMark => exact (inPop_sameConfig h).trans ⟨rfl, rfl, rfl⟩

theorem flushSem_sameConfig (s : State) : SameConfig s (flushSem s).state := by
  unfold flushSem
  cases s.dir with
  | encode => exact flushEncFrom_sameConfig 4 s
  | decode =>
    show SameConfig s (endDec s).state
    unfold endDec
    split
    · exact endItem_sameConfig s
    · exact .refl s

/-- The pseudocode of INIT leaves its fields in DIR, PMODE and APM_EN, primed or not (43_commands.md R152). -/
theorem initSem_config (d : Dir) (m : BitVec 2) (a : Bool) (s : State) :
    (initSem d m a s).state.dir = d ∧ (initSem d m a s).state.pmode = m ∧ (initSem d m a s).state.apmEn = a := by
  cases d with
  | encode => exact ⟨rfl, rfl, rfl⟩
  | decode =>
    obtain ⟨hd, hm, ha⟩ := primeFrom_sameConfig 4 (beginSession .decode m a s)
    exact ⟨hd, hm, ha⟩

/-- No pseudocode but INIT's writes the configuration. -/
theorem semOf_sameConfig {i : Instr} (hi : ∀ d m a, i ≠ .init d m a) (s : State) : SameConfig s (semOf i s).state := by
  cases i with
  | nop => exact .refl s
  | init d m a => exact absurd rfl (hi d m a)
  | encBit b => exact encPredBit_sameConfig (next := encBitDone) .refl b s
  | encByte v => exact encByteFrom_sameConfig v 8 s
  | decBit => exact decPredBit_sameConfig (next := decBitDone) (fun _ => .refl) s
  | decByte => exact decByteFrom_sameConfig 8 _ s
  | encRaw b p => exact rcEncode_sameConfig (fun _ => ⟨rfl, rfl, rfl⟩) _ _ s
  | decRaw p => exact rcDecode_sameConfig (fun _ _ => ⟨rfl, rfl, rfl⟩) _ s
  | flush => exact flushSem_sameConfig s
  | getp => exact .refl s
  | rdreg r => exact .refl s

theorem resume_sameConfig (c : InProgress) (s : State) : SameConfig s (resume c s) := by
  obtain ⟨w, pos⟩ := c
  cases pos with
  | prime left => exact (primeFrom_sameConfig left s).trans (settle_sameConfig w _)
  | encBit => exact (resumePredBit_sameConfig (next := encBitDone) .refl _ s).trans (settle_sameConfig w _)
  | encByte k =>
    exact (resumePredBit_sameConfig (encByteFrom_sameConfig (w.extractLsb' 0 8) k) _ s).trans (settle_sameConfig w _)
  | decBit y => exact (resumePredBit_sameConfig (next := decBitDone y) .refl y s).trans (settle_sameConfig w _)
  | decByte k acc y =>
    exact (resumePredBit_sameConfig (decByteFrom_sameConfig k (pushBit acc y)) y s).trans (settle_sameConfig w _)
  | encRaw => exact (renormThen_sameConfig (fun _ => ⟨rfl, rfl, rfl⟩) s).trans (settle_sameConfig w _)
  | decRaw y => exact (renormThen_sameConfig (fun _ => ⟨rfl, rfl, rfl⟩) s).trans (settle_sameConfig w _)
  | flushEnc left => exact (flushEncFrom_sameConfig left s).trans (settle_sameConfig w _)
  | flushDec => exact (endItem_sameConfig s).trans (settle_sameConfig w _)
  | respond st data => exact respond_sameConfig w st data s

theorem executeIllegal_sameConfig (w : Word) (e : DecodeError) (s : State) : SameConfig s (executeIllegal w e s) := by
  unfold executeIllegal
  cases checkIllegal w e s with
  | none => exact respond_sameConfig _ _ _ _
  | some f => exact (faultEntry_sameConfig f s).trans (respond_sameConfig _ _ _ _)

/-- What a command leaves of the configuration: all of it, unless it is an INIT whose checks pass, which leaves its fields. -/
theorem execute_config (i : Instr) (s : State) :
    SameConfig s (execute i (semOf i) s) ∨
    ∃ d m a, i = .init d m a ∧ check i s = .ok ∧
      (execute i (semOf i) s).dir = d ∧ (execute i (semOf i) s).pmode = m ∧ (execute i (semOf i) s).apmEn = a := by
  rcases execute_cases i (semOf i) s with ⟨-, he⟩ | ⟨f, -, he⟩ | ⟨hc, he⟩ <;> rw [he]
  · exact .inl (respond_sameConfig _ _ _ _)
  · exact .inl ((faultEntry_sameConfig f s).trans (respond_sameConfig _ _ _ _))
  · have hset := settle_sameConfig (encode i) (semOf i s)
    by_cases hi : ∃ d m a, i = .init d m a
    · obtain ⟨d, m, a, rfl⟩ := hi
      obtain ⟨hd, hm, ha⟩ := initSem_config d m a s
      exact .inr ⟨d, m, a, rfl, hc, hset.dir.trans hd, hset.pmode.trans hm, hset.apmEn.trans ha⟩
    · exact .inl ((semOf_sameConfig (fun d m a e => hi ⟨d, m, a, e⟩) s).trans hset)

/-- The fields of a command whose checks pass are legal (60_exceptions.md R191 step 3). -/
theorem fieldsLegal_of_check {i : Instr} {s : State} (h : check i s = .ok) : fieldsLegal i = true := by
  by_contra hf
  rw [Bool.not_eq_true] at hf
  unfold check at h
  rw [if_pos hf] at h
  split at h <;> cases h

/-- Settles O15: of the four things a step can be, only an INIT whose checks pass writes the configuration. -/
theorem onlyInitWritesTheConfiguration : Obligations.OnlyInitWritesTheConfiguration := by
  intro s t hst hne
  have changed : ¬ SameConfig s t := fun h => by
    obtain ⟨hd, hm, ha⟩ := h
    simp [hd, hm, ha] at hne
  rcases step_cases s with ⟨c, -, h⟩ | ⟨-, -, h⟩ | ⟨w, rest, i, hc, hq, hdec, h⟩ | ⟨w, rest, e, -, -, -, h⟩
  · cases hst.symm.trans h
    exact absurd (resume_sameConfig c s) changed
  · cases hst.symm.trans h
    exact absurd (.refl s) changed
  · rw [exec_eq] at h
    cases hst.symm.trans h
    rcases execute_config i { s with cmdq := rest } with hs | ⟨d, m, a, rfl, hok, hd, hm, ha⟩
    · exact absurd ⟨hs.dir, hs.pmode, hs.apmEn⟩ changed
    · exact ⟨w, d, m, a, by simp [takenWord, hc, hq], hdec, fieldsLegal_of_check hok, hd, hm, ha⟩
  · cases hst.symm.trans h
    exact absurd (executeIllegal_sameConfig w e { s with cmdq := rest }) fun hs => changed ⟨hs.dir, hs.pmode, hs.apmEn⟩

/-! ## STATUS -/

/-- STATUS as the number its fields make (10_state.md R15). -/
theorem toNat_statusReg (s : State) :
    (statusReg s).toNat = s.faultcode.toNat * 65536 + bitPos s % 8 * 256 + s.apmEn.toNat * 32 + s.pmode.toNat * 8 +
      (dirValue s.dir).toNat * 4 + s.sstate.value.toNat := by
  unfold statusReg
  simp only [Laws.EncodingForm.toNat_append, BitVec.toNat_ofBool, BitVec.toNat_ofNat]
  omega

/-- A field of STATUS is the number at its place. -/
theorem extractLsb'_statusReg {s : State} {k n : Nat} {v : BitVec n}
    (h : (statusReg s).toNat / 2 ^ k % 2 ^ n = v.toNat) : (statusReg s).extractLsb' k n = v := by
  apply BitVec.eq_of_toNat_eq
  rw [BitVec.extractLsb'_toNat, Nat.shiftRight_eq_div_pow, h]

theorem bitPos_lt (s : State) : bitPos s < 8 := by
  unfold bitPos floorLog2
  by_cases h : s.c0.toNat = 0
  · simp [h]
  · exact (Nat.log2_lt h).2 s.c0.isLt

/-- Settles O57: each field of the number that STATUS is, cut out at its place. -/
theorem statusRegisterHasItsFields : Obligations.StatusRegisterHasItsFields := by
  intro s
  have hs := s.sstate.value.isLt
  have hd := (dirValue s.dir).isLt
  have hm := s.pmode.isLt
  have ha : s.apmEn.toNat < 2 := s.apmEn.toNat_lt
  have hb := bitPos_lt s
  have hn := toNat_statusReg s
  have hf := s.faultcode.isLt
  refine ⟨?_, ?_, ?_, ?_, ?_, fun _ => ?_, ?_, ?_, ?_⟩
  · rw [extractLsb'_statusReg (v := s.sstate.value) (by omega)]
    cases s.sstate <;> rfl
  · rw [extractLsb'_statusReg (v := dirValue s.dir) (by omega)]
    cases s.dir <;> rfl
  · exact extractLsb'_statusReg (by omega)
  · exact extractLsb'_statusReg (by rw [BitVec.toNat_ofBool]; omega)
  · exact extractLsb'_statusReg (show _ = 0 by omega)
  · rw [BitVec.extractLsb'_toNat, Nat.shiftRight_eq_div_pow]
    show _ = bitPos s
    omega
  · exact extractLsb'_statusReg (show _ = 0 by omega)
  · exact extractLsb'_statusReg (by omega)
  · exact extractLsb'_statusReg (show _ = 0 by omega)

/-! ## RDREG -/

/-- The twelve registers in the order of their numbers (10_state.md R23). -/
def registerTable (s : State) : List Word :=
  [0x41524331#32, statusReg s, s.low, s.high, s.code, 0#24 ++ s.c0, s.c4, s.bitcount.extractLsb' 0 32,
    s.bitcount.extractLsb' 32 32, s.bytesIn, s.bytesOut, 0x0805140C#32]

theorem readReg_eq_registerTable {reg : BitVec 8} (h : reg.toNat < 0x0C) (s : State) :
    readReg reg s = (registerTable s).getD reg.toNat 0#32 := by
  have hc0 : s.c0.setWidth 32 = 0#24 ++ s.c0 := BitVec.setWidth_eq_append (by omega)
  unfold readReg registerTable
  rw [hc0]
  generalize reg.toNat = n at h
  interval_cases n <;> rfl

theorem check_rdreg (reg : BitVec 8) (s : State) :
    check (.rdreg reg) s = if reg.toNat < 0x0C then .ok else .fault .illegalField := by
  by_cases h : reg.toNat < 0x0C <;> simp [check, fieldsLegal, regLegal, allowedInFault, Instr.opc, h]

/-- Settles O56: the check passes exactly the twelve numbers, and each reads its row of the table. -/
theorem rdregOnlyAnswersTheRegister : Obligations.RdregOnlyAnswersTheRegister := by
  intro s reg
  refine ⟨fun h hr => ?_, fun h => ?_⟩
  · have hc : check (.rdreg reg) s = .ok := by rw [check_rdreg, if_pos h]
    rw [exec_eq, execute_of_ok hc]
    show Host.Outcome.next (respond _ statusOk (readReg reg s) s) = _
    rw [respond_of_room hr, readReg_eq_registerTable h]
    rfl
  · rw [check_rdreg, if_neg (by omega)]

end Sys2Proof.Machine
end

section
/-! PROOFS. Bounds of the probabilities, and the ranges of the tables under training (41_predictors.md, 42_mixer_apm.md). -/

namespace Sys2Proof.Machine

/-! ## Probabilities -/

theorem sq_le (i : Nat) : sq i ≤ 4094 := by
  have hall : ∀ v ∈ sqTable, v ≤ 4094 := by decide
  unfold sq
  rw [List.getD_eq_getElem?_getD]
  cases h : sqTable[i]? with
  | none => simp
  | some v => exact hall v (List.mem_of_getElem? h)

/-- An interpolation between two values lies below their common bound. -/
theorem interpolate_le {a b c n w : Nat} (ha : a ≤ c) (hb : b ≤ c) (hw : w ≤ n) : a * (n - w) + b * w ≤ c * n :=
  calc a * (n - w) + b * w ≤ c * (n - w) + c * w := Nat.add_le_add (Nat.mul_le_mul_right _ ha) (Nat.mul_le_mul_right _ hb)
    _ = c * n := by rw [← Nat.mul_add, Nat.sub_add_cancel hw]

theorem squash_le (d : Int) : squash d ≤ 4094 := by
  unfold squash
  dsimp only
  have h := interpolate_le (n := 128) (w := (clamp d (-2047) 2047 % 128).toNat)
    (sq_le (asr (clamp d (-2047) 2047) 7 + 16).toNat) (sq_le ((asr (clamp d (-2047) 2047) 7 + 16).toNat + 1)) (by omega)
  omega

theorem stretch_bounds (p : Nat) : -2047 ≤ stretch p ∧ stretch p ≤ 2047 := by
  unfold stretch
  omega

theorem ctrP12_le (c : Counter) : ctrP12 c ≤ 4095 := by
  have := c.p.isLt
  unfold ctrP12
  omega

theorem apmProb_le (s : State) : apmProb s ≤ 4095 := by
  have h := interpolate_le (c := 65535) (n := 128) (w := apmWt s)
    (Nat.le_of_lt_succ (s.mem.readApm s.c0.toNat (apmLo s)).isLt)
    (Nat.le_of_lt_succ (s.mem.readApm s.c0.toNat (apmLo s + 1)).isLt) (by unfold apmWt; omega)
  unfold apmProb
  omega

theorem mixPredict_le (s : State) : mixPredict s ≤ 4095 := by
  have h1 : mixProb s ≤ 4094 := squash_le _
  have h2 := apmProb_le s
  unfold mixPredict apmGuard
  split
  · split
    · omega
    · split <;> omega
  · omega

/-- Every probability a predicted bit is coded with leaves both parts of the interval a place (40_range_coder.md R80). -/
theorem predict_le (s : State) : predict s ≤ 4095 := by
  unfold predict
  split
  · exact ctrP12_le _
  · exact mixPredict_le s

/-! ## The tables under training -/

/-- Every counter and weight is in its range (10_state.md R27, R28). -/
def Memory.InRange (m : Memory) : Prop :=
  (∀ t i, (m.readCounter t i).n.toNat ≤ 30) ∧ ∀ k i, 1024 ≤ (m.readWeight k i).toInt ∧ (m.readWeight k i).toInt ≤ 524287

theorem Memory.inRange_initial : Memory.initial.InRange :=
  ⟨fun t i => by simp [counterInit], fun k i => by rw [Memory.readWeight_initial]; decide⟩

theorem ctrUpdate_n_le (c : Counter) (y : Bool) : (ctrUpdate c y).n.toNat ≤ 30 := by
  simp only [ctrUpdate, BitVec.toNat_ofNat]
  omega

theorem weightUpdate_bounds (w x err : Int) : 1024 ≤ weightUpdate w x err ∧ weightUpdate w x err ≤ 524287 := by
  unfold weightUpdate clamp weightMin weightMax
  omega

/-- A weight in its range fits the 20 bits that hold it (10_state.md R28). -/
theorem toInt_weightUpdate (w x err : Int) : (BitVec.ofInt 20 (weightUpdate w x err)).toInt = weightUpdate w x err := by
  have h := weightUpdate_bounds w x err
  exact BitVec.toInt_ofInt_eq_self (by omega) (by omega) (by omega)

/-- Every context index lies in its table (10_state.md R30). -/
theorem ctxIndex_lt_tableSize (t : TableId) (s : State) : ctxIndex t s < tableSize t := by
  cases t with
  | t0 => exact s.c0.isLt
  | t1 => exact (prevByte s ++ s.c0 : BitVec 16).isLt
  | t2 => exact BitVec.isLt _
  | t3 => exact BitVec.isLt _
  | t4 => exact BitVec.isLt _

theorem weightSet_lt (s : State) : weightSet s < 8 := (s.c4.extractLsb' 5 3).isLt

theorem apmBucket_lt (s : State) : apmBucket s < 33 := by
  have h := stretch_bounds (mixProb s)
  unfold apmBucket apmLo apmWt apmCoord
  omega

theorem lane_lt {l : Nat × TableId} (h : l ∈ mixerInputs) : l.1 < 5 :=
  (by decide : ∀ l ∈ mixerInputs, l.1 < 5) l h

/-- A weight read after a weight write is the weight written or the one before, whatever its set and input. -/
theorem Memory.readWeight_writeWeight_or {m : Memory} (h : m.wf) (k i l j : Nat) (v : BitVec 20) :
    (m.writeWeight k i v).readWeight l j = v ∨ (m.writeWeight k i v).readWeight l j = m.readWeight l j := by
  obtain ⟨-, -, -, -, -, hw, -⟩ := h
  unfold Memory.readWeight
  rw [Memory.writeWeight_base, Memory.writeWeight, cellsRead_cellsWrite hw.1]
  split
  · exact .inl rfl
  · exact .inr rfl

/-- Tables in canonical form with every entry in its range. -/
structure Memory.Sound (m : Memory) : Prop where
  wf : m.wf
  range : m.InRange

theorem Memory.Sound.trainCounter {m : Memory} (h : m.Sound) (t : TableId) (y : Bool) (s : State) :
    (trainCounter t y s m).Sound where
  wf := m.wf_writeCounter h.wf t _ _ (ctxIndex_lt_tableSize t s)
  range := by
    refine ⟨fun u i => ?_, fun k i => ?_⟩
    · unfold Machine.trainCounter
      rw [m.readCounter_writeCounter h.wf]
      split
      · exact ctrUpdate_n_le _ y
      · exact h.range.1 u i
    · unfold Machine.trainCounter
      rw [m.readWeight_writeCounter]
      exact h.range.2 k i

theorem Memory.Sound.writeWeight {m : Memory} (h : m.Sound) {k i : Nat} {v : BitVec 20} (hk : k < 8) (hi : i < 5)
    (hv : 1024 ≤ v.toInt ∧ v.toInt ≤ 524287) : (m.writeWeight k i v).Sound where
  wf := m.wf_writeWeight h.wf k i v hk hi
  range := by
    refine ⟨fun t j => ?_, fun l j => ?_⟩
    · rw [m.readCounter_writeWeight]
      exact h.range.1 t j
    · rcases m.readWeight_writeWeight_or h.wf k i l j v with e | e <;> rw [e]
      · exact hv
      · exact h.range.2 l j

theorem Memory.Sound.writeApm {m : Memory} (h : m.Sound) {r j : Nat} (v : BitVec 16) (hr : r < 256) (hj : j < 33) :
    (m.writeApm r j v).Sound where
  wf := m.wf_writeApm h.wf r j v hr hj
  range := by
    refine ⟨fun t i => ?_, fun k i => ?_⟩
    · rw [m.readCounter_writeApm]
      exact h.range.1 t i
    · rw [m.readWeight_writeApm]
      exact h.range.2 k i

theorem Memory.Sound.trainCounters {m : Memory} (h : m.Sound) (y : Bool) (s : State) : (trainCounters y s m).Sound :=
  List.foldlRecOn (motive := Memory.Sound) mixerInputs _ h fun _ hm l _ => hm.trainCounter l.2 y s

theorem Memory.Sound.trainWeights {m : Memory} (h : m.Sound) (y : Bool) (s : State) : (trainWeights y s m).Sound :=
  List.foldlRecOn (motive := Memory.Sound) mixerInputs _ h fun m hm l hl =>
    hm.writeWeight (weightSet_lt s) (lane_lt hl) (by rw [toInt_weightUpdate]; exact weightUpdate_bounds _ _ _)

theorem Memory.Sound.trainApm {m : Memory} (h : m.Sound) (y : Bool) (s : State) : (trainApm y s m).Sound := by
  unfold Machine.trainApm
  split
  · exact h.writeApm _ s.c0.isLt (apmBucket_lt s)
  · exact h

/-- Training keeps the tables canonical and in range, in both modes. -/
theorem trainedMem_sound {s : State} (h : s.mem.Sound) (y : Bool) : (trainedMem y s).Sound := by
  unfold trainedMem
  split
  · exact h.trainCounter .t1 y s
  · exact ((h.trainCounters y s).trainWeights y s).trainApm y s

/-- The context keeps its leading 1 past a bit (10_state.md R18). -/
theorem ctxUpdate_c0_ne_zero {s : State} (h : s.c0 ≠ 0#8) (y : Bool) : (ctxUpdate y s).c0 ≠ 0#8 := by
  have h1 : s.c0.toNat ≠ 0 := fun e => h (BitVec.eq_of_toNat_eq e)
  unfold ctxUpdate
  dsimp only
  split
  · simp
  · intro e
    have := congrArg BitVec.toNat e
    simp only [BitVec.toNat_ofNat] at this
    omega

end Sys2Proof.Machine
end

section
/-! PROOFS. The invariant of the machine: its clauses apart from the command in progress, kept through every part of a command, and
what each command leaves for its response (40_range_coder.md R90, R94; 43_commands.md R150, R167). -/

namespace Sys2Proof.Machine

/-! ## The invariant and the command in progress -/

/-- The clauses of the invariant that do not look at the command in progress. -/
structure BaseOk (s : State) : Prop where
  mode : ModeOk s
  context : ContextOk s
  tables : TablesOk s
  faultcode : FaultcodeOk s
  code : CodeOk s
  queues : QueuesOk s
  canonical : s.mem.wf

/-- The invariant where no command is inside a renormalisation. -/
structure Boundary (s : State) : Prop extends BaseOk s where
  normalised : s.sstate ≠ .fault → Normalised s

/-- What the invariant asks where the command of the word `w` holds at `pos`. -/
structure HeldAt (w : Word) (pos : HoldPoint) (s : State) : Prop extends BaseOk s where
  command : HeldCommandOk s w pos
  interval : s.sstate ≠ .fault → if pos.inRenorm = true then topSettled s ∧ s.low ≤ s.high else Normalised s

theorem Inv.base {s : State} (h : Inv s) : BaseOk s where
  mode := h.mode
  context := h.context
  tables := h.tables
  faultcode := h.faultcode
  code := h.code
  queues := h.queues
  canonical := h.canonical

theorem Inv.boundary {s : State} (h : Inv s) (hc : s.cip = none) : Boundary s where
  toBaseOk := h.base
  normalised := by simpa [IntervalOk, hc] using h.interval

theorem Inv.heldAt {s : State} {c : InProgress} (h : Inv s) (hc : s.cip = some c) : HeldAt c.word c.pos s where
  toBaseOk := h.base
  command := by simpa [CommandOk, hc] using h.command
  interval := by simpa [IntervalOk, hc] using h.interval

/-- Removing the head of CMDQ keeps the invariant of a command boundary. -/
theorem Boundary.take {s : State} (h : Boundary s) (rest : List Word) : Boundary { s with cmdq := rest } :=
  ⟨⟨h.mode, h.context, h.tables, h.faultcode, h.code, h.queues, h.canonical⟩, h.normalised⟩

theorem FaultCode.value_bounds (f : FaultCode) : 1 ≤ f.value.toNat ∧ f.value.toNat ≤ 0x0B := by cases f <;> decide

/-- The response of a command whose state is sound (30_encoding.md R66): complete, or held at the response push. -/
theorem Boundary.respond {s : State} (h : Boundary s) (w : Word) {st : BitVec 8} (hst : st.toNat ≤ 0x0C) (data : Word) :
    Inv (respond w st data s) := by
  obtain ⟨⟨hm, hx, ht, hf, hc, hq, hw⟩, hn⟩ := h
  rcases respond_cases w st data s with ⟨hr, he⟩ | ⟨-, he⟩ <;> rw [he]
  · exact ⟨hm, hx, ht, hf, trivial, hn, hc, ⟨by simpa using hr, hq.2⟩, hw⟩
  · exact ⟨hm, hx, ht, hf, hst, hn, hc, hq, hw⟩

/-- What a raised fault needs of the state it stops in: the rest becomes free (60_exceptions.md R195, R196). -/
structure Raisable (s : State) : Prop where
  coding : s.sstate = .coding
  mode : ModeOk s
  queues : QueuesOk s

/-- Fault entry from outside FAULT state needs only what it keeps exact. -/
theorem boundary_faultEntry_of_ne {s : State} (f : FaultCode) (hs : s.sstate ≠ .fault) (hm : ModeOk s) (hq : QueuesOk s) :
    Boundary (faultEntry f s) := by
  rw [faultEntry_of_ne hs]
  exact {
    mode := hm
    context := fun h => absurd rfl h
    tables := fun h => by rcases h with h | h <;> cases h
    faultcode := by simpa only [FaultcodeOk, if_pos] using f.value_bounds
    code := fun h => absurd rfl h
    queues := hq
    canonical := Memory.wf_unspecified _
    normalised := fun h => absurd rfl h }

theorem Boundary.faultEntry {s : State} (h : Boundary s) (f : FaultCode) : Boundary (faultEntry f s) := by
  by_cases hs : s.sstate = .fault
  · rwa [faultEntry_of_fault hs]
  · exact boundary_faultEntry_of_ne f hs h.mode h.queues

/-- What the pseudocode of the word `w` has to leave for its response, its hold or its fault. -/
def ResultOk (w : Word) : Result → Prop
  | .done _ s => Boundary s
  | .held pos s => HeldAt w pos s
  | .raised _ s => Raisable s

theorem ResultOk.settle {w : Word} {r : Result} (h : ResultOk w r) : Inv (settle w r) := by
  cases r with
  | done data s => exact h.respond w (by decide) data
  | held pos s =>
    obtain ⟨⟨hm, hx, ht, hf, hc, hq, hw⟩, hcmd, hi⟩ := h
    exact ⟨hm, hx, ht, hf, by cases pos <;> exact hcmd, hi, hc, hq, hw⟩
  | raised f s =>
    obtain ⟨hs, hm, hq⟩ := h
    have hf := f.value_bounds
    exact (boundary_faultEntry_of_ne f (by simp [hs]) hm hq).respond w (by omega) 0#32

/-! ## Renormalisation -/

/-- The state inside a renormalisation: LOW may meet HIGH for a moment (log entry 9). -/
structure Inside (s : State) : Prop extends BaseOk s where
  coding : s.sstate = .coding
  ordered : s.low ≤ s.high

/-- A change of the coder alone keeps a state inside, if it keeps the order of the interval, the clause about CODE and the queues. -/
theorem BaseOk.inside {s t : State} (h : BaseOk s) (hs : s.sstate = .coding) (same : SameButCoder s t) (hq : QueuesOk t)
    (hord : t.low ≤ t.high) (henc : s.dir = .encode → t.code = 0#32)
    (hdec : s.dir = .decode → t.low ≤ t.code ∧ t.code ≤ t.high) : Inside t where
  mode := by simpa only [ModeOk, same.pmode, same.apmEn] using h.mode
  context := by simpa only [ContextOk, same.sstate, same.c0] using h.context
  tables := by simpa only [TablesOk, same.sstate, same.mem] using h.tables
  faultcode := by simpa only [FaultcodeOk, same.sstate, same.faultcode] using h.faultcode
  code := by simpa only [CodeOk, same.dir] using fun _ => ⟨henc, hdec⟩
  queues := hq
  canonical := same.mem ▸ h.canonical
  coding := same.sstate.trans hs
  ordered := hord

/-- CODE of an open session. -/
theorem BaseOk.code_of_coding {s : State} (h : BaseOk s) (hs : s.sstate = .coding) :
    (s.dir = .encode → s.code = 0#32) ∧ (s.dir = .decode → s.low ≤ s.code ∧ s.code ≤ s.high) :=
  h.code (by simp [hs])

theorem outPush_queuesOk {b : Byte} {s t : State} (h : outPush b s = some t) (hq : QueuesOk s) : QueuesOk t := by
  obtain ⟨hroom, rfl⟩ := outPush_eq_some h
  exact ⟨hq.1, by simpa using hroom⟩

theorem inPop_queuesOk {x : InItem} {s t : State} (h : inPop s = .item x t) (hq : QueuesOk s) : QueuesOk t := by
  cases x with
  | byte b => obtain ⟨rest, -, rfl⟩ := inPop_byte h; exact hq
  | endMark => obtain ⟨rest, -, rfl⟩ := inPop_endMark h; exact hq

/-- Shifting out a settled byte keeps two points of the interval in order, whatever bytes come in below them. -/
theorem shiftIn_le {x y : Word} (hxy : x ≤ y) (htop : x.toNat / 16777216 = y.toNat / 16777216) {a b : Byte} (hab : a ≤ b) :
    (x <<< 8) ||| a.setWidth 32 ≤ (y <<< 8) ||| b.setWidth 32 := by
  rw [BitVec.le_def] at *
  rw [toNat_shiftIn, toNat_shiftIn]
  omega

theorem shiftLow_eq (x : Word) : x <<< 8 = (x <<< 8) ||| (0#8).setWidth 32 := by simp

theorem shiftBounds_le {x y : Word} (hxy : x ≤ y) (htop : x.toNat / 16777216 = y.toNat / 16777216) :
    x <<< 8 ≤ (y <<< 8) ||| 0xFF#32 := by
  rw [shiftLow_eq]
  exact shiftIn_le hxy htop (b := 0xFF#8) (by decide)

/-- Each round keeps LOW ≤ HIGH and, in a decode session, CODE between them (40_range_coder.md R94). -/
theorem RenormRound.inside {s t : State} (h : RenormRound s t) (hs : Inside s) : Inside t := by
  have hsame := h.same
  obtain ⟨hb, hcod, hord⟩ := hs
  obtain ⟨henc, hdec⟩ := hb.code_of_coding hcod
  cases h with
  | emit htop hd hp =>
    have hq := outPush_queuesOk hp hb.queues
    obtain ⟨-, rfl⟩ := outPush_eq_some hp
    rw [topSettled_iff] at htop
    exact hb.inside hcod hsame hq (shiftBounds_le hord htop) henc (by simp [hd])
  | @take t b htop hd hp =>
    have hq := inPop_queuesOk hp hb.queues
    obtain ⟨rest, -, rfl⟩ := inPop_byte hp
    rw [topSettled_iff] at htop
    obtain ⟨hlo, hup⟩ := hdec hd
    have hlc : s.low.toNat / 16777216 = s.code.toNat / 16777216 := by
      rw [BitVec.le_def] at hlo hup
      omega
    refine hb.inside hcod hsame hq (shiftBounds_le hord htop) (by simp [hd]) fun _ => ⟨?_, ?_⟩
    · show s.low <<< 8 ≤ (s.code <<< 8) ||| b.setWidth 32
      rw [shiftLow_eq]
      exact shiftIn_le hlo hlc (BitVec.le_def.2 (Nat.zero_le _))
    · exact shiftIn_le hup (hlc ▸ htop) (b := 0xFF#8) (BitVec.le_def.2 (Nat.le_of_lt_succ b.isLt))
  | truncate htop hwid hcut =>
    refine hb.inside hcod hsame hb.queues ?_ henc fun hd => ⟨(hdec hd).1, BitVec.not_lt.1 fun hlt => hcut ⟨hd, hlt⟩⟩
    rw [BitVec.le_def, truncateHigh_low, truncateHigh_high, toNat_truncate]
    omega

theorem RenormRounds.inside {s t : State} (h : RenormRounds s t) (hs : Inside s) : Inside t := by
  induction h with
  | refl s => exact hs
  | head hr _ ih => exact ih (hr.inside hs)

/-- How a renormalisation ends that starts inside an ordered interval. -/
def RenormOk : Renorm → Prop
  | .settled t => Boundary t
  | .held t => Inside t ∧ topSettled t
  | .raised _ t => Raisable t

theorem renorm_ok {s : State} (hs : Inside s) : RenormOk (renorm renormFuel s) := by
  obtain ⟨t, hr, he⟩ := renorm_cases s
  have ht := hr.inside hs
  generalize renorm renormFuel s = r at he
  cases he with
  | settled htop hw => exact ⟨ht.toBaseOk, fun _ => ⟨htop, Nat.le_of_not_lt hw⟩⟩
  | full htop _ _ => exact ⟨ht, htop⟩
  | empty htop _ _ => exact ⟨ht, htop⟩
  | eof _ _ hp =>
    have hq := inPop_queuesOk hp ht.queues
    obtain ⟨rest, -, rfl⟩ := inPop_endMark hp
    exact ⟨ht.coding, ht.mode, hq⟩
  | range _ _ _ _ => exact ⟨ht.coding, ht.mode, ht.queues⟩

/-- At a hold point of a renormalisation the record depends only on the session. -/
theorem HeldCommandOk.congr {s t : State} {w : Word} {pos : HoldPoint} (h : HeldCommandOk s w pos) (hpos : pos.inRenorm = true)
    (same : SameButCoder s t) : HeldCommandOk t w pos := by
  cases pos <;> simp_all [HeldCommandOk, HoldPoint.inRenorm, same.sstate, same.dir, same.pmode]

/-- A renormalisation that starts inside an ordered interval ends as the pseudocode may end, if what follows it does. -/
theorem renormThen_ok {s : State} {w : Word} {pos : HoldPoint} {next : State → Result} (hs : Inside s)
    (hpos : pos.inRenorm = true) (hcmd : HeldCommandOk s w pos)
    (hnext : ∀ t, Boundary t → SameButCoder s t → ResultOk w (next t)) : ResultOk w (renormThen pos next s) := by
  have hok := renorm_ok hs
  have hsame := renorm_same s
  unfold renormThen
  cases hr : renorm renormFuel s <;> rw [hr] at hok hsame
  case settled t => exact hnext t hok hsame
  case held t =>
    obtain ⟨hin, htop⟩ := hok
    exact ⟨hin.toBaseOk, hcmd.congr hpos hsame, fun _ => by rw [if_pos hpos]; exact ⟨htop, hin.ordered⟩⟩
  case raised f t => exact hok

/-! ## Subdivision -/

/-- The split point lies in the interval and below its upper end (40_range_coder.md R83). -/
theorem xmid_bounds {low high : Word} (h : low < high) {p : Nat} (hp : p ≤ 4095) :
    low.toNat ≤ (xmid low high p).toNat ∧ (xmid low high p).toNat < high.toNat := by
  rw [BitVec.lt_def] at h
  have hhi := high.isLt
  unfold xmid
  generalize hr : high.toNat - low.toNat = r
  have h1 : r / 4096 * p ≤ r / 4096 * 4095 := Nat.mul_le_mul_left _ hp
  have h2 : r % 4096 * p ≤ r % 4096 * 4095 := Nat.mul_le_mul_left _ hp
  have h3 : low.toNat + r / 4096 * p + r % 4096 * p / 4096 < high.toNat := by omega
  rw [BitVec.toNat_ofNat, Nat.mod_eq_of_lt (lt_trans h3 hhi)]
  omega

/-- The part of a bit lies in the interval, and CODE in the part of the bit it selects (R81, R86). -/
theorem narrow_inside {s : State} (hs : BaseOk s) (hcod : s.sstate = .coding) (hlt : s.low < s.high) {p : Nat} (hp : p ≤ 4095)
    {y : Bool} (hy : s.dir = .decode → y = decodedBit p s) : Inside (narrow y p s) := by
  obtain ⟨henc, hdec⟩ := hs.code_of_coding hcod
  obtain ⟨hlo, hup⟩ := xmid_bounds hlt hp
  have hsucc : (xmid s.low s.high p + 1#32).toNat = (xmid s.low s.high p).toNat + 1 := by
    have := s.high.isLt
    rw [BitVec.toNat_add_of_lt] <;> simp; omega
  have hq : QueuesOk (narrow y p s) := by simpa only [QueuesOk, narrow_respq, narrow_outq, narrow_depths] using hs.queues
  refine hs.inside hcod (narrow_same y p s) hq ?_ (by simpa using henc) fun hd => ?_
  · cases y with
    | true => exact BitVec.le_def.2 hlo
    | false => exact BitVec.le_def.2 (by rw [narrow_low, narrow_high]; simp only [Bool.false_eq_true, if_false]; omega)
  · obtain ⟨hcl, hcu⟩ := hdec hd
    have hsel := hy hd
    cases y with
    | true => exact ⟨hcl, of_decide_eq_true hsel.symm⟩
    | false =>
      have hgt := of_decide_eq_false hsel.symm
      rw [BitVec.not_le, BitVec.lt_def] at hgt
      exact ⟨BitVec.le_def.2 (by show (xmid s.low s.high p + 1#32).toNat ≤ s.code.toNat; omega), hcu⟩

/-! ## Coding commands -/

/-- A state between the bits of an open session of side `d`. -/
structure InSession (d : Dir) (s : State) : Prop extends Boundary s where
  coding : s.sstate = .coding
  side : s.dir = d

/-- The same of a session that predicts. -/
structure InPredicting (d : Dir) (s : State) : Prop extends InSession d s where
  predictor : s.pmode ≠ 0#2

theorem InSession.raisable {d : Dir} {s : State} (h : InSession d s) : Raisable s := ⟨h.coding, h.mode, h.queues⟩

theorem InSession.mem_sound {d : Dir} {s : State} (h : InSession d s) : s.mem.Sound := ⟨h.canonical, h.tables (.inl h.coding)⟩

theorem InSession.of_same {d : Dir} {s t : State} (h : InSession d s) (ht : Boundary t) (same : SameButCoder s t) : InSession d t :=
  ⟨ht, same.sstate.trans h.coding, same.dir.trans h.side⟩

theorem InPredicting.of_same {d : Dir} {s t : State} (h : InPredicting d s) (ht : Boundary t) (same : SameButCoder s t) :
    InPredicting d t :=
  ⟨h.toInSession.of_same ht same, by rw [same.pmode]; exact h.predictor⟩

/-- Training the predictor and counting the bit keep the session. -/
theorem InPredicting.finishPredBit {d : Dir} {s : State} (h : InPredicting d s) (y : Bool) : InPredicting d (finishPredBit y s) := by
  have hm := trainedMem_sound h.mem_sound y
  have hc0 := ctxUpdate_c0_ne_zero (s := { s with mem := trainedMem y s }) (h.context (by simp [h.coding])) y
  unfold Machine.finishPredBit
  rw [train_eq]
  exact {
    mode := by simpa only [ModeOk, countBit_pmode, countBit_apmEn, ctxUpdate_pmode, ctxUpdate_apmEn] using h.mode
    context := fun _ => hc0
    tables := fun _ => by rw [countBit_mem, ctxUpdate_mem]; exact hm.range
    faultcode := by simpa [FaultcodeOk] using h.faultcode
    code := by simpa [CodeOk] using h.code
    queues := by simpa [QueuesOk] using h.queues
    canonical := by rw [countBit_mem, ctxUpdate_mem]; exact hm.wf
    normalised := by simpa [Normalised] using h.normalised
    coding := by simpa using h.coding
    side := by simpa using h.side
    predictor := by simpa using h.predictor }

section Bits

variable {w : Word} {s : State}

/-- One encoded bit, then what follows it (40_range_coder.md R85). -/
theorem rcEncode_ok {pos : HoldPoint} {next : State → Result} (hs : InSession .encode s) {p : Nat} (hp : p ≤ 4095)
    (hpos : pos.inRenorm = true) (hcmd : HeldCommandOk s w pos)
    (hnext : ∀ t, Boundary t → SameButCoder s t → ResultOk w (next t)) (y : Bool) : ResultOk w (rcEncode y p pos next s) := by
  have hsame := narrow_same y p s
  unfold rcEncode
  split
  · rename_i hlt
    have hin : Inside (narrow y p s) := narrow_inside hs.toBaseOk hs.coding hlt hp (by simp [hs.side])
    exact renormThen_ok hin hpos (hcmd.congr hpos hsame) fun t ht hst => hnext t ht (hsame.trans hst)
  · exact hs.raisable

/-- One decoded bit, then what follows it (R86). -/
theorem rcDecode_ok {pos : Bool → HoldPoint} {next : Bool → State → Result} (hs : InSession .decode s) {p : Nat} (hp : p ≤ 4095)
    (hpos : ∀ y, (pos y).inRenorm = true) (hcmd : ∀ y, HeldCommandOk s w (pos y))
    (hnext : ∀ y t, Boundary t → SameButCoder s t → ResultOk w (next y t)) : ResultOk w (rcDecode p pos next s) := by
  have hsame := narrow_same (decodedBit p s) p s
  unfold rcDecode
  split
  · rename_i hlt
    have hin : Inside (narrow (decodedBit p s) p s) := narrow_inside hs.toBaseOk hs.coding hlt hp fun _ => rfl
    exact renormThen_ok hin (hpos _) ((hcmd _).congr (hpos _) hsame) fun t ht hst => hnext _ t ht (hsame.trans hst)
  · exact hs.raisable

/-- One predicted bit of the encoder (43_commands.md R153). -/
theorem encPredBit_ok {pos : HoldPoint} {next : State → Result} (hs : InPredicting .encode s) (hpos : pos.inRenorm = true)
    (hcmd : HeldCommandOk s w pos) (hnext : ∀ t, InPredicting .encode t → ResultOk w (next t)) (y : Bool) :
    ResultOk w (encPredBit y pos next s) :=
  rcEncode_ok hs.toInSession (predict_le s) hpos hcmd (fun _ ht hst => hnext _ ((hs.of_same ht hst).finishPredBit y)) y

/-- One predicted bit of the decoder (R154). -/
theorem decPredBit_ok {pos : Bool → HoldPoint} {next : Bool → State → Result} (hs : InPredicting .decode s)
    (hpos : ∀ y, (pos y).inRenorm = true) (hcmd : ∀ y, HeldCommandOk s w (pos y))
    (hnext : ∀ y t, InPredicting .decode t → ResultOk w (next y t)) : ResultOk w (decPredBit pos next s) :=
  rcDecode_ok hs.toInSession (predict_le s) hpos hcmd fun y _ ht hst => hnext y _ ((hs.of_same ht hst).finishPredBit y)

theorem encByteFrom_ok (hw : opcodeOf w = 0x3#4) (v : Byte) {k : Nat} (hk : k ≤ 8) (hs : InPredicting .encode s) :
    ResultOk w (encByteFrom v k s) := by
  induction k generalizing s with
  | zero => exact hs.toBoundary
  | succ k ih =>
    exact encPredBit_ok (pos := .encByte k) hs rfl ⟨hw, hs.coding, hs.side, hs.predictor, by omega⟩ (fun t ht => ih (by omega) ht) _

theorem decByteFrom_ok (hw : opcodeOf w = 0x5#4) {k : Nat} (hk : k ≤ 8) (acc : Byte) (hs : InPredicting .decode s) :
    ResultOk w (decByteFrom k acc s) := by
  induction k generalizing acc s with
  | zero => exact hs.toBoundary
  | succ k ih =>
    exact decPredBit_ok hs (fun _ => rfl) (fun _ => ⟨hw, hs.coding, hs.side, hs.predictor, by omega⟩)
      fun y t ht => ih (by omega) (pushBit acc y) ht

/-- Counting a raw bit keeps the invariant of a boundary (R159, R160). -/
theorem Boundary.countBit (h : Boundary s) : Boundary (countBit s) :=
  ⟨⟨h.mode, h.context, h.tables, h.faultcode, h.code, h.queues, h.canonical⟩, h.normalised⟩

/-! ## Sessions -/

/-- The whole interval, as reset and INIT leave it, is normalised (40_range_coder.md R82). -/
theorem normalised_of_open (hlow : s.low = 0x00000000#32) (hhigh : s.high = 0xFFFFFFFF#32) : Normalised s := by
  unfold Normalised topSettled
  rw [hlow, hhigh]
  decide

/-- INIT with legal fields opens a sound session from any state whose queues fit (R152). -/
theorem beginSession_inSession (d : Dir) {m : BitVec 2} {a : Bool} (hl : initFieldsLegal m a = true) (hq : QueuesOk s) :
    InSession d (beginSession d m a s) where
  mode := by
    show m ≠ 3#2 ∧ (a = true → m = 2#2)
    simpa [initFieldsLegal, imp_iff_not_or] using hl
  context := fun _ => (by decide : (1#8) ≠ 0#8)
  tables := fun _ => Memory.inRange_initial
  faultcode := rfl
  code := fun _ => ⟨fun _ => rfl, fun _ => (by decide : (0x00000000#32) ≤ 0x00000000#32 ∧ 0x00000000#32 ≤ 0xFFFFFFFF#32)⟩
  queues := hq
  canonical := Memory.wf_initial
  normalised := fun _ => normalised_of_open rfl rfl
  coding := rfl
  side := rfl

/-- While the whole interval is open, any four bytes are a legal CODE (40_range_coder.md R88). -/
theorem InSession.shiftCode (h : InSession .decode s) (hlow : s.low = 0x00000000#32) (hhigh : s.high = 0xFFFFFFFF#32) (b : Byte) :
    InSession .decode (shiftCode b s) where
  mode := h.mode
  context := h.context
  tables := h.tables
  faultcode := h.faultcode
  code := fun _ => by
    rw [shiftCode_dir, shiftCode_low, shiftCode_high, hlow, hhigh]
    exact ⟨by simp [h.side], fun _ => ⟨BitVec.le_def.2 (Nat.zero_le _), BitVec.le_def.2 (Nat.le_of_lt_succ (BitVec.isLt _))⟩⟩
  queues := h.queues
  canonical := h.canonical
  normalised := h.normalised
  coding := h.coding
  side := h.side

/-- The streams and their counts are no part of a session but for the room in OUTQ. -/
theorem InSession.withStreams {d : Dir} (h : InSession d s) (inq : List InItem) (bytesIn : Word) (outq : List Byte)
    (bytesOut : Word) (hq : s.respq.length ≤ s.depths.resp ∧ outq.length ≤ s.depths.out) :
    InSession d { s with inq := inq, bytesIn := bytesIn, outq := outq, bytesOut := bytesOut } :=
  ⟨⟨⟨h.mode, h.context, h.tables, h.faultcode, h.code, hq, h.canonical⟩, h.normalised⟩, h.coding, h.side⟩

theorem inPop_inSession {d : Dir} {x : InItem} {t : State} (hp : inPop s = .item x t) (h : InSession d s) : InSession d t := by
  cases x with
  | byte b =>
    obtain ⟨rest, -, rfl⟩ := inPop_byte hp
    exact h.withStreams _ _ _ _ h.queues
  | endMark =>
    obtain ⟨rest, -, rfl⟩ := inPop_endMark hp
    exact h.withStreams _ _ _ _ h.queues

theorem outPush_inSession {d : Dir} {b : Byte} {t : State} (hp : outPush b s = some t) (h : InSession d s) : InSession d t := by
  have hq := outPush_queuesOk hp h.queues
  obtain ⟨-, rfl⟩ := outPush_eq_some hp
  exact h.withStreams _ _ _ _ hq

/-- Ending a session keeps all but SSTATE (43_commands.md R161). -/
theorem InSession.finished {d : Dir} (h : InSession d s) : Boundary { s with sstate := .done } :=
  ⟨⟨h.mode, fun _ => h.context (by simp [h.coding]), fun _ => h.tables (.inl h.coding),
    by simpa [FaultcodeOk, h.coding] using h.faultcode, fun _ => h.code_of_coding h.coding, h.queues, h.canonical⟩,
    fun _ => h.normalised (by simp [h.coding])⟩

/-- A hold of a session outside renormalisation. -/
theorem InSession.heldAt {d : Dir} (h : InSession d s) {pos : HoldPoint} (hpos : pos.inRenorm = false) (hcmd : HeldCommandOk s w pos) :
    HeldAt w pos s :=
  ⟨h.toBaseOk, hcmd, fun hf => by simpa [hpos] using h.normalised hf⟩

theorem primeFrom_ok (hw : opcodeOf w = 0x1#4) {left : Nat} (hleft : left ≤ 4) (hs : InSession .decode s)
    (hlow : s.low = 0x00000000#32) (hhigh : s.high = 0xFFFFFFFF#32) : ResultOk w (primeFrom left s) := by
  induction left generalizing s with
  | zero => exact hs.toBoundary
  | succ left ih =>
    unfold primeFrom
    cases hp : inPop s with
    | empty => exact hs.heldAt rfl ⟨hw, hs.coding, hs.side, by omega, hleft, hlow, hhigh⟩
    | item x t =>
      have ht := inPop_inSession hp hs
      cases x with
      | byte b =>
        obtain ⟨rest, -, rfl⟩ := inPop_byte hp
        exact ih (by omega) (ht.shiftCode hlow hhigh b) hlow hhigh
      | endMark => exact ht.raisable

theorem flushEncFrom_ok (hw : opcodeOf w = 0x8#4) {left : Nat} (hleft : left ≤ 4) (hs : InSession .encode s) :
    ResultOk w (flushEncFrom left s) := by
  induction left generalizing s with
  | zero => exact hs.finished
  | succ left ih =>
    unfold flushEncFrom
    cases hp : outPush (s.low.extractLsb' (8 * left) 8) s with
    | none => exact hs.heldAt rfl ⟨hw, hs.coding, hs.side, by omega, hleft⟩
    | some t => exact ih (by omega) (outPush_inSession hp hs)

theorem endItem_ok (hw : opcodeOf w = 0x8#4) (hs : InSession .decode s) (hcode : s.code = s.low) : ResultOk w (endItem s) := by
  unfold endItem
  cases hp : inPop s with
  | empty => exact hs.heldAt rfl ⟨hw, hs.coding, hs.side, hcode⟩
  | item x t =>
    have ht := inPop_inSession hp hs
    cases x with
    | byte b => exact ht.raisable
    | endMark => exact ht.finished

theorem initSem_ok (hw : opcodeOf w = 0x1#4) (d : Dir) {m : BitVec 2} {a : Bool} (hl : initFieldsLegal m a = true)
    (hq : QueuesOk s) : ResultOk w (initSem d m a s) := by
  have hs := beginSession_inSession d hl hq
  cases d with
  | encode => exact hs.toBoundary
  | decode => exact primeFrom_ok hw le_rfl hs rfl rfl

theorem flushSem_ok (hw : opcodeOf w = 0x8#4) (hs : InSession s.dir s) : ResultOk w (flushSem s) := by
  unfold flushSem
  cases hd : s.dir with
  | encode => exact flushEncFrom_ok hw le_rfl (hd ▸ hs)
  | decode =>
    show ResultOk w (endDec s)
    unfold endDec
    split
    · exact endItem_ok hw (hd ▸ hs) ‹_›
    · exact hs.raisable

end Bits

/-! ## Commands and steps -/

/-- What the checks of 60_exceptions.md R191 ask of a command that FAULT state refuses. -/
structure SessionChecks (i : Instr) (s : State) : Prop where
  coding : s.sstate = .coding
  side : sideOf i = none ∨ sideOf i = some s.dir
  predictor : usesPredictor i = true → s.pmode ≠ 0#2
  aligned : isByteCommand i = true → s.c0 = 1#8
  prob : rawProb i ≠ some 0#12

theorem sessionChecks_of_check {i : Instr} {s : State} (h : check i s = .ok) (hi : allowedInFault i.opc = false) :
    SessionChecks i s := by
  unfold check at h
  split_ifs at h with hrefused hfields hallowed hcoding hside hpred hbyte hprob
  · rw [hi] at hallowed
    cases hallowed
  · exact {
      coding := not_not.1 hcoding
      side := by rwa [not_and_or, not_not, not_not] at hside
      predictor := fun hu hm => hpred ⟨hu, hm⟩
      aligned := fun hu => by_contra fun hc => hbyte ⟨hu, hc⟩
      prob := hprob }

/-- From a command boundary every command whose checks pass ends, holds or faults in a sound state. -/
theorem semOf_ok {i : Instr} {s : State} (h : Boundary s) (hc : check i s = .ok) : ResultOk (encode i) (semOf i s) := by
  have hw : opcodeOf (encode i) = i.opc := Laws.EncodingForm.opcodeOf_encode i
  have session (hi : allowedInFault i.opc = false) : InSession s.dir s := ⟨h, (sessionChecks_of_check hc hi).coding, rfl⟩
  have side {d : Dir} (hi : allowedInFault i.opc = false) (hd : sideOf i = some d) : InSession d s := by
    rcases (sessionChecks_of_check hc hi).side with hn | hn <;> rw [hd] at hn <;> cases hn
    exact session hi
  have predicting {d : Dir} (hi : allowedInFault i.opc = false) (hd : sideOf i = some d) (hp : usesPredictor i = true) :
      InPredicting d s := ⟨side hi hd, (sessionChecks_of_check hc hi).predictor hp⟩
  cases i with
  | nop => exact h
  | init d m a => exact initSem_ok hw d (fieldsLegal_of_check hc) h.queues
  | encBit b =>
    have hs := predicting (d := .encode) rfl rfl rfl
    exact encPredBit_ok (pos := .encBit) (next := encBitDone) hs rfl ⟨hw, hs.coding, hs.side, hs.predictor⟩ (fun _ ht => ht.toBoundary) b
  | encByte v => exact encByteFrom_ok hw v le_rfl (predicting rfl rfl rfl)
  | decBit =>
    have hs := predicting (d := .decode) rfl rfl rfl
    exact decPredBit_ok (pos := .decBit) (next := decBitDone) hs (fun _ => rfl)
      (fun _ => ⟨hw, hs.coding, hs.side, hs.predictor⟩) fun _ _ ht => ht.toBoundary
  | decByte => exact decByteFrom_ok hw le_rfl _ (predicting rfl rfl rfl)
  | encRaw b p =>
    have hs := side (d := .encode) rfl rfl
    exact rcEncode_ok (pos := .encRaw) (next := encRawDone) hs (Nat.le_of_lt_succ p.isLt) rfl
      ⟨hw, hs.coding, hs.side⟩ (fun _ ht _ => ht.countBit) b
  | decRaw p =>
    have hs := side (d := .decode) rfl rfl
    exact rcDecode_ok (pos := .decRaw) (next := decRawDone) hs (Nat.le_of_lt_succ p.isLt) (fun _ => rfl)
      (fun _ => ⟨hw, hs.coding, hs.side⟩) fun _ _ ht _ => ht.countBit
  | flush => exact flushSem_ok hw (session rfl)
  | getp => exact h
  | rdreg r => exact h

theorem Boundary.refuse {s : State} (h : Boundary s) (w : Word) : Inv (refuse w s) := h.respond w (by decide) _

theorem Boundary.checkFault {s : State} (h : Boundary s) (w : Word) (f : FaultCode) : Inv (checkFault w f s) :=
  (h.faultEntry f).respond w (by have := f.value_bounds; omega) _

theorem Boundary.execute {s : State} (h : Boundary s) (i : Instr) : Inv (execute i (semOf i) s) := by
  rcases execute_cases i (semOf i) s with ⟨-, he⟩ | ⟨f, -, he⟩ | ⟨hc, he⟩ <;> rw [he]
  · exact h.refuse _
  · exact h.checkFault _ f
  · exact (semOf_ok h hc).settle

theorem Boundary.executeIllegal {s : State} (h : Boundary s) (w : Word) (e : DecodeError) : Inv (executeIllegal w e s) := by
  unfold Machine.executeIllegal
  cases checkIllegal w e s with
  | none => exact h.refuse w
  | some f => exact h.checkFault w f

theorem HeldAt.inside {w : Word} {pos : HoldPoint} {s : State} (h : HeldAt w pos s) (hpos : pos.inRenorm = true)
    (hs : s.sstate = .coding) : Inside s := by
  have hi := h.interval (by simp [hs])
  rw [if_pos hpos] at hi
  exact ⟨h.toBaseOk, hs, hi.2⟩

theorem HeldAt.boundary {w : Word} {pos : HoldPoint} {s : State} (h : HeldAt w pos s) (hpos : pos.inRenorm = false) : Boundary s :=
  ⟨h.toBaseOk, fun hf => by simpa [hpos] using h.interval hf⟩

/-- A held predicted bit that goes on (10_state.md R33). -/
theorem resumePredBit_ok {w : Word} {s : State} {pos : HoldPoint} {next : State → Result} {d : Dir} (h : HeldAt w pos s)
    (hpos : pos.inRenorm = true) (hs : s.sstate = .coding) (hd : s.dir = d) (hp : s.pmode ≠ 0#2)
    (hnext : ∀ t, InPredicting d t → ResultOk w (next t)) (y : Bool) :
    ResultOk w (renormThen pos (fun t => next (finishPredBit y t)) s) :=
  renormThen_ok (h.inside hpos hs) hpos h.command fun t ht same =>
    hnext _ (InPredicting.finishPredBit
      ⟨⟨ht, same.sstate.trans hs, same.dir.trans hd⟩, by rw [same.pmode]; exact hp⟩ y)

/-- A held command that goes on keeps the invariant, at each hold point. -/
theorem HeldAt.resume {c : InProgress} {s : State} (h : HeldAt c.word c.pos s) : Inv (resume c s) := by
  obtain ⟨w, pos⟩ := c
  have hcmd := h.command
  cases pos with
  | prime left =>
    obtain ⟨hw, hs, hd, -, hleft, hlow, hhigh⟩ := hcmd
    exact (primeFrom_ok hw hleft ⟨h.boundary rfl, hs, hd⟩ hlow hhigh).settle
  | encBit =>
    obtain ⟨-, hs, hd, hp⟩ := hcmd
    exact (resumePredBit_ok (next := encBitDone) h rfl hs hd hp (fun _ ht => ht.toBoundary) _).settle
  | encByte k =>
    obtain ⟨hw, hs, hd, hp, hk⟩ := hcmd
    exact (resumePredBit_ok h rfl hs hd hp (fun _ ht => encByteFrom_ok hw _ hk.le ht) _).settle
  | decBit y =>
    obtain ⟨-, hs, hd, hp⟩ := hcmd
    exact (resumePredBit_ok (next := decBitDone y) h rfl hs hd hp (fun _ ht => ht.toBoundary) y).settle
  | decByte k acc y =>
    obtain ⟨hw, hs, hd, hp, hk⟩ := hcmd
    exact (resumePredBit_ok h rfl hs hd hp (fun _ ht => decByteFrom_ok hw hk.le _ ht) y).settle
  | encRaw =>
    obtain ⟨-, hs, -⟩ := hcmd
    exact (renormThen_ok (next := encRawDone) (h.inside rfl hs) rfl h.command fun _ ht _ => ht.countBit).settle
  | decRaw y =>
    obtain ⟨-, hs, -⟩ := hcmd
    exact (renormThen_ok (next := decRawDone y) (h.inside rfl hs) rfl h.command fun _ ht _ => ht.countBit).settle
  | flushEnc left =>
    obtain ⟨hw, hs, hd, -, hleft⟩ := hcmd
    exact (flushEncFrom_ok hw hleft ⟨h.boundary rfl, hs, hd⟩).settle
  | flushDec =>
    obtain ⟨hw, hs, hd, hcode⟩ := hcmd
    exact (endItem_ok hw ⟨h.boundary rfl, hs, hd⟩ hcode).settle
  | respond st data => exact (h.boundary rfl).respond w hcmd data

/-- Every step keeps the invariant. -/
theorem Inv.step {s t : State} (h : Inv s) (hst : step s = .next t) : Inv t := by
  rcases step_cases s with ⟨c, hc, he⟩ | ⟨-, -, he⟩ | ⟨w, rest, i, hc, -, -, he⟩ | ⟨w, rest, e, hc, -, -, he⟩
  · cases hst.symm.trans he
    exact (h.heldAt hc).resume
  · cases hst.symm.trans he
    exact h
  · rw [exec_eq] at he
    cases hst.symm.trans he
    exact ((h.boundary hc).take rest).execute i
  · cases hst.symm.trans he
    exact ((h.boundary hc).take rest).executeIllegal w e

/-! ## The host -/

theorem pushCommand_eq_some {w : Word} {s t : State} (h : pushCommand w s = some t) : t = { s with cmdq := s.cmdq ++ [w] } := by
  unfold pushCommand at h
  split at h <;> cases h
  rfl

theorem pushInput_eq_some {x : InItem} {s t : State} (h : pushInput x s = some t) : t = { s with inq := s.inq ++ [x] } := by
  unfold pushInput at h
  split at h <;> cases h
  rfl

theorem popResponse_of_cons {s : State} {r : Response} {rest : List Response} (h : s.respq = r :: rest) :
    popResponse s = some (r, { s with respq := rest }) := by simp [popResponse, h]

theorem popResponse_of_nil {s : State} (h : s.respq = []) : popResponse s = none := by simp [popResponse, h]

theorem popOutput_of_cons {s : State} {b : Byte} {rest : List Byte} (h : s.outq = b :: rest) :
    popOutput s = some (b, { s with outq := rest }) := by simp [popOutput, h]

theorem popOutput_of_nil {s : State} (h : s.outq = []) : popOutput s = none := by simp [popOutput, h]

theorem popResponse_eq_some {s t : State} {r : Response} (h : popResponse s = some (r, t)) :
    ∃ rest, s.respq = r :: rest ∧ t = { s with respq := rest } := by
  cases hq : s.respq with
  | nil => simp [popResponse_of_nil hq] at h
  | cons r' rest =>
    rw [popResponse_of_cons hq] at h
    cases h
    exact ⟨rest, rfl, rfl⟩

theorem popOutput_eq_some {s t : State} {b : Byte} (h : popOutput s = some (b, t)) :
    ∃ rest, s.outq = b :: rest ∧ t = { s with outq := rest } := by
  cases hq : s.outq with
  | nil => simp [popOutput_of_nil hq] at h
  | cons b' rest =>
    rw [popOutput_of_cons hq] at h
    cases h
    exact ⟨rest, rfl, rfl⟩

/-- What the host does to the queues keeps the invariant, as long as RESPQ and OUTQ fit. -/
theorem Inv.withQueues {s : State} (h : Inv s) (cmdq : List Word) (inq : List InItem) (respq : List Response) (outq : List Byte)
    (hr : respq.length ≤ s.depths.resp) (ho : outq.length ≤ s.depths.out) :
    Inv { s with cmdq := cmdq, inq := inq, respq := respq, outq := outq } :=
  ⟨h.mode, h.context, h.tables, h.faultcode, h.command, h.interval, h.code, ⟨hr, ho⟩, h.canonical⟩

theorem Inv.pushCommand {s t : State} (h : Inv s) {w : Word} (hp : pushCommand w s = some t) : Inv t := by
  obtain rfl := pushCommand_eq_some hp
  exact h.withQueues _ _ _ _ h.queues.1 h.queues.2

theorem Inv.pushInput {s t : State} (h : Inv s) {x : InItem} (hp : pushInput x s = some t) : Inv t := by
  obtain rfl := pushInput_eq_some hp
  exact h.withQueues _ _ _ _ h.queues.1 h.queues.2

theorem Inv.popResponse {s t : State} (h : Inv s) {r : Response} (hp : popResponse s = some (r, t)) : Inv t := by
  obtain ⟨rest, hq, rfl⟩ := popResponse_eq_some hp
  obtain ⟨hr, ho⟩ := h.queues
  rw [hq, List.length_cons] at hr
  exact h.withQueues _ _ _ _ (by omega) ho

theorem Inv.popOutput {s t : State} (h : Inv s) {b : Byte} (hp : popOutput s = some (b, t)) : Inv t := by
  obtain ⟨rest, hq, rfl⟩ := popOutput_eq_some hp
  obtain ⟨hr, ho⟩ := h.queues
  rw [hq, List.length_cons] at ho
  exact h.withQueues _ _ _ _ hr (by omega)

/-- The state after a hardware reset is sound for every capacity and draw (10_state.md R35). -/
theorem inv_afterReset (d : Depths) (k : Nat) : Inv (State.afterReset d k) where
  mode := (by decide : (0#2) ≠ 3#2 ∧ (false = true → (0#2) = 2#2))
  context := fun _ => (by decide : (1#8) ≠ 0#8)
  tables := fun h => by rcases h with h | h <;> cases h
  faultcode := rfl
  command := trivial
  interval := fun _ => normalised_of_open rfl rfl
  code := fun _ => ⟨fun _ => rfl, fun h => by cases h⟩
  queues := ⟨Nat.zero_le _, Nat.zero_le _⟩
  canonical := Memory.wf_unspecified k

/-- Settles O19: the reset state is that of a hardware reset. -/
theorem resetStateIsSound : Obligations.ResetStateIsSound := inv_afterReset _ 0

/-- Settles O20: by the four things a step can be, the host's four actions, and hardware reset. -/
theorem everyStepKeepsTheInvariant : Obligations.EveryStepKeepsTheInvariant := by
  refine ⟨fun s t h => h.step, fun s t h => ⟨fun w => h.pushCommand, fun x => h.pushInput, fun r => h.popResponse,
    fun b => h.popOutput⟩, fun s => inv_afterReset s.depths s.draws, fun s => ⟨fun w => ⟨?_, ?_⟩, fun x => ⟨?_, ?_⟩,
    fun r rest => popResponse_of_cons, popResponse_of_nil, fun b rest => popOutput_of_cons, popOutput_of_nil⟩⟩
  · exact fun h => if_pos h
  · exact fun h => if_neg (Nat.not_lt.2 h)
  · exact fun h => if_pos h
  · exact fun h => if_neg (Nat.not_lt.2 h)

end Sys2Proof.Machine
end

section
/-! PROOFS. The streams and the host: what the host does to the FIFOs between two steps commutes with what the core does, and each
stream moves one way (20_memory.md R40-R42, R51; 43_commands.md R167; 10_state.md R33). -/

namespace Sys2Proof.Machine

/-! ## What the host does to the FIFOs -/

/-- What the host does to the FIFOs between two steps: the items it pushes to INQ, how many bytes of OUTQ and how many responses it
pops (10_state.md R32). The capacities afterwards stand here too, so that a machine with one more place in OUTQ is a case of it. -/
structure HostActs where
  pushed : List InItem
  popped : Nat
  read : Nat
  depths : Depths

namespace HostActs

/-- The state after the host's acts. -/
def act (a : HostActs) (s : State) : State :=
  { s with
    inq := s.inq ++ a.pushed
    outq := s.outq.drop a.popped
    respq := s.respq.drop a.read
    depths := a.depths }

/-- The same without the record of the command in progress, which no pseudocode reads. -/
def ease (a : HostActs) (s : State) : State := { a.act s with cip := none }

/-- The bytes to pop are there, and OUTQ has no less room than before. -/
structure Fits (a : HostActs) (s : State) : Prop where
  popped : a.popped ≤ s.outq.length
  room : s.depths.out ≤ a.depths.out + a.popped

/-- The acts clear no FIFO condition: nothing comes in, and OUTQ and RESPQ have the same room as before. -/
structure ClearsNothing (a : HostActs) (s : State) : Prop where
  pushed : a.pushed = []
  read : a.read = 0
  room : a.depths.out + a.popped = s.depths.out
  resp : a.depths.resp = s.depths.resp

/-- No act at all. -/
def idle (d : Depths) : HostActs := { pushed := [], popped := 0, read := 0, depths := d }

theorem fits_idle (s : State) : (idle s.depths).Fits s := ⟨Nat.zero_le _, le_rfl⟩

theorem clearsNothing_idle (s : State) : (idle s.depths).ClearsNothing s := ⟨rfl, rfl, rfl, rfl⟩

theorem act_idle {s : State} {d : Depths} (h : s.depths = d) : (idle d).act s = s := by
  subst h
  simp [idle, act]

theorem ease_idle (s : State) : (idle s.depths).ease s = { s with cip := none } := by rw [ease, act_idle rfl]

end HostActs

open HostActs

variable {a : HostActs} {s t u : State}

/-! ## How a step moves the streams -/

/-- The queues as one side of a session moves them: OUTQ and RESPQ grow at their tails, INQ loses items at its head, and of the
streams only that of the direction left in DIR moves (20_memory.md R40-R42). -/
structure Streams (s t : State) : Prop where
  depths : t.depths = s.depths
  out : s.outq <+: t.outq
  inp : t.inq <:+ s.inq
  resp : s.respq <+: t.respq
  decode : t.dir = .decode → t.outq = s.outq
  encode : t.dir = .encode → t.inq = s.inq

/-- The same of a part of a command, which leaves DIR alone. -/
structure SessionStreams (s t : State) : Prop extends Streams s t where
  dir : t.dir = s.dir

/-- The four queues the host acts on, and the capacities, are the same. -/
structure SameFifos (s t : State) : Prop where
  depths : t.depths = s.depths
  outq : t.outq = s.outq
  inq : t.inq = s.inq
  respq : t.respq = s.respq

theorem SameFifos.refl (s : State) : SameFifos s s := ⟨rfl, rfl, rfl, rfl⟩

theorem SameFifos.streams (h : SameFifos s t) : Streams s t where
  depths := h.depths
  out := by rw [h.outq]
  inp := by rw [h.inq]
  resp := by rw [h.respq]
  decode := fun _ => h.outq
  encode := fun _ => h.inq

theorem SameFifos.streams_trans (h : SameFifos s u) (h' : Streams u t) : Streams s t := by
  obtain ⟨hd, ho, hi, hr⟩ := h
  obtain ⟨hd', ho', hi', hr', hdec, henc⟩ := h'
  rw [hd] at hd'
  rw [ho] at ho' hdec
  rw [hi] at hi' henc
  rw [hr] at hr'
  exact ⟨hd', ho', hi', hr', hdec, henc⟩

theorem SameFifos.session (h : SameFifos s t) (hd : t.dir = s.dir) : SessionStreams s t := ⟨h.streams, hd⟩

theorem SessionStreams.refl (s : State) : SessionStreams s s := (SameFifos.refl s).session rfl

theorem shiftCode_streams (b : Byte) (s : State) : SessionStreams s (shiftCode b s) :=
  SameFifos.session ⟨rfl, rfl, rfl, rfl⟩ rfl

theorem shiftBounds_streams (s : State) : SessionStreams s (shiftBounds s) := SameFifos.session ⟨rfl, rfl, rfl, rfl⟩ rfl

theorem truncateHigh_streams (s : State) : SessionStreams s (truncateHigh s) := SameFifos.session ⟨rfl, rfl, rfl, rfl⟩ rfl

theorem countBit_streams (s : State) : SessionStreams s (countBit s) := SameFifos.session ⟨rfl, rfl, rfl, rfl⟩ rfl

theorem done_streams (s : State) : SessionStreams s { s with sstate := .done } := SameFifos.session ⟨rfl, rfl, rfl, rfl⟩ rfl

theorem narrow_streams (y : Bool) (p : Nat) (s : State) : SessionStreams s (narrow y p s) :=
  SameFifos.session (by constructor <;> simp) (narrow_dir y p s)

theorem finishPredBit_streams (y : Bool) (s : State) : SessionStreams s (finishPredBit y s) := by
  unfold finishPredBit
  rw [train_eq]
  exact SameFifos.session (by constructor <;> simp) (by simp)

theorem SessionStreams.trans (h : SessionStreams s u) (h' : SessionStreams u t) : SessionStreams s t where
  depths := h'.depths.trans h.depths
  out := h.out.trans h'.out
  inp := h'.inp.trans h.inp
  resp := h.resp.trans h'.resp
  decode := fun hd => (h'.decode hd).trans (h.decode (h'.dir ▸ hd))
  encode := fun hd => (h'.encode hd).trans (h.encode (h'.dir ▸ hd))
  dir := h'.dir.trans h.dir

/-- An `OutPush` of an encode session. -/
theorem SessionStreams.of_outPush {b : Byte} (h : outPush b s = some t) (hd : s.dir = .encode) : SessionStreams s t := by
  obtain ⟨-, rfl⟩ := outPush_eq_some h
  refine ⟨⟨rfl, List.prefix_append _ _, List.suffix_rfl, List.prefix_rfl, fun h => ?_, fun _ => rfl⟩, rfl⟩
  cases hd.symm.trans h

/-- An `InPop` that finds an item takes the head of INQ and touches nothing else but BYTES_IN. -/
theorem inPop_item {x : InItem} (h : inPop s = .item x t) :
    ∃ rest n, s.inq = x :: rest ∧ t = { s with inq := rest, bytesIn := n } := by
  cases x with
  | byte b =>
    obtain ⟨rest, hq, rfl⟩ := inPop_byte h
    exact ⟨rest, _, hq, rfl⟩
  | endMark =>
    obtain ⟨rest, hq, rfl⟩ := inPop_endMark h
    exact ⟨rest, s.bytesIn, hq, rfl⟩

/-- An `InPop` of a decode session. -/
theorem SessionStreams.of_inPop {x : InItem} (h : inPop s = .item x t) (hd : s.dir = .decode) : SessionStreams s t := by
  obtain ⟨rest, n, hq, rfl⟩ := inPop_item h
  refine ⟨⟨rfl, List.prefix_rfl, hq ▸ List.suffix_cons _ _, List.prefix_rfl, fun _ => rfl, fun h => ?_⟩, rfl⟩
  cases hd.symm.trans h

/-- The acts of the host still fit later in the command: OUTQ only grows meanwhile. -/
theorem HostActs.Fits.later (h : a.Fits s) (hst : Streams s t) : a.Fits t :=
  ⟨h.popped.trans hst.out.length_le, hst.depths ▸ h.room⟩

theorem HostActs.ClearsNothing.later (h : a.ClearsNothing s) (hst : Streams s t) : a.ClearsNothing t :=
  ⟨h.pushed, h.read, hst.depths ▸ h.room, hst.depths ▸ h.resp⟩

/-! ## The operations commute with the host -/

/-- An `OutPush` that has room has it after the host's acts too, and its byte goes behind those the host popped. -/
theorem outPush_ease {b : Byte} (hf : a.Fits s) (h : outPush b s = some t) : outPush b (a.ease s) = some (a.ease t) := by
  obtain ⟨hroom, rfl⟩ := outPush_eq_some h
  obtain ⟨hp, hr⟩ := hf
  have hlen : (a.ease s).outq.length < (a.ease s).depths.out := by
    show (s.outq.drop a.popped).length < a.depths.out
    rw [List.length_drop]
    omega
  rw [outPush, if_pos hlen]
  simp [ease, act, List.drop_append_of_le_length hp]

theorem outPush_ease_none {b : Byte} (hc : a.ClearsNothing s) (h : outPush b s = none) : outPush b (a.ease s) = none := by
  have hfull := outPush_eq_none h
  have hroom := hc.room
  refine if_neg ?_
  show ¬ (s.outq.drop a.popped).length < a.depths.out
  rw [List.length_drop]
  omega

/-- An `InPop` that finds an item finds it after the host's acts too. -/
theorem inPop_ease {x : InItem} (h : inPop s = .item x t) : inPop (a.ease s) = .item x (a.ease t) := by
  cases x with
  | byte b =>
    obtain ⟨rest, hq, rfl⟩ := inPop_byte h
    simp [inPop, ease, act, hq]
  | endMark =>
    obtain ⟨rest, hq, rfl⟩ := inPop_endMark h
    simp [inPop, ease, act, hq]

theorem inPop_ease_empty (hc : a.ClearsNothing s) (h : inPop s = .empty) : inPop (a.ease s) = .empty := by
  simp [inPop, ease, act, inPop_empty h, hc.pushed]

theorem narrow_ease (y : Bool) (p : Nat) (s : State) : narrow y p (a.ease s) = a.ease (narrow y p s) := by cases y <;> rfl

theorem ctxUpdate_ease (y : Bool) (s : State) : ctxUpdate y (a.ease s) = a.ease (ctxUpdate y s) := by
  show (if 256 ≤ s.c0.toNat * 2 + y.toNat then _ else _) = a.ease (if 256 ≤ s.c0.toNat * 2 + y.toNat then _ else _)
  split <;> rfl

theorem finishPredBit_ease (y : Bool) (s : State) : finishPredBit y (a.ease s) = a.ease (finishPredBit y s) := by
  have h := ctxUpdate_ease (a := a) y { s with mem := trainedMem y s }
  unfold finishPredBit
  rw [train_eq, train_eq]
  exact congrArg countBit h

theorem faultEntry_ease (f : FaultCode) (s : State) : faultEntry f (a.ease s) = a.ease (faultEntry f s) := by
  by_cases h : s.sstate = .fault
  · rw [faultEntry_of_fault h, faultEntry_of_fault (s := a.ease s) h]
  · rw [faultEntry_of_ne h, faultEntry_of_ne (s := a.ease s) h]
    rfl

theorem faultEntry_sameFifos (f : FaultCode) (s : State) : SameFifos s (faultEntry f s) := by
  constructor <;> simp

/-! ## Renormalisation -/

theorem RenormRound.streams (h : RenormRound s t) : SessionStreams s t := by
  cases h with
  | emit hs hd hp => exact (SessionStreams.of_outPush hp hd).trans (shiftBounds_streams _)
  | take hs hd hp =>
    exact (SessionStreams.of_inPop hp hd).trans ((shiftCode_streams _ _).trans (shiftBounds_streams _))
  | truncate hs hw hc => exact truncateHigh_streams s

theorem RenormRound.ease (h : RenormRound s t) (hf : a.Fits s) : RenormRound (a.ease s) (a.ease t) := by
  cases h with
  | @emit t hs hd hp => exact .emit (s := a.ease s) (t := a.ease t) hs hd (outPush_ease hf hp)
  | @take t b hs hd hp => exact .take (s := a.ease s) (t := a.ease t) hs hd (inPop_ease hp)
  | truncate hs hw hc => exact .truncate (s := a.ease s) hs hw hc

theorem RenormRounds.streams (h : RenormRounds s t) : SessionStreams s t := by
  induction h with
  | refl s => exact .refl s
  | head hr _ ih => exact hr.streams.trans ih

theorem RenormRounds.ease (h : RenormRounds s t) (hf : a.Fits s) : RenormRounds (a.ease s) (a.ease t) := by
  induction h with
  | refl s => exact .refl _
  | head hr _ ih => exact .head (hr.ease hf) (ih (hf.later hr.streams.toStreams))

theorem renorm_succ_of_end {r : Renorm} (h : RenormEnd r s) (n : Nat) : renorm (n + 1) s = r := by
  cases h with
  | settled hs hw => simp only [renorm, if_neg hs, if_neg hw]
  | full hs hd hp => simp only [renorm, if_pos hs, hd, hp]
  | empty hs hd hp => simp only [renorm, if_pos hs, hd, hp]
  | eof hs hd hp => simp only [renorm, if_pos hs, hd, hp]
  | range hs hw hd hc => rw [renorm, if_neg hs, if_pos hw, if_pos ⟨hd, hc⟩]

theorem renorm_succ_of_round (h : RenormRound s t) (n : Nat) : renorm (n + 1) s = renorm n t := by
  cases h with
  | emit hs hd hp => simp only [renorm, if_pos hs, hd, hp]
  | take hs hd hp => simp only [renorm, if_pos hs, hd, hp]
  | truncate hs hw hc => rw [renorm, if_neg hs, if_pos hw, if_neg hc]

/-- More fuel than a renormalisation needs changes nothing. -/
theorem renorm_succ_of_endsWithin {n : Nat} (h : EndsWithin n s) : renorm (n + 1) s = renorm n s := by
  induction h with
  | @intro n s h ih =>
    rcases renorm_succ n s with he | ⟨t, hr, he⟩
    · exact renorm_succ_of_end he (n + 1)
    · rw [renorm_succ_of_round hr, he, ih t hr]

/-- A renormalisation may be cut after any of its rounds. -/
theorem RenormRounds.renorm_eq (h : RenormRounds s t) : renorm renormFuel s = renorm renormFuel t := by
  induction h with
  | refl s => rfl
  | @head s t u hr _ ih =>
    have hend : EndsWithin 15 t :=
      (endsWithin_shiftedIn 0 (by omega) t ⟨by omega, by omega⟩).succ.succ.succ.succ.succ
    rw [← ih, show renormFuel = 15 + 1 from rfl, renorm_succ_of_round hr, renorm_succ_of_endsWithin hend]

/-! ## Pseudocode that does not mind when the host acts -/

/-- How a result `r` after acts of the host at the start answers to the result without them: the same end, and for a hold what the
command comes to when the host acts there; where the acts clear nothing, the same hold. -/
def Eases (a : HostActs) (w : Word) : Result → Result → Prop
  | .done data s, r => r = .done data (a.ease s)
  | .held pos s, r =>
    settle w r = resume { word := w, pos := pos } (a.ease s) ∧ (a.ClearsNothing s → r = .held pos (a.ease s))
  | .raised f s, r => r = .raised f (a.ease s)

/-- Pseudocode of the word `w` from the state `s` moves the streams one way and does not mind whether the host acts before it or
where it holds. -/
structure Steady (w : Word) (sem : State → Result) (s : State) : Prop where
  streams : SessionStreams s (sem s).state
  eases : ∀ a : HostActs, a.Fits s → Eases a w (sem s) (sem (a.ease s))

section Pseudocode

variable {w : Word} {sem sem' next : State → Result} {pos : HoldPoint}

/-- What goes on as steady pseudocode is steady. -/
theorem Steady.of_step (h : Steady w sem' t) (hst : SessionStreams s t) (heq : sem s = sem' t)
    (hease : ∀ a : HostActs, a.Fits s → sem (a.ease s) = sem' (a.ease t)) : Steady w sem s where
  streams := heq ▸ hst.trans h.streams
  eases := fun a hf => by
    rw [heq, hease a hf]
    exact h.eases a (hf.later hst.toStreams)

theorem steady_done {data : State → Word} (hd : ∀ a : HostActs, data (a.ease s) = data s) :
    Steady w (fun u => .done (data u) u) s :=
  ⟨.refl s, fun a _ => by simp only [Eases, hd a]⟩

theorem steady_raised (f : FaultCode) : Steady w (.raised f) s := ⟨.refl s, fun _ _ => rfl⟩

/-- Pseudocode that holds at once is steady, if the hold goes on with the same pseudocode and only for a cleared condition. -/
theorem steady_held (heq : sem s = .held pos s) (hres : ∀ u, resume { word := w, pos := pos } u = settle w (sem u))
    (hhold : ∀ a : HostActs, a.ClearsNothing s → sem (a.ease s) = .held pos (a.ease s)) : Steady w sem s where
  streams := heq ▸ .refl s
  eases := fun a _ => by
    rw [heq]
    exact ⟨(hres _).symm, hhold a⟩

/-- A renormalisation is steady, if what follows it is. -/
theorem renormThen_steady (hres : ∀ u, resume { word := w, pos := pos } u = settle w (renormThen pos next u))
    (hn : ∀ t, Steady w next t) (s : State) : Steady w (renormThen pos next) s := by
  obtain ⟨t, hr, he⟩ := renorm_cases s
  suffices h : Steady w (renormThen pos next) t from
    h.of_step hr.streams (by rw [renormThen, hr.renorm_eq, ← renormThen])
      fun a hf => by rw [renormThen, (hr.ease hf).renorm_eq, ← renormThen]
  generalize renorm renormFuel s = r at he
  have ends {r : Renorm} {u : State} (hu : RenormEnd r u) : renorm renormFuel u = r := renorm_succ_of_end hu 15
  cases he with
  | settled hs hw =>
    refine (hn t).of_step (.refl t) ?_ fun a _ => ?_
    · rw [renormThen, ends (.settled hs hw)]
    · rw [renormThen, ends (.settled (t := a.ease t) hs hw)]
  | full hs hd hp =>
    refine steady_held ?_ hres fun a hc => ?_
    · rw [renormThen, ends (.full hs hd hp)]
    · rw [renormThen, ends (.full (t := a.ease t) hs hd (outPush_ease_none hc hp))]
  | empty hs hd hp =>
    refine steady_held ?_ hres fun a hc => ?_
    · rw [renormThen, ends (.empty hs hd hp)]
    · rw [renormThen, ends (.empty (t := a.ease t) hs hd (inPop_ease_empty hc hp))]
  | eof hs hd hp =>
    refine (steady_raised .corruptEof).of_step (.of_inPop hp hd) ?_ fun a _ => ?_
    · rw [renormThen, ends (.eof hs hd hp)]
    · rw [renormThen, ends (.eof (t := a.ease t) hs hd (inPop_ease hp))]
  | range hs hw hd hc =>
    refine (steady_raised .corruptRange).of_step (truncateHigh_streams t) ?_ fun a _ => ?_
    · rw [renormThen, ends (.range hs hw hd hc)]
    · rw [renormThen, ends (.range (t := a.ease t) hs hw hd hc)]
      rfl

theorem finishPredBit_steady (hn : ∀ t, Steady w next t) (y : Bool) (s : State) :
    Steady w (fun u => next (finishPredBit y u)) s :=
  (hn _).of_step (finishPredBit_streams y s) rfl
    fun a _ => by rw [finishPredBit_ease]

/-- One coded bit is steady, if what follows it is. -/
theorem rcEncode_steady (hres : ∀ u, resume { word := w, pos := pos } u = settle w (renormThen pos next u))
    (hn : ∀ t, Steady w next t) (y : Bool) (p : Nat) (s : State) : Steady w (rcEncode y p pos next) s := by
  by_cases hlt : s.low < s.high
  · refine (renormThen_steady hres hn (narrow y p s)).of_step (narrow_streams y p s) ?_ fun a _ => ?_
    · rw [rcEncode, if_pos hlt]
    · rw [rcEncode, if_pos (show (a.ease s).low < (a.ease s).high from hlt), narrow_ease]
  · refine (steady_raised .invariant).of_step (.refl s) ?_ fun a _ => ?_
    · rw [rcEncode, if_neg hlt]
    · rw [rcEncode, if_neg (show ¬ (a.ease s).low < (a.ease s).high from hlt)]

/-- A decoded bit is coded as the bit CODE selects, which the host does not touch. -/
theorem rcDecode_steady {pos : Bool → HoldPoint} {next : Bool → State → Result}
    (hres : ∀ y u, resume { word := w, pos := pos y } u = settle w (renormThen (pos y) (next y) u))
    (hn : ∀ y t, Steady w (next y) t) (p : Nat) (s : State) : Steady w (rcDecode p pos next) s :=
  (rcEncode_steady (hres _) (hn _) (decodedBit p s) p s).of_step (.refl s) rfl fun _ _ => rfl

theorem encPredBit_steady {y : Bool}
    (hres : ∀ u, resume { word := w, pos := pos } u = settle w (renormThen pos (fun t => next (finishPredBit y t)) u))
    (hn : ∀ t, Steady w next t) (s : State) : Steady w (encPredBit y pos next) s :=
  (rcEncode_steady hres (finishPredBit_steady hn y) y (predict s) s).of_step (.refl s) rfl fun _ _ => rfl

theorem decPredBit_steady {pos : Bool → HoldPoint} {next : Bool → State → Result}
    (hres : ∀ y u, resume { word := w, pos := pos y } u =
      settle w (renormThen (pos y) (fun t => next y (finishPredBit y t)) u))
    (hn : ∀ y t, Steady w (next y) t) (s : State) : Steady w (decPredBit pos next) s :=
  (rcDecode_steady hres (fun y => finishPredBit_steady (hn y) y) (predict s) s).of_step (.refl s) rfl fun _ _ => rfl

theorem countBit_steady (hn : ∀ t, Steady w next t) (s : State) : Steady w (fun u => next (countBit u)) s :=
  (hn _).of_step (countBit_streams s) rfl fun _ _ => rfl

/-! ### The commands -/

theorem encBitDone_steady (s : State) : Steady w encBitDone s := steady_done fun _ => rfl

theorem decBitDone_steady (y : Bool) (s : State) : Steady w (decBitDone y) s := steady_done fun _ => rfl

theorem encRawDone_steady (s : State) : Steady w encRawDone s := countBit_steady encBitDone_steady s

theorem decRawDone_steady (y : Bool) (s : State) : Steady w (decRawDone y) s := countBit_steady (decBitDone_steady y) s

theorem encByteFrom_steady (k : Nat) (s : State) : Steady w (encByteFrom (w.extractLsb' 0 8) k) s := by
  induction k generalizing s with
  | zero => exact steady_done fun _ => rfl
  | succ k ih => exact encPredBit_steady (fun _ => rfl) ih s

theorem decByteFrom_steady (k : Nat) (acc : Byte) (s : State) : Steady w (decByteFrom k acc) s := by
  induction k generalizing acc s with
  | zero => exact steady_done fun _ => rfl
  | succ k ih => exact decPredBit_steady (fun _ _ => rfl) (fun y => ih (pushBit acc y)) s

theorem primeFrom_steady (left : Nat) (hd : s.dir = .decode) : Steady w (primeFrom left) s := by
  induction left generalizing s with
  | zero => exact steady_done fun _ => rfl
  | succ left ih =>
    cases hp : inPop s with
    | empty =>
      refine steady_held (pos := .prime (left + 1)) ?_ (fun _ => rfl) fun a hc => ?_
      · rw [primeFrom, hp]
      · rw [primeFrom, inPop_ease_empty hc hp]
    | item x t =>
      have hst := SessionStreams.of_inPop hp hd
      cases x with
      | byte b =>
        refine (ih (s := shiftCode b t) (hst.dir.trans hd)).of_step (hst.trans (shiftCode_streams b t)) ?_ fun a _ => ?_
        · rw [primeFrom, hp]
        · rw [primeFrom, inPop_ease hp]
          rfl
      | endMark =>
        refine (steady_raised .corruptEof).of_step hst ?_ fun a _ => ?_
        · rw [primeFrom, hp]
        · rw [primeFrom, inPop_ease hp]

theorem flushEncFrom_steady (left : Nat) (hd : s.dir = .encode) : Steady w (flushEncFrom left) s := by
  induction left generalizing s with
  | zero =>
    exact (steady_done (data := State.bytesOut) fun _ => rfl).of_step
      (done_streams s) rfl fun _ _ => rfl
  | succ left ih =>
    cases hp : outPush (s.low.extractLsb' (8 * left) 8) s with
    | none =>
      refine steady_held (pos := .flushEnc (left + 1)) ?_ (fun _ => rfl) fun a hc => ?_
      · rw [flushEncFrom, hp]
      · rw [flushEncFrom, show outPush ((a.ease s).low.extractLsb' (8 * left) 8) (a.ease s) = none from outPush_ease_none hc hp]
    | some t =>
      have hst := SessionStreams.of_outPush hp hd
      refine (ih (hst.dir.trans hd)).of_step hst ?_ fun a hf => ?_
      · rw [flushEncFrom, hp]
      · rw [flushEncFrom, show outPush ((a.ease s).low.extractLsb' (8 * left) 8) (a.ease s) = some (a.ease t)
          from outPush_ease hf hp]

theorem endItem_steady (hd : s.dir = .decode) : Steady w endItem s := by
  cases hp : inPop s with
  | empty =>
    refine steady_held (pos := .flushDec) ?_ (fun _ => rfl) fun a hc => ?_
    · rw [endItem, hp]
    · rw [endItem, inPop_ease_empty hc hp]
  | item x t =>
    have hst := SessionStreams.of_inPop hp hd
    cases x with
    | byte b =>
      refine (steady_raised .corruptTrailer).of_step hst ?_ fun a _ => ?_
      · rw [endItem, hp]
      · rw [endItem, inPop_ease hp]
    | endMark =>
      refine (steady_done (data := State.bytesIn) fun _ => rfl).of_step
        (hst.trans (done_streams t)) ?_ fun a _ => ?_
      · rw [endItem, hp]
      · rw [endItem, inPop_ease hp]
        rfl

theorem flushSem_steady (s : State) : Steady w flushSem s := by
  cases hd : s.dir with
  | encode =>
    refine (flushEncFrom_steady 4 hd).of_step (.refl s) ?_ fun a _ => ?_
    · rw [flushSem, hd]
    · rw [flushSem, show (a.ease s).dir = .encode from hd]
  | decode =>
    by_cases hc : s.code = s.low
    · refine (endItem_steady hd).of_step (.refl s) ?_ fun a _ => ?_
      · rw [flushSem, hd, endDec, if_pos hc]
      · rw [flushSem, show (a.ease s).dir = .decode from hd, endDec, if_pos (show (a.ease s).code = (a.ease s).low from hc)]
    · refine (steady_raised .corruptTrailer).of_step (.refl s) ?_ fun a _ => ?_
      · rw [flushSem, hd, endDec, if_neg hc]
      · rw [flushSem, show (a.ease s).dir = .decode from hd, endDec,
          if_neg (show ¬ (a.ease s).code = (a.ease s).low from hc)]

end Pseudocode

/-! ## Steps that do not mind when the host acts -/

/-- One way a step can run from `s`: it moves the streams one way; where it holds, acts of the host before it lead where they lead at
the hold; and acts that clear nothing commute with it. -/
structure SteadyStep (body : State → State) (s : State) : Prop where
  streams : Streams s (body s)
  held : ∀ (a : HostActs) (c : InProgress), a.Fits s → (body s).cip = some c → body (a.ease s) = resume c (a.ease (body s))
  exact : ∀ a : HostActs, a.Fits s → a.ClearsNothing s → body (a.ease s) = a.act (body s)

section Steps

variable {w : Word} {body body' : State → State} {sem : State → Result}

/-- No step reads the record of the command in progress but to find what to go on with. -/
theorem SteadyStep.of_unrecorded (h : SteadyStep body s) : body { s with cip := none } = body s := by
  have he := h.exact (idle s.depths) (fits_idle s) (clearsNothing_idle s)
  rwa [ease_idle, act_idle h.streams.depths] at he

/-- What goes on as a steady step is steady. -/
theorem SteadyStep.of_step (h : SteadyStep body' t) (hst : Streams s t) (hbody : Streams s (body' t)) (heq : body s = body' t)
    (hease : ∀ a : HostActs, a.Fits s → body (a.ease s) = body' (a.ease t)) : SteadyStep body s where
  streams := heq ▸ hbody
  held := fun a c hf hc => by
    rw [heq] at hc ⊢
    rw [hease a hf, h.held a c (hf.later hst) hc]
  exact := fun a hf hcl => by
    rw [heq, hease a hf, h.exact a (hf.later hst) (hcl.later hst)]

theorem SteadyStep.of_sameFifos (h : SteadyStep body' t) (hq : SameFifos s t) (heq : body s = body' t)
    (hease : ∀ a : HostActs, body (a.ease s) = body' (a.ease t)) : SteadyStep body s :=
  h.of_step hq.streams (hq.streams_trans h.streams) heq fun a _ => hease a

theorem respond_streams (w : Word) (st : BitVec 8) (data : Word) (s : State) : SessionStreams s (respond w st data s) := by
  rcases respond_cases w st data s with ⟨-, he⟩ | ⟨-, he⟩ <;> rw [he]
  · exact ⟨⟨rfl, List.prefix_rfl, List.suffix_rfl, List.prefix_append _ _, fun _ => rfl, fun _ => rfl⟩, rfl⟩
  · exact SameFifos.session ⟨rfl, rfl, rfl, rfl⟩ rfl

theorem respond_steady (w : Word) (st : BitVec 8) (data : Word) (s : State) : SteadyStep (respond w st data) s := by
  rcases respond_cases w st data s with ⟨hroom, he⟩ | ⟨hfull, he⟩
  · refine ⟨(respond_streams w st data s).toStreams, fun _ c _ hc => ?_, fun a _ hcl => ?_⟩
    · rw [he] at hc
      cases hc
    · obtain ⟨-, hread, -, hresp⟩ := hcl
      have hroom' : RespRoom 1 (a.ease s) := by
        show (s.respq.drop a.read).length + 1 ≤ a.depths.resp
        rw [hread, hresp]
        exact hroom
      rw [he, respond_of_room hroom']
      simp [answered, ease, act, hread]
  · refine ⟨(respond_streams w st data s).toStreams, fun a c _ hc => ?_, fun a _ hcl => ?_⟩
    · rw [he] at hc ⊢
      cases hc
      rfl
    · obtain ⟨-, hread, -, hresp⟩ := hcl
      rw [he]
      refine if_neg ?_
      show ¬ (s.respq.drop a.read).length < a.depths.resp
      rw [hread, hresp]
      exact Nat.not_lt.2 hfull

theorem faultEntry_streams (f : FaultCode) (s : State) : SessionStreams s (faultEntry f s) :=
  SameFifos.session (by constructor <;> simp) (faultEntry_dir f s)

/-- Fault entry, then the response (60_exceptions.md R195). -/
theorem checkFault_steady (w : Word) (f : FaultCode) (s : State) : SteadyStep (checkFault w f) s :=
  (respond_steady w f.value 0#32 (faultEntry f s)).of_step (faultEntry_streams f s).toStreams
    ((faultEntry_streams f s).trans (respond_streams _ _ _ _)).toStreams rfl
    fun _ _ => congrArg (respond w f.value 0#32) (faultEntry_ease f s)

theorem refuse_steady (w : Word) (s : State) : SteadyStep (refuse w) s :=
  (respond_steady w statusFaulted (s.faultcode.setWidth 32) s).of_sameFifos ⟨rfl, rfl, rfl, rfl⟩ rfl fun _ => rfl

/-- The response of steady pseudocode, its hold or its fault is a steady step. -/
theorem settle_steady (h : Steady w sem s) : SteadyStep (fun u => settle w (sem u)) s := by
  obtain ⟨hstr, heases⟩ := h
  cases hr : sem s <;> rw [hr] at hstr heases
  case done data t =>
    refine (respond_steady w statusOk data t).of_step hstr.toStreams
      (hstr.trans (respond_streams _ _ _ _)).toStreams ?_ fun a hf => ?_
    · rw [hr, settle]
    · rw [show sem (a.ease s) = .done data (a.ease t) from heases a hf, settle]
  case held pos t =>
    refine ⟨?_, fun a c hf hc => ?_, fun a hf hcl => ?_⟩
    · rw [hr]
      exact ⟨hstr.depths, hstr.out, hstr.inp, hstr.resp, hstr.decode, hstr.encode⟩
    · rw [hr] at hc ⊢
      cases hc
      exact (heases a hf).1
    · have hhold := (heases a hf).2 (hcl.later hstr.toStreams)
      rw [hr, hhold]
      rfl
  case raised f t =>
    refine (checkFault_steady w f t).of_step hstr.toStreams
      (hstr.trans ((faultEntry_streams f t).trans (respond_streams _ _ _ _))).toStreams ?_ fun a hf => ?_
    · rw [hr]
      rfl
    · rw [show sem (a.ease s) = .raised f (a.ease t) from heases a hf]
      rfl

/-- The pseudocode of INIT runs in the session it begins (43_commands.md R152). -/
theorem settle_initSem_steady (d : Dir) (m : BitVec 2) (e : Bool) (s : State) :
    SteadyStep (fun u => settle w (initSem d m e u)) s := by
  have hq : SameFifos s (beginSession d m e s) := ⟨rfl, rfl, rfl, rfl⟩
  cases d with
  | encode => exact (settle_steady (w := w) (encBitDone_steady (beginSession .encode m e s))).of_sameFifos hq rfl fun _ => rfl
  | decode => exact (settle_steady (w := w) (primeFrom_steady 4 rfl)).of_sameFifos hq rfl fun _ => rfl

theorem bitField_encode_encBit (b : Bool) : bitField (encode (.encBit b)) 0 = b := by cases b <;> decide

theorem extractLsb'_encode_encByte (v : Byte) : (encode (.encByte v)).extractLsb' 0 8 = v := by
  apply BitVec.eq_of_toNat_eq
  have hv := v.isLt
  rw [BitVec.extractLsb'_toNat, Laws.EncodingForm.toNat_encode, Laws.EncodingForm.toNat_operandBits, Nat.shiftRight_eq_div_pow]
  simp only [Laws.EncodingForm.operandNat]
  omega

theorem settle_semOf_steady (i : Instr) (s : State) : SteadyStep (fun u => settle (encode i) (semOf i u)) s := by
  cases i with
  | nop => exact settle_steady (steady_done fun _ => rfl)
  | init d m e => exact settle_initSem_steady d m e s
  | encBit b =>
    refine settle_steady (encPredBit_steady (pos := .encBit) (fun u => ?_) encBitDone_steady s)
    show resumeEncBit _ u = _
    rw [resumeEncBit, bitField_encode_encBit]
  | encByte v =>
    have h := encByteFrom_steady (w := encode (.encByte v)) 8 s
    rw [extractLsb'_encode_encByte] at h
    exact settle_steady h
  | decBit => exact settle_steady (decPredBit_steady (pos := .decBit) (fun _ _ => rfl) decBitDone_steady s)
  | decByte => exact settle_steady (decByteFrom_steady 8 0#8 s)
  | encRaw b p => exact settle_steady (rcEncode_steady (pos := .encRaw) (fun _ => rfl) encRawDone_steady b p.toNat s)
  | decRaw p => exact settle_steady (rcDecode_steady (pos := .decRaw) (fun _ _ => rfl) decRawDone_steady p.toNat s)
  | flush => exact settle_steady (flushSem_steady s)
  | getp => exact settle_steady (steady_done fun _ => rfl)
  | rdreg r => exact settle_steady (steady_done fun _ => rfl)

theorem execute_steady (i : Instr) (s : State) : SteadyStep (execute i (semOf i)) s := by
  have hcheck (a : HostActs) : check i (a.ease s) = check i s := rfl
  cases hc : check i s with
  | ok => exact (settle_semOf_steady i s).of_sameFifos (.refl s) (by simp [execute, hc]) fun a => by simp [execute, hcheck, hc]
  | refused =>
    exact (refuse_steady (encode i) s).of_sameFifos (.refl s) (by simp [execute, hc]) fun a => by simp [execute, hcheck, hc]
  | fault f =>
    exact (checkFault_steady (encode i) f s).of_sameFifos (.refl s) (by simp [execute, hc]) fun a => by simp [execute, hcheck, hc]

theorem executeIllegal_steady (w : Word) (e : DecodeError) (s : State) : SteadyStep (executeIllegal w e) s := by
  have hcheck (a : HostActs) : checkIllegal w e (a.ease s) = checkIllegal w e s := rfl
  cases hc : checkIllegal w e s with
  | none =>
    exact (refuse_steady w s).of_sameFifos (.refl s) (by simp [executeIllegal, hc]) fun a => by simp [executeIllegal, hcheck, hc]
  | some f =>
    exact (checkFault_steady w f s).of_sameFifos (.refl s) (by simp [executeIllegal, hc]) fun a => by simp [executeIllegal, hcheck, hc]

/-- Going on with a sound held command is a steady step: the reads of INIT and FLUSH are those of their side. -/
theorem resume_steady {c : InProgress} (h : HeldCommandOk s c.word c.pos) : SteadyStep (resume c) s := by
  obtain ⟨w, pos⟩ := c
  cases pos with
  | prime left =>
    obtain ⟨-, -, hd, -⟩ := h
    exact settle_steady (primeFrom_steady left hd)
  | encBit =>
    exact settle_steady (renormThen_steady (pos := .encBit) (fun _ => rfl) (finishPredBit_steady encBitDone_steady _) s)
  | encByte k =>
    exact settle_steady (renormThen_steady (pos := .encByte k) (fun _ => rfl) (finishPredBit_steady (encByteFrom_steady k) _) s)
  | decBit y =>
    exact settle_steady (renormThen_steady (pos := .decBit y) (fun _ => rfl) (finishPredBit_steady (decBitDone_steady y) y) s)
  | decByte k acc y =>
    exact settle_steady
      (renormThen_steady (pos := .decByte k acc y) (fun _ => rfl) (finishPredBit_steady (decByteFrom_steady k (pushBit acc y)) y) s)
  | encRaw => exact settle_steady (renormThen_steady (pos := .encRaw) (fun _ => rfl) encRawDone_steady s)
  | decRaw y => exact settle_steady (renormThen_steady (pos := .decRaw y) (fun _ => rfl) (decRawDone_steady y) s)
  | flushEnc left =>
    obtain ⟨-, -, hd, -⟩ := h
    exact settle_steady (flushEncFrom_steady left hd)
  | flushDec =>
    obtain ⟨-, -, hd, -⟩ := h
    exact settle_steady (endItem_steady hd)
  | respond st data => exact respond_steady w st data s

theorem commandOk_iff {c : InProgress} (hc : s.cip = some c) : CommandOk s ↔ HeldCommandOk s c.word c.pos := by
  simp [CommandOk, hc]

/-- A step is one of these ways to run, chosen by the command in progress and CMDQ alone. -/
theorem step_steady (s : State) : ∃ body : State → State, ∀ u : State, u.cip = s.cip → u.cmdq = s.cmdq → CommandOk u →
    step u = .next (body u) ∧ SteadyStep body u := by
  cases hc : s.cip with
  | some c =>
    exact ⟨resume c, fun u huc _ hok => ⟨by simp [step, fetch, huc], resume_steady ((commandOk_iff huc).1 hok)⟩⟩
  | none =>
    cases hq : s.cmdq with
    | nil =>
      refine ⟨id, fun u huc huq _ => ⟨by simp [step, fetch, huc, huq], ?_, fun a c _ hcip => ?_, fun a _ _ => ?_⟩⟩
      · exact (SameFifos.refl u).streams
      · cases huc.symm.trans hcip
      · simp [ease, act, huc]
    | cons w rest =>
      have hrest (u : State) : SameFifos u { u with cmdq := rest } := ⟨rfl, rfl, rfl, rfl⟩
      cases hdec : decode w with
      | ok i =>
        refine ⟨fun u => execute i (semOf i) { u with cmdq := rest }, fun u huc huq _ => ⟨?_, ?_⟩⟩
        · simp [step, fetch, huc, huq, hdec, exec_eq]
        · exact (execute_steady i _).of_sameFifos (hrest u) rfl fun _ => rfl
      | error e =>
        refine ⟨fun u => executeIllegal w e { u with cmdq := rest }, fun u huc huq _ => ⟨?_, ?_⟩⟩
        · simp [step, fetch, huc, huq, hdec]
        · exact (executeIllegal_steady w e _).of_sameFifos (hrest u) rfl fun _ => rfl

end Steps

theorem CommandOk.act (h : CommandOk s) (a : HostActs) : CommandOk (a.act s) := by
  cases hc : s.cip with
  | none => simp [CommandOk, HostActs.act, hc]
  | some c =>
    rw [commandOk_iff hc] at h
    rw [commandOk_iff (s := a.act s) hc]
    obtain ⟨w, pos⟩ := c
    cases pos <;> exact h

/-- Every step from a sound command in progress moves the streams one way. -/
theorem step_streams (h : CommandOk s) (hst : step s = .next t) : Streams s t := by
  obtain ⟨body, hbody⟩ := step_steady s
  obtain ⟨hs, hsteady⟩ := hbody s rfl rfl h
  cases hst.symm.trans hs
  exact hsteady.streams

/-- Where a step ends in a hold, it makes no difference whether the host acts before the step or at the hold. -/
theorem step_act_of_held {c : InProgress} (hs : CommandOk s) (ht : CommandOk t) (hst : step s = .next t) (hc : t.cip = some c)
    (hf : a.Fits s) : step (a.act t) = step (a.act s) := by
  obtain ⟨body, hbody⟩ := step_steady s
  obtain ⟨hstep, hsteady⟩ := hbody s rfl rfl hs
  obtain ⟨hstep', hsteady'⟩ := hbody (a.act s) rfl rfl (hs.act a)
  cases hst.symm.trans hstep
  have hheld : SteadyStep (resume c) (a.act (body s)) := resume_steady ((commandOk_iff hc).1 (ht.act a))
  calc step (a.act (body s)) = .next (resume c (a.act (body s))) := by simp [step, fetch, act, hc]
    _ = .next (resume c (a.ease (body s))) := by rw [← hheld.of_unrecorded, ease]
    _ = .next (body (a.ease s)) := by rw [hsteady.held a c hf hc]
    _ = .next (body (a.act s)) := by rw [← hsteady'.of_unrecorded, ease]
    _ = step (a.act s) := hstep'.symm

/-- Acts of the host that clear no FIFO condition commute with a step. -/
theorem step_act_of_clearsNothing (hs : CommandOk s) (hst : step s = .next t) (hf : a.Fits s) (hcl : a.ClearsNothing s) :
    step (a.act s) = .next (a.act t) := by
  obtain ⟨body, hbody⟩ := step_steady s
  obtain ⟨hstep, hsteady⟩ := hbody s rfl rfl hs
  obtain ⟨hstep', hsteady'⟩ := hbody (a.act s) rfl rfl (hs.act a)
  cases hst.symm.trans hstep
  rw [hstep', ← hsteady'.of_unrecorded, ← hsteady.exact a hf hcl]
  rfl

/-! ## The host's pushes and pops as acts -/

namespace HostActs

/-- The push of one input item. -/
def push (x : InItem) (d : Depths) : HostActs := { idle d with pushed := [x] }

/-- The pop of one byte. -/
def pop (d : Depths) : HostActs := { idle d with popped := 1 }

/-- The pop of one response. -/
def readOne (d : Depths) : HostActs := { idle d with read := 1 }

/-- One more place in OUTQ. -/
def outPlace (d : Depths) : HostActs := idle { d with out := d.out + 1 }

theorem fits_push (x : InItem) (s : State) : (push x s.depths).Fits s := ⟨Nat.zero_le _, le_rfl⟩

theorem fits_readOne (s : State) : (readOne s.depths).Fits s := ⟨Nat.zero_le _, le_rfl⟩

theorem fits_outPlace (s : State) : (outPlace s.depths).Fits s := ⟨Nat.zero_le _, Nat.le_succ _⟩

theorem fits_pop {b : Byte} {rest : List Byte} (h : s.outq = b :: rest) : (pop s.depths).Fits s :=
  ⟨by simp [h, pop], Nat.le_succ _⟩

end HostActs

theorem withInput_eq_act (x : InItem) {d : Depths} (h : s.depths = d) : withInput x s = (push x d).act s := by
  subst h
  rfl

theorem withOutPlace_eq_act {d : Depths} (h : s.depths = d) : withOutPlace s = (outPlace d).act s := by
  subst h
  simp [withOutPlace, outPlace, idle, act]

theorem popOutput_eq_act {b : Byte} {rest : List Byte} {d : Depths} (h : s.outq = b :: rest) (hd : s.depths = d) :
    popOutput s = some (b, (pop d).act s) := by
  subst hd
  simp [popOutput_of_cons h, pop, idle, act, h]

theorem popResponse_eq_act {r : Response} {rest : List Response} {d : Depths} (h : s.respq = r :: rest) (hd : s.depths = d) :
    popResponse s = some (r, (readOne d).act s) := by
  subst hd
  simp [popResponse_of_cons h, readOne, idle, act, h]

/-! ### What a pop is worth -/

/-- The first item of a queue that grows at its tail stays the first. -/
theorem eq_cons_tail_of_prefix {α : Type} {x : α} {xs ys : List α} (h : x :: xs <+: ys) : ys = x :: ys.tail := by
  obtain ⟨zs, rfl⟩ := h
  rfl

/-- A byte popped before a step that ends in a hold might as well be popped at the hold. -/
theorem popOutput_of_held {c : InProgress} (h : Inv s) (hst : step s = .next t) (hc : t.cip = some c) {b : Byte} {s' : State}
    (hp : popOutput s = some (b, s')) : ∃ t', popOutput t = some (b, t') ∧ step t' = step s' := by
  have hstr := step_streams h.command hst
  obtain ⟨rest, hq, -⟩ := popOutput_eq_some hp
  cases hp.symm.trans (popOutput_eq_act hq rfl)
  refine ⟨_, popOutput_eq_act (eq_cons_tail_of_prefix (hq ▸ hstr.out)) hstr.depths, ?_⟩
  exact step_act_of_held h.command (h.step hst).command hst hc (fits_pop hq)

/-- A held command goes on with one more place in OUTQ as in one step with that place from the start. -/
theorem step_withOutPlace_of_held {c : InProgress} (h : Inv s) (hst : step s = .next t) (hc : t.cip = some c) :
    step (withOutPlace t) = step (withOutPlace s) := by
  rw [withOutPlace_eq_act (step_streams h.command hst).depths, withOutPlace_eq_act rfl]
  exact step_act_of_held h.command (h.step hst).command hst hc (fits_outPlace s)

/-- A place in OUTQ is worth a byte popped from it: the step after the pop is the step with the place, less the byte and the place. -/
theorem step_popOutput_of_withOutPlace (h : CommandOk t) (hu : step (withOutPlace t) = .next u) {b : Byte} {t' : State}
    (hp : popOutput t = some (b, t')) :
    u.outq = b :: u.outq.tail ∧ step t' = .next { u with outq := u.outq.tail, depths := t.depths } := by
  obtain ⟨rest, hq, rfl⟩ := popOutput_eq_some hp
  have hok : CommandOk (withOutPlace t) := withOutPlace_eq_act rfl ▸ h.act _
  have hfits : (pop t.depths).Fits (withOutPlace t) := ⟨by simp [withOutPlace, hq, pop], le_rfl⟩
  have hstep := step_act_of_clearsNothing hok hu hfits ⟨rfl, rfl, rfl, rfl⟩
  refine ⟨eq_cons_tail_of_prefix (hq ▸ (step_streams hok hu).out), ?_⟩
  simpa [pop, idle, act, withOutPlace, hq] using hstep

/-- A response popped before a step that ends in a hold might as well be popped at the hold. -/
theorem popResponse_of_held {c : InProgress} (h : Inv s) (hst : step s = .next t) (hc : t.cip = some c) {r : Response} {s' : State}
    (hp : popResponse s = some (r, s')) : ∃ t', popResponse t = some (r, t') ∧ step t' = step s' := by
  have hstr := step_streams h.command hst
  obtain ⟨rest, hq, -⟩ := popResponse_eq_some hp
  cases hp.symm.trans (popResponse_eq_act hq rfl)
  refine ⟨_, popResponse_eq_act (eq_cons_tail_of_prefix (hq ▸ hstr.resp)) hstr.depths, ?_⟩
  exact step_act_of_held h.command (h.step hst).command hst hc (fits_readOne s)

/-! ## The statements -/

/-- Settles O21: the directions in which a step moves the streams. -/
theorem streamsMoveOneWay : Obligations.StreamsMoveOneWay := by
  intro s t h hst
  have hstr := step_streams h.command hst
  obtain ⟨bs, hbs⟩ := hstr.out
  obtain ⟨xs, hxs⟩ := hstr.inp
  exact ⟨hstr.decode, hstr.encode, ⟨bs, hbs.symm⟩, ⟨xs, hxs.symm⟩⟩

/-- Settles O58: a push is an act that may come at the hold; INQ has not grown meanwhile. -/
theorem inputArrivalTimeDoesNotMatter : Obligations.InputArrivalTimeDoesNotMatter := by
  intro s t c x h hst hc _
  have hstr := step_streams h.command hst
  have harrival : step (withInput x t) = step (withInput x s) := by
    rw [withInput_eq_act x hstr.depths, withInput_eq_act x rfl]
    exact step_act_of_held h.command (h.step hst).command hst hc (fits_push x s)
  refine ⟨harrival, fun s' hs' => ⟨withInput x t, ?_, ?_⟩⟩
  · have hroom : s.inq.length < s.depths.inp := by
      by_contra hfull
      simp [pushInput, hfull] at hs'
    exact if_pos (by rw [hstr.depths]; exact hstr.inp.length_le.trans_lt hroom)
  · rw [harrival, pushInput_eq_some hs']
    rfl

/-- Settles O59: pops are acts that may come at the hold, and a place is worth a byte. -/
theorem outputDrainTimeDoesNotMatter : Obligations.OutputDrainTimeDoesNotMatter := by
  intro s t c h hst hc
  have hdepths := (step_streams h.command hst).depths
  refine ⟨fun _ => ⟨fun b s' hp => popOutput_of_held h hst hc hp, ?_⟩, fun _ r s' hp => popResponse_of_held h hst hc hp⟩
  obtain ⟨body, hbody⟩ := step_steady (withOutPlace s)
  have hu := (hbody (withOutPlace s) rfl rfl (withOutPlace_eq_act rfl ▸ h.command.act _)).1
  have hu' := (step_withOutPlace_of_held h hst hc).trans hu
  exact ⟨_, hu, hu', fun b t' hp => hdepths ▸ step_popOutput_of_withOutPlace (h.step hst).command hu' hp⟩

end Sys2Proof.Machine
end

section
/-! PROOFS. The encoding (30_encoding.md R60-R66): decoding and encoding are inverse, a word selects its row of the opcode map, and the
response word has its fields. -/

namespace Sys2Proof.Machine

open Laws.EncodingForm

/-! ## The two tests of the decoder -/

theorem decode_eq_ok_iff {w : Word} {i : Instr} : decode w = .ok i ↔ decodeFields w = some i ∧ reservedSet w = 0#32 := by
  unfold decode
  cases decodeFields w with
  | none => simp
  | some j => by_cases hr : reservedSet w = 0#32 <;> simp [hr]

/-- The opcodes 0xB-0xF, and no others, are reserved (R64). -/
theorem decodeFields_eq_none_iff (w : Word) : decodeFields w = none ↔ 0xB ≤ (opcodeOf w).toNat := by
  have hop := (opcodeOf w).isLt
  unfold decodeFields
  generalize (opcodeOf w).toNat = n at hop
  interval_cases n <;> simp

theorem opc_of_decodeFields {w : Word} {i : Instr} (h : decodeFields w = some i) : i.opc = opcodeOf w := by
  apply BitVec.eq_of_toNat_eq
  unfold decodeFields at h
  split at h <;> cases h <;> exact Eq.symm ‹_›

/-! ## Fields as numbers -/

theorem toNat_field (w : Word) (k n : Nat) : (w.extractLsb' k n).toNat = w.toNat / 2 ^ k % 2 ^ n := by
  rw [BitVec.extractLsb'_toNat, Nat.shiftRight_eq_div_pow]

theorem toNat_bitField (w : Word) (k : Nat) : (bitField w k).toNat = w.toNat / 2 ^ k % 2 := Nat.toNat_testBit _ _

theorem toNat_bit_dirField (b : Bool) : (dirField b).bit.toNat = b.toNat := by cases b <;> rfl

section

variable {w : Word} {k : Nat}

theorem field_of_toNat {n : Nat} {v : BitVec n} (h : w.toNat / 2 ^ k % 2 ^ n = v.toNat) : w.extractLsb' k n = v :=
  BitVec.eq_of_toNat_eq ((toNat_field w k n).trans h)

theorem bitField_of_toNat {b : Bool} (h : w.toNat / 2 ^ k % 2 = b.toNat) : bitField w k = b :=
  BitVec.ofBool_eq_iff_eq.1 (BitVec.eq_of_toNat_eq (by rw [BitVec.toNat_ofBool, BitVec.toNat_ofBool, toNat_bitField, h]))

theorem dirField_of_toNat {d : Dir} (h : w.toNat / 2 ^ k % 2 = d.bit.toNat) : dirField (bitField w k) = d := by
  cases d with
  | encode => rw [bitField_of_toNat (b := false) h, dirField, if_neg Bool.false_ne_true]
  | decode => rw [bitField_of_toNat (b := true) h, dirField, if_pos rfl]

end

/-! ## Decoding the word of a command -/

/-- Each field of a command stands in its word where the decoder reads it (R61, R62). -/
theorem decodeFields_encode (i : Instr) : decodeFields (encode i) = some i := by
  have hw := toNat_encode i
  rw [toNat_operandBits] at hw
  unfold decodeFields
  rw [opcodeOf_encode]
  cases i with
  | init d m a =>
    have hd := d.bit.isLt
    have hm := m.isLt
    have ha := a.toNat_lt
    simp only [operandNat] at hw
    show some (Instr.init _ _ _) = _
    rw [dirField_of_toNat (d := d) (by omega), field_of_toNat (v := m) (by omega), bitField_of_toNat (b := a) (by omega)]
  | encBit b =>
    show some (Instr.encBit _) = _
    rw [bitField_encode_encBit]
  | encByte v =>
    show some (Instr.encByte _) = _
    rw [extractLsb'_encode_encByte]
  | encRaw b p =>
    have hb := b.toNat_lt
    have hp := p.isLt
    simp only [operandNat] at hw
    show some (Instr.encRaw _ _) = _
    rw [bitField_of_toNat (b := b) (by omega), field_of_toNat (v := p) (by omega)]
  | decRaw p =>
    have hp := p.isLt
    simp only [operandNat] at hw
    show some (Instr.decRaw _) = _
    rw [field_of_toNat (v := p) (by omega)]
  | rdreg r =>
    have hr := r.isLt
    simp only [operandNat] at hw
    show some (Instr.rdreg _) = _
    rw [field_of_toNat (v := r) (by omega)]
  | nop => rfl
  | decBit => rfl
  | decByte => rfl
  | flush => rfl
  | getp => rfl

/-- Below the opcode a mask covers every reserved bit of its format (R61, R63). -/
theorem getLsbD_maskOf_of_le (i : Instr) : ∀ j < 28, reservedFrom i ≤ j → (maskOf i.opc).getLsbD j = true := by
  cases i <;> simp only [Instr.opc, reservedFrom] <;> decide

/-- A mask covers no operand bit of its format (R61, R63). -/
theorem getLsbD_maskOf_of_lt (i : Instr) : ∀ j < reservedFrom i, (maskOf i.opc).getLsbD j = false := by
  cases i <;> simp only [Instr.opc, reservedFrom] <;> decide

/-- Settles O2: the fields stand where the decoder reads them, and no reserved bit is set. -/
theorem decodeOfEncodeIsTheCommand : Obligations.DecodeOfEncodeIsTheCommand := fun i =>
  decode_eq_ok_iff.2 ⟨decodeFields_encode i, (of_mask i (getLsbD_maskOf_of_lt i)).2⟩

/-! ## The word of a decoded command -/

/-- The operand bits of a word that sets no reserved bit end where its format does. -/
theorem operands_lt {w : Word} {i : Instr} (hi : i.opc = opcodeOf w) (hr : reservedSet w = 0#32) :
    w.toNat % 2 ^ 28 < 2 ^ reservedFrom i := by
  refine Nat.lt_pow_two_of_testBit _ fun j hj => ?_
  rw [Nat.testBit_mod_two_pow]
  by_cases h28 : j < 28
  · have hbit : (reservedSet w).getLsbD j = false := by simp [hr]
    have hmask : (maskOf (opcodeOf w)).getLsbD j = true := hi ▸ getLsbD_maskOf_of_le i j h28 hj
    have hlow : (0x0FFFFFFF#32).getLsbD j = true := (by decide : ∀ j < 28, (0x0FFFFFFF#32).getLsbD j = true) j h28
    rw [reservedSet, BitVec.getLsbD_and, BitVec.getLsbD_and, hmask, hlow] at hbit
    simpa [h28, BitVec.getLsbD] using hbit
  · simp [h28]

/-- The operand bits of a word that sets no reserved bit are the fields the decoder reads. -/
theorem operandNat_of_decodeFields {w : Word} {i : Instr} (h : decodeFields w = some i)
    (hlt : w.toNat % 2 ^ 28 < 2 ^ reservedFrom i) : operandNat i = w.toNat % 2 ^ 28 := by
  unfold decodeFields at h
  split at h <;> cases h
  all_goals
    simp only [reservedFrom] at hlt
    simp only [operandNat, toNat_bit_dirField, toNat_bitField, toNat_field]
    omega

/-- Settles O3: the word is its opcode, then the fields the decoder read. -/
theorem encodeOfDecodeIsTheWord : Obligations.EncodeOfDecodeIsTheWord := by
  intro w i h
  obtain ⟨hi, hr⟩ := decode_eq_ok_iff.1 h
  have hopc := opc_of_decodeFields hi
  have hw := w.isLt
  apply BitVec.eq_of_toNat_eq
  rw [toNat_encode, toNat_operandBits, operandNat_of_decodeFields hi (operands_lt hopc hr), hopc, opcodeOf, toNat_field]
  omega

/-! ## The opcode map -/

/-- A word is an opcode alone when its operand bits are 0. -/
theorem eq_opcode_append_zero_iff (x : Word) (c : BitVec 4) :
    x = c ++ 0#28 ↔ opcodeOf x = c ∧ x &&& 0x0FFFFFFF#32 = 0#32 := by
  have hx := x.isLt
  have hc := c.isLt
  have hand : (x &&& 0x0FFFFFFF#32).toNat = x.toNat % 2 ^ 28 := Nat.and_two_pow_sub_one_eq_mod x.toNat 28
  rw [← BitVec.toNat_inj, ← BitVec.toNat_inj, ← BitVec.toNat_inj, hand, toNat_append, opcodeOf, toNat_field]
  simp only [BitVec.toNat_ofNat]
  omega

/-- Every mask covers the opcode (R63). -/
theorem opcodeOf_and_maskOf (w : Word) (c : BitVec 4) : opcodeOf (w &&& maskOf c) = opcodeOf w := by
  have hall : (maskOf c).extractLsb' 28 4 = 0xF#4 := (by decide : ∀ c : BitVec 4, (maskOf c).extractLsb' 28 4 = 0xF#4) c
  rw [opcodeOf, BitVec.extractLsb'_and, hall]
  exact BitVec.and_allOnes

/-- A word agrees with an opcode under its mask exactly when it has that opcode and sets no reserved bit (R63). -/
theorem and_maskOf_eq_iff (w : Word) (c : BitVec 4) :
    w &&& maskOf c = c ++ 0#28 ↔ opcodeOf w = c ∧ reservedSet w = 0#32 := by
  rw [eq_opcode_append_zero_iff, opcodeOf_and_maskOf]
  refine and_congr_right fun hc => ?_
  rw [reservedSet, hc]

/-- The row of an opcode: its word without operands, and its mask. -/
def opcodeRow (c : BitVec 4) : BitVec 4 × Word × Word := (c, c ++ 0#28, maskOf c)

theorem opcodeMap_eq : opcodeMap = (List.range 0xB).map fun n => opcodeRow (BitVec.ofNat 4 n) := by decide

/-- The rows of the map are those of the defined opcodes (R63). -/
theorem mem_opcodeMap_iff {row : BitVec 4 × Word × Word} : row ∈ opcodeMap ↔ ∃ c : BitVec 4, c.toNat < 0xB ∧ opcodeRow c = row := by
  rw [opcodeMap_eq, List.mem_map]
  constructor
  · rintro ⟨n, hn, rfl⟩
    have hlt := List.mem_range.1 hn
    refine ⟨_, ?_, rfl⟩
    rw [BitVec.toNat_ofNat]
    omega
  · rintro ⟨c, hc, rfl⟩
    exact ⟨c.toNat, List.mem_range.2 hc, by rw [BitVec.ofNat_toNat, BitVec.setWidth_eq]⟩

theorem exists_decodeFields {w : Word} (h : (opcodeOf w).toNat < 0xB) : ∃ i, decodeFields w = some i :=
  Option.ne_none_iff_exists'.1 fun hn => Nat.not_le.2 h ((decodeFields_eq_none_iff w).1 hn)

/-- A word decodes to a command with a defined opcode exactly when it has that opcode and sets no reserved bit (R64, R65). -/
theorem exists_decode_iff {w : Word} {c : BitVec 4} (hc : c.toNat < 0xB) :
    (∃ i, decode w = .ok i ∧ i.opc = c) ↔ opcodeOf w = c ∧ reservedSet w = 0#32 := by
  constructor
  · rintro ⟨i, hdec, rfl⟩
    obtain ⟨hi, hr⟩ := decode_eq_ok_iff.1 hdec
    exact ⟨(opc_of_decodeFields hi).symm, hr⟩
  · rintro ⟨rfl, hr⟩
    obtain ⟨i, hi⟩ := exists_decodeFields hc
    exact ⟨i, decode_eq_ok_iff.2 ⟨hi, hr⟩, opc_of_decodeFields hi⟩

/-- Settles O4: matching a row and decoding to its opcode both say that the word has the opcode and sets no reserved bit. -/
theorem wordSelectsItsRowOfTheOpcodeMap : Obligations.WordSelectsItsRowOfTheOpcodeMap := by
  refine ⟨?_, fun w hop => ?_, fun w hop hrows => ?_⟩
  · intro row hrow w
    obtain ⟨c, hc, rfl⟩ := mem_opcodeMap_iff.1 hrow
    exact (and_maskOf_eq_iff w c).trans (exists_decode_iff hc).symm
  · simp only [decode, (decodeFields_eq_none_iff w).2 hop]
  · have hr : reservedSet w ≠ 0#32 := fun hr =>
      hrows (opcodeRow (opcodeOf w)) (mem_opcodeMap_iff.2 ⟨_, hop, rfl⟩) ((and_maskOf_eq_iff w _).2 ⟨rfl, hr⟩)
    obtain ⟨i, hi⟩ := exists_decodeFields hop
    simp only [decode, hi, if_neg hr]

/-! ## Words of the tables and of the responses -/

/-- Settles O1, by running the decoder on each word. -/
theorem specWordsDecodeToTheirCommands : Obligations.SpecWordsDecodeToTheirCommands := by
  unfold Obligations.SpecWordsDecodeToTheirCommands
  decide

/-- Settles O10: the response is DATA, the reserved bits, OPC and STATUS side by side. -/
theorem responseWordHasItsFields : Obligations.ResponseWordHasItsFields := by
  intro w st data
  have low {k n : Nat} (h : k + n ≤ 12) :
      (responseWord w st data).extractLsb' k n = (w.extractLsb' 28 4 ++ st).extractLsb' k n := by
    rw [responseWord, BitVec.extractLsb'_append_eq_of_add_le (by omega), BitVec.extractLsb'_append_eq_of_add_le h]
  refine ⟨?_, ?_, ?_, BitVec.extractLsb'_append_eq_left⟩
  · rw [low (by omega), BitVec.extractLsb'_append_eq_right]
  · rw [low (by omega), BitVec.extractLsb'_append_eq_left]
  · rw [responseWord, BitVec.extractLsb'_append_eq_of_add_le (by omega)]
    exact BitVec.extractLsb'_append_eq_left

end Sys2Proof.Machine
end

section
/-! PROOFS. Every command is answered exactly once: pseudocode writes neither CMDQ nor RESPQ, and what ends or stops a command either
pushes its one response or keeps it in progress (30_encoding.md R66; 43_commands.md R150; 20_memory.md R51). -/

namespace Sys2Proof.Machine

variable {s t u : State} {w : Word}

/-! ## What pseudocode can write -/

/-- One write of the pseudocode of a command. -/
inductive SemWrite : State → State → Prop where
  /-- A subdivision, a renormalisation, or a byte of a stream. -/
  | coder {s t : State} (h : SameButCoder s t) : SemWrite s t
  /-- The end of a predicted bit. -/
  | predBit (y : Bool) (s : State) : SemWrite s (finishPredBit y s)
  /-- The end of a raw bit. -/
  | rawBit (s : State) : SemWrite s (countBit s)
  /-- INIT begins a session. -/
  | start (d : Dir) (m : BitVec 2) (a : Bool) (s : State) : SemWrite s (beginSession d m a s)
  /-- FLUSH ends it. -/
  | finish (s : State) : SemWrite s { s with sstate := .done }

/-- A chain of such writes. -/
abbrev SemWrites : State → State → Prop := Relation.ReflTransGen SemWrite

theorem outPush_same {b : Byte} (h : outPush b s = some t) : SameButCoder s t := by
  obtain ⟨-, rfl⟩ := outPush_eq_some h
  constructor <;> rfl

theorem inPop_same {x : InItem} (h : inPop s = .item x t) : SameButCoder s t := by
  obtain ⟨rest, n, -, rfl⟩ := inPop_item h
  constructor <;> rfl

theorem shiftCode_same (b : Byte) (s : State) : SameButCoder s (shiftCode b s) := by constructor <;> rfl

section Pseudocode

variable {pos : HoldPoint} {next : State → Result}

theorem renormThen_writes (hn : ∀ t, SemWrites t (next t).state) (s : State) : SemWrites s (renormThen pos next s).state := by
  have h := SemWrite.coder (renorm_same s)
  unfold renormThen
  cases hr : renorm renormFuel s <;> rw [hr] at h
  case settled t => exact .head h (hn t)
  case held t => exact .single h
  case raised f t => exact .single h

theorem rcEncode_writes (hn : ∀ t, SemWrites t (next t).state) (y : Bool) (p : Nat) (s : State) :
    SemWrites s (rcEncode y p pos next s).state := by
  unfold rcEncode
  split
  · exact .head (.coder (narrow_same y p s)) (renormThen_writes hn _)
  · exact .refl

/-- A decoded bit is coded as the bit CODE selects. -/
theorem rcDecode_writes {pos : Bool → HoldPoint} {next : Bool → State → Result} (hn : ∀ y t, SemWrites t (next y t).state)
    (p : Nat) (s : State) : SemWrites s (rcDecode p pos next s).state :=
  rcEncode_writes (hn _) (decodedBit p s) p s

/-- What follows a predicted bit, its end included. -/
theorem finishPredBit_writes (hn : ∀ t, SemWrites t (next t).state) (y : Bool) (t : State) :
    SemWrites t (next (finishPredBit y t)).state := .head (.predBit y t) (hn _)

theorem encBitDone_writes (t : State) : SemWrites t (encBitDone t).state := .refl

theorem decBitDone_writes (y : Bool) (t : State) : SemWrites t (decBitDone y t).state := .refl

theorem encRawDone_writes (t : State) : SemWrites t (encRawDone t).state := .single (.rawBit t)

theorem decRawDone_writes (y : Bool) (t : State) : SemWrites t (decRawDone y t).state := .single (.rawBit t)

theorem encByteFrom_writes (v : Byte) (k : Nat) (s : State) : SemWrites s (encByteFrom v k s).state := by
  induction k generalizing s with
  | zero => exact .refl
  | succ k ih => exact rcEncode_writes (finishPredBit_writes ih _) _ _ s

theorem decByteFrom_writes (k : Nat) (acc : Byte) (s : State) : SemWrites s (decByteFrom k acc s).state := by
  induction k generalizing acc s with
  | zero => exact .refl
  | succ k ih => exact rcDecode_writes (fun y => finishPredBit_writes (ih (pushBit acc y)) y) _ s

theorem primeFrom_writes (left : Nat) (s : State) : SemWrites s (primeFrom left s).state := by
  induction left generalizing s with
  | zero => exact .refl
  | succ left ih =>
    unfold primeFrom
    cases h : inPop s with
    | empty => exact .refl
    | item x t =>
      cases x with
      | byte b => exact .head (.coder ((inPop_same h).trans (shiftCode_same b t))) (ih _)
      | endMark => exact .single (.coder (inPop_same h))

theorem flushEncFrom_writes (left : Nat) (s : State) : SemWrites s (flushEncFrom left s).state := by
  induction left generalizing s with
  | zero => exact .single (.finish s)
  | succ left ih =>
    unfold flushEncFrom
    cases h : outPush (s.low.extractLsb' (8 * left) 8) s with
    | none => exact .refl
    | some t => exact .head (.coder (outPush_same h)) (ih t)

theorem endItem_writes (s : State) : SemWrites s (endItem s).state := by
  unfold endItem
  cases h : inPop s with
  | empty => exact .refl
  | item x t =>
    cases x with
    | byte b => exact .single (.coder (inPop_same h))
    | endMark => exact .head (.coder (inPop_same h)) (.single (.finish t))

theorem flushSem_writes (s : State) : SemWrites s (flushSem s).state := by
  unfold flushSem endDec
  split
  · exact flushEncFrom_writes 4 s
  · split
    · exact endItem_writes s
    · exact .refl

theorem initSem_writes (d : Dir) (m : BitVec 2) (a : Bool) (s : State) : SemWrites s (initSem d m a s).state := by
  cases d with
  | encode => exact .single (.start _ m a s)
  | decode => exact .head (.start _ m a s) (primeFrom_writes 4 _)

/-- The pseudocode of every command is a chain of these writes. -/
theorem semOf_writes (i : Instr) (s : State) : SemWrites s (semOf i s).state := by
  cases i with
  | nop => exact .refl
  | init d m a => exact initSem_writes d m a s
  | encBit b => exact rcEncode_writes (finishPredBit_writes encBitDone_writes b) b _ s
  | encByte v => exact encByteFrom_writes v 8 s
  | decBit => exact rcDecode_writes (fun y => finishPredBit_writes (decBitDone_writes y) y) _ s
  | decByte => exact decByteFrom_writes 8 _ s
  | encRaw b p => exact rcEncode_writes encRawDone_writes b _ s
  | decRaw p => exact rcDecode_writes decRawDone_writes _ s
  | flush => exact flushSem_writes s
  | getp => exact .refl
  | rdreg r => exact .refl

end Pseudocode

/-! ## One response or none -/

/-- The queues of words and responses are the same. -/
structure SameWordQueues (s t : State) : Prop where
  cmdq : t.cmdq = s.cmdq
  respq : t.respq = s.respq

theorem SameWordQueues.trans (h : SameWordQueues s t) (h' : SameWordQueues t u) : SameWordQueues s u :=
  ⟨h'.cmdq.trans h.cmdq, h'.respq.trans h.respq⟩

theorem SemWrite.sameWordQueues (h : SemWrite s t) : SameWordQueues s t := by
  cases h with
  | coder h => exact ⟨h.cmdq, h.respq⟩
  | predBit y => constructor <;> simp [finishPredBit, train_eq]
  | rawBit => exact ⟨rfl, rfl⟩
  | start d m a => exact ⟨rfl, rfl⟩
  | finish => exact ⟨rfl, rfl⟩

/-- No pseudocode takes a word or pushes a response. -/
theorem SemWrites.sameWordQueues (h : SemWrites s t) : SameWordQueues s t := by
  induction h with
  | refl => exact ⟨rfl, rfl⟩
  | tail _ h ih => exact ih.trans h.sameWordQueues

/-- From `s` to `t` no word is taken, and the word `w` is either answered, with one response, or in progress, with none. -/
def AnswersOnce (w : Word) (s t : State) : Prop :=
  t.cmdq = s.cmdq ∧
    ((t.cip = none ∧ ∃ st data, t.respq = s.respq ++ [responseWord w st data]) ∨
     (t.respq = s.respq ∧ ∃ p, t.cip = some { word := w, pos := p }))

theorem AnswersOnce.of_sameWordQueues (hq : SameWordQueues s t) (h : AnswersOnce w t u) : AnswersOnce w s u := by
  obtain ⟨hc, hr⟩ := hq
  rwa [AnswersOnce, ← hc, ← hr]

theorem respond_answersOnce (w : Word) (st : BitVec 8) (data : Word) (s : State) : AnswersOnce w s (respond w st data s) := by
  rcases respond_cases w st data s with ⟨-, h⟩ | ⟨-, h⟩ <;> rw [h]
  · exact ⟨rfl, .inl ⟨rfl, st, data, rfl⟩⟩
  · exact ⟨rfl, .inr ⟨rfl, _, rfl⟩⟩

theorem checkFault_answersOnce (w : Word) (f : FaultCode) (s : State) : AnswersOnce w s (checkFault w f s) :=
  (respond_answersOnce w f.value 0#32 _).of_sameWordQueues ⟨faultEntry_cmdq f s, faultEntry_respq f s⟩

theorem settle_answersOnce (w : Word) {r : Result} (h : SemWrites s r.state) : AnswersOnce w s (settle w r) := by
  refine .of_sameWordQueues h.sameWordQueues ?_
  cases r with
  | done data t => exact respond_answersOnce w statusOk data t
  | held pos t => exact ⟨rfl, .inr ⟨rfl, pos, rfl⟩⟩
  | raised f t => exact checkFault_answersOnce w f t

theorem execute_answersOnce (i : Instr) (s : State) : AnswersOnce (encode i) s (execute i (semOf i) s) := by
  rcases execute_cases i (semOf i) s with ⟨-, h⟩ | ⟨f, -, h⟩ | ⟨-, h⟩ <;> rw [h]
  · exact respond_answersOnce _ _ _ s
  · exact checkFault_answersOnce _ f s
  · exact settle_answersOnce _ (semOf_writes i s)

theorem executeIllegal_answersOnce (w : Word) (e : DecodeError) (s : State) : AnswersOnce w s (executeIllegal w e s) := by
  unfold executeIllegal
  cases checkIllegal w e s with
  | none => exact respond_answersOnce w _ _ s
  | some f => exact checkFault_answersOnce w f s

/-- A held command goes on with the rest of its pseudocode, or at its response. -/
theorem resume_answersOnce (c : InProgress) (s : State) : AnswersOnce c.word s (resume c s) := by
  obtain ⟨w, pos⟩ := c
  cases pos with
  | prime left => exact settle_answersOnce w (primeFrom_writes left s)
  | encBit => exact settle_answersOnce w (renormThen_writes (finishPredBit_writes encBitDone_writes _) s)
  | encByte k =>
    exact settle_answersOnce w (renormThen_writes (finishPredBit_writes (encByteFrom_writes (w.extractLsb' 0 8) k) _) s)
  | decBit y => exact settle_answersOnce w (renormThen_writes (finishPredBit_writes (decBitDone_writes y) y) s)
  | decByte k acc y =>
    exact settle_answersOnce w (renormThen_writes (finishPredBit_writes (decByteFrom_writes k (pushBit acc y)) y) s)
  | encRaw => exact settle_answersOnce w (renormThen_writes encRawDone_writes s)
  | decRaw y => exact settle_answersOnce w (renormThen_writes (decRawDone_writes y) s)
  | flushEnc left => exact settle_answersOnce w (flushEncFrom_writes left s)
  | flushDec => exact settle_answersOnce w (endItem_writes s)
  | respond st data => exact respond_answersOnce w st data s

/-- Taking a word, command or not, answers that word: a command is executed under the word it was decoded from. -/
theorem step_answersOnce_of_word {rest : List Word} (hc : s.cip = none) (hq : s.cmdq = w :: rest) (hst : step s = .next t) :
    AnswersOnce w { s with cmdq := rest } t := by
  rcases step_cases s with ⟨c, hc', -⟩ | ⟨-, hq', -⟩ | ⟨w', rest', i, -, hq', hdec, h⟩ | ⟨w', rest', e, -, hq', -, h⟩
  · cases hc.symm.trans hc'
  · cases hq.symm.trans hq'
  · cases hq.symm.trans hq'
    rw [exec_eq] at h
    cases hst.symm.trans h
    rw [← encodeOfDecodeIsTheWord w i hdec]
    exact execute_answersOnce i _
  · cases hq.symm.trans hq'
    cases hst.symm.trans h
    exact executeIllegal_answersOnce w e _

theorem step_answersOnce_of_inProgress {c : InProgress} (hc : s.cip = some c) (hst : step s = .next t) : AnswersOnce c.word s t := by
  have h : step s = .next (resume c s) := by simp [step, fetch, hc]
  cases hst.symm.trans h
  exact resume_answersOnce c s

/-- Settles O9: a step with a word to take, or a command in progress, answers it once or leaves it in progress. -/
theorem everyCommandAnswersExactlyOnce : Obligations.EveryCommandAnswersExactlyOnce := fun _ _ hst =>
  ⟨fun _ _ hc hq => step_answersOnce_of_word hc hq hst, fun _ hc => step_answersOnce_of_inProgress hc hst⟩

end Sys2Proof.Machine
end

section
/-! PROOFS. The subdivision of the range coder and the probabilities it takes (40_range_coder.md R80, R83, R85, R86, R91). -/

namespace Sys2Proof.Machine

/-! ## The split point -/

/-- The two floored terms of the split point add up to the floor of the whole product, so it is rounded down once (R83). -/
theorem split_eq_floor (r p : Nat) : r / 4096 * p + r % 4096 * p / 4096 = r * p / 4096 := by
  calc r / 4096 * p + r % 4096 * p / 4096 = (4096 * (r / 4096 * p) + r % 4096 * p) / 4096 :=
        (Nat.mul_add_div (by omega) _ _).symm
    _ = (4096 * (r / 4096) + r % 4096) * p / 4096 := by rw [Nat.add_mul, Nat.mul_assoc]
    _ = r * p / 4096 := by rw [Nat.div_add_mod]

/-- The product leaves a 4096th of the width, rounded up, to the upper part (R91). -/
theorem floor_add_ceil_le {r p : Nat} (hp : p ≤ 4095) : r * p / 4096 + (r + 4095) / 4096 ≤ r := by
  have h : r * p ≤ r * 4095 := Nat.mul_le_mul_left r hp
  omega

/-- The split point is computed with no wrap (R83, R95). -/
theorem toNat_xmid {low high : Word} {p : Nat} (h : low < high) (hp : p ≤ 4095) :
    (xmid low high p).toNat = low.toNat + (high.toNat - low.toNat) * p / 4096 := by
  rw [BitVec.lt_def] at h
  have hhi := high.isLt
  have hf := floor_add_ceil_le (r := high.toNat - low.toNat) hp
  unfold xmid
  dsimp only
  rw [Nat.add_assoc, split_eq_floor, BitVec.toNat_ofNat, Nat.mod_eq_of_lt (by omega)]

/-- Nor does the point behind it wrap: it is at most HIGH (R95). -/
theorem toNat_xmid_add_one {low high : Word} {p : Nat} (h : low < high) (hp : p ≤ 4095) :
    (xmid low high p + 1#32).toNat = (xmid low high p).toNat + 1 := by
  have hup := (xmid_bounds h hp).2
  have hhi := high.isLt
  rw [BitVec.toNat_add_of_lt (by simp; omega)]
  simp

/-- Settles O22: both products are as the rule writes them, and their floors together are the floor of the whole. -/
theorem splitPointIsExact : Obligations.SplitPointIsExact := by
  intro low high p hlt _ hp
  obtain ⟨hlo, hup⟩ := xmid_bounds hlt hp
  have hx := toNat_xmid hlt hp
  have hhi := high.isLt
  rw [Nat.and_two_pow_sub_one_eq_mod _ 12, Nat.shiftRight_eq_div_pow, Nat.shiftRight_eq_div_pow]
  refine ⟨?_, ?_, ?_, BitVec.le_def.2 hlo, BitVec.lt_def.2 hup, .inl ?_⟩
  · rw [Nat.add_assoc, split_eq_floor, hx]
  · exact Nat.mul_le_mul (by omega) hp
  · exact lt_of_le_of_lt (Nat.mul_le_mul (by omega : (high.toNat - low.toNat) % 2 ^ 12 ≤ 4095) hp) (by decide)
  · omega

/-- Settles O23: the floor of the product bounds the lower part from both sides, and its ceiling leaves 16 points above. -/
theorem bothPartsOfASplitAreWide : Obligations.BothPartsOfASplitAreWide := by
  refine ⟨fun low high p hwide hp1 hp => ?_, fun s p => ⟨rfl, rfl⟩⟩
  have hlt : low < high := BitVec.lt_def.2 (by omega)
  have hx := toNat_xmid hlt hp
  have hhi := high.isLt
  have hsum := split_eq_floor (high.toNat - low.toNat) p
  have hceil := floor_add_ceil_le (r := high.toNat - low.toNat) hp
  have hwide' : 16 * 1 ≤ (high.toNat - low.toNat) / 4096 * p := Nat.mul_le_mul (by omega) hp1
  have hsucc := toNat_xmid_add_one hlt hp
  rw [Nat.shiftRight_eq_div_pow, show 2 ^ 12 = 4096 from rfl]
  refine ⟨by omega, by omega, by omega, hceil, by omega, by omega⟩

/-- Settles O26: the upper part of a split of width 2^16 can begin at 0x00FFFFFF, the last point of its block of 64 KiB. -/
theorem truncationCanCloseTheInterval : Obligations.TruncationCanCloseTheInterval :=
  ⟨{ State.reset with low := 0x00FF000E#32, high := 0x0100000E#32 }, false, 4095, by unfold Normalised; decide, by decide, by decide,
    by decide, by decide, by decide⟩

/-! ## The probabilities the coder takes -/

theorem one_le_sq {i : Nat} (h : i ≤ 32) : 1 ≤ sq i := by
  revert i
  decide

/-- An interpolation between two values lies above their common bound. -/
theorem le_interpolate {a b c n w : Nat} (ha : c ≤ a) (hb : c ≤ b) (hw : w ≤ n) : c * n ≤ a * (n - w) + b * w :=
  calc c * n = c * (n - w) + c * w := by rw [← Nat.mul_add, Nat.sub_add_cancel hw]
    _ ≤ a * (n - w) + b * w := Nat.add_le_add (Nat.mul_le_mul_right _ ha) (Nat.mul_le_mul_right _ hb)

theorem one_le_squash (d : Int) : 1 ≤ squash d := by
  have hd : -2047 ≤ clamp d (-2047) 2047 ∧ clamp d (-2047) 2047 ≤ 2047 := by unfold clamp; omega
  have hi : (asr (clamp d (-2047) 2047) 7 + 16).toNat + 1 ≤ 32 := by unfold asr; omega
  have h := le_interpolate (n := 128) (w := (clamp d (-2047) 2047 % 128).toNat) (one_le_sq (Nat.le_of_succ_le hi)) (one_le_sq hi)
    (by omega)
  unfold squash
  dsimp only
  omega

theorem one_le_mixPredict (s : State) : 1 ≤ mixPredict s := by
  have hmix : 1 ≤ mixProb s := one_le_squash _
  have hapm : 1 ≤ apmProb s := Nat.le_max_left _ _
  unfold mixPredict apmGuard
  split
  · split
    · omega
    · split <;> omega
  · exact hmix

theorem one_le_predict (s : State) : 1 ≤ predict s := by
  unfold predict
  split
  · exact Nat.le_max_left _ _
  · exact one_le_mixPredict s

/-- A raw probability that passes `Check` is a 12-bit number that is not 0 (60_exceptions.md R191 step 8). -/
theorem rawProb_bounds {i : Instr} {s : State} {p : BitVec 12} (h : check i s = .ok) (hi : allowedInFault i.opc = false)
    (hp : rawProb i = some p) : 1 ≤ p.toNat ∧ p.toNat ≤ 4095 := by
  have hne : p ≠ 0#12 := fun h0 => (sessionChecks_of_check h hi).prob (h0 ▸ hp)
  have hpos : p.toNat ≠ 0 := fun h0 => hne (BitVec.eq_of_toNat_eq h0)
  exact ⟨Nat.one_le_iff_ne_zero.2 hpos, Nat.le_of_lt_succ p.isLt⟩

/-- Settles O39: every table, interpolation and guard of the predictors stays inside the range, and `Check` keeps a raw P there. -/
theorem coderProbabilitiesAreNeverExtreme : Obligations.CoderProbabilitiesAreNeverExtreme :=
  ⟨fun s => ⟨one_le_predict s, predict_le s⟩, fun _ _ _ h => rawProb_bounds h rfl rfl, fun _ _ h => rawProb_bounds h rfl rfl⟩

end Sys2Proof.Machine
end

section
/-! PROOFS. Renormalisation round by round, and the bytes it moves: both sides of a session run the same rounds on one interval
(40_range_coder.md R84, R92). -/

namespace Sys2Proof.Machine

variable {s t u d e d' e' : State}

/-! ## One round -/

/-- The mask of R84 keeps the top byte. -/
theorem and_topMask_eq_zero_iff (x : Word) : x &&& 0xFF000000#32 = 0#32 ↔ x.extractLsb' 24 8 = 0#8 := by
  have low : ∀ i < 24, (0xFF000000#32).getLsbD i = false := by decide
  have top : ∀ i < 8, (0xFF000000#32).getLsbD (24 + i) = true := by decide
  constructor <;> intro h <;> apply BitVec.eq_of_getLsbD_eq <;> intro i hi
  · have hbit := congrArg (BitVec.getLsbD · (24 + i)) h
    simpa [top i hi, hi] using hbit
  · by_cases hi24 : i < 24
    · simp [low i hi24]
    · have hbit := congrArg (BitVec.getLsbD · (i - 24)) h
      have hi8 : i - 24 < 8 := by omega
      simp only [BitVec.getLsbD_extractLsb', hi8, decide_true, Bool.true_and, Nat.add_sub_cancel' (Nat.le_of_not_lt hi24)] at hbit
      simp [hbit]

/-- The test of R84 for a settled top byte: the bounds differ in none of their top eight bits. -/
theorem topSettled_iff_xor (s : State) : topSettled s ↔ (s.low ^^^ s.high) &&& 0xFF000000#32 = 0#32 := by
  rw [and_topMask_eq_zero_iff, BitVec.extractLsb'_xor, BitVec.xor_eq_zero_iff]

/-- The width test of R84, on integers. -/
theorem widthBelowFloor_iff (s : State) : widthBelowFloor s ↔ (s.high.toNat : Int) - s.low.toNat < 2 ^ 16 := by
  unfold widthBelowFloor
  omega

theorem outPush_of_room (b : Byte) (h : s.outq.length < s.depths.out) :
    outPush b s = some { s with outq := s.outq ++ [b], bytesOut := s.bytesOut + 1#32 } := by
  rw [outPush, if_pos h]

theorem outPush_of_full (b : Byte) (h : s.depths.out ≤ s.outq.length) : outPush b s = none := by
  rw [outPush, if_neg (Nat.not_lt.2 h)]

theorem inPop_of_byte {b : Byte} {rest : List InItem} (h : s.inq = .byte b :: rest) :
    inPop s = .item (.byte b) { s with inq := rest, bytesIn := s.bytesIn + 1#32 } := by
  rw [inPop, h]

theorem inPop_of_endMark {rest : List InItem} (h : s.inq = .endMark :: rest) :
    inPop s = .item .endMark { s with inq := rest } := by
  rw [inPop, h]

theorem inPop_of_nil (h : s.inq = []) : inPop s = .empty := by
  rw [inPop, h]

/-- A round may be run before the renormalisation. -/
theorem RenormRound.renorm_eq (h : RenormRound s t) : renorm renormFuel s = renorm renormFuel t :=
  (RenormRounds.head h (.refl t)).renorm_eq

theorem RenormEnd.renorm_eq {r : Renorm} (h : RenormEnd r s) : renorm renormFuel s = r := renorm_succ_of_end h 15

/-- A renormalisation that settles is some rounds to a normalised interval, and those rounds make it settle (R84, R90). -/
theorem renorm_settled_iff : renorm renormFuel s = .settled t ↔ RenormRounds s t ∧ Normalised t := by
  constructor
  · intro h
    obtain ⟨u, hr, he⟩ := renorm_cases s
    rw [h] at he
    cases he with
    | settled htop hw => exact ⟨hr, htop, Nat.le_of_not_lt hw⟩
  · rintro ⟨hr, htop, hw⟩
    rw [hr.renorm_eq]
    exact RenormEnd.renorm_eq (.settled htop (Nat.not_lt.2 hw))

/-! ## The bytes of a renormalisation -/

/-- The rounds from `s` to `t`, `n` of which move a byte. -/
inductive MovesBytes : Nat → State → State → Prop where
  | refl (s : State) : MovesBytes 0 s s
  | shift {n : Nat} {s t u : State} (hs : topSettled s) (h : RenormRound s t) (hr : MovesBytes n t u) : MovesBytes (n + 1) s u
  | cut {n : Nat} {s t u : State} (hs : ¬ topSettled s) (h : RenormRound s t) (hr : MovesBytes n t u) : MovesBytes n s u

theorem RenormRounds.movesBytes (h : RenormRounds s t) : ∃ n, MovesBytes n s t := by
  induction h with
  | refl s => exact ⟨0, .refl s⟩
  | @head s t u hr _ ih =>
    obtain ⟨n, hn⟩ := ih
    by_cases hs : topSettled s
    · exact ⟨n + 1, .shift hs hr hn⟩
    · exact ⟨n, .cut hs hr hn⟩

/-- The bounds after a round of a settled top byte, and after a truncation, as numbers. -/
theorem RenormRound.shift_bounds (h : RenormRound s t) (hs : topSettled s) :
    s.low.toNat / 16777216 = s.high.toNat / 16777216 ∧
      t.low.toNat = s.low.toNat * 256 % 4294967296 ∧ t.high.toNat = s.high.toNat * 256 % 4294967296 + 255 := by
  rw [topSettled_iff] at hs
  rcases h.bounds with hb | ⟨hne, -⟩
  · exact hb
  · exact absurd hs hne

theorem RenormRound.cut_bounds (h : RenormRound s t) (hs : ¬ topSettled s) :
    s.low.toNat / 16777216 ≠ s.high.toNat / 16777216 ∧ s.high.toNat < s.low.toNat + 65536 ∧
      t.low.toNat = s.low.toNat ∧ t.high.toNat = s.low.toNat / 65536 * 65536 + 65535 := by
  rw [topSettled_iff] at hs
  rcases h.bounds with ⟨heq, -⟩ | hb
  · exact absurd heq hs
  · exact hb

/-! ### At most seven -/

/-- HIGH all ones and `k` zero bytes at the low end of LOW: at most `4 - k` more bytes are settled. -/
theorem MovesBytes.le_of_ones {n : Nat} (h : MovesBytes n s t) (k : Nat) (hk : k ≤ 4) (hh : s.high.toNat = 4294967295)
    (hl : s.low.toNat % 256 ^ k = 0) : n + k ≤ 4 := by
  induction h generalizing k with
  | refl s => omega
  | @shift n s t u hs hr _ ih =>
    obtain ⟨h1, h2, h3⟩ := hr.shift_bounds hs
    have hlow := s.low.isLt
    have hk4 : k < 4 := by
      by_contra hk4
      obtain rfl : k = 4 := by omega
      omega
    have := ih (k + 1) hk4 (by omega) (by interval_cases k <;> omega)
    omega
  | cut hs hr =>
    have hb := hr.cut_bounds hs
    omega

/-- After a truncation at most four bytes are settled: two make HIGH all ones (R92). -/
theorem MovesBytes.le_of_cut {n : Nat} (h : MovesBytes n s t) (hc : CutTo 2 s) : n ≤ 4 := by
  obtain ⟨h1, h2⟩ := hc
  cases h with
  | refl => omega
  | shift hs hr h =>
    obtain ⟨-, hl, hh⟩ := hr.shift_bounds hs
    cases h with
    | refl => omega
    | shift hs hr' h =>
      obtain ⟨-, hl', hh'⟩ := hr'.shift_bounds hs
      have := h.le_of_ones 2 (by omega) (by omega) (by omega)
      omega
    | cut hs hr' _ =>
      have hb := hr'.cut_bounds hs
      omega
  | cut hs hr _ =>
    have hb := hr.cut_bounds hs
    omega

/-- With `k` bytes shifted into an interval of more than one point, at most `3 - k` more are settled before a truncation. -/
theorem MovesBytes.le_of_shiftedIn {n : Nat} (h : MovesBytes n s t) (k : Nat) (hk : k ≤ 3) (hs : ShiftedIn k s)
    (hlt : s.low.toNat / 256 ^ k < s.high.toNat / 256 ^ k) : n + k ≤ 7 := by
  induction h generalizing k with
  | refl s => omega
  | @shift n s t u htop hr _ ih =>
    obtain ⟨hl, hh⟩ := hs
    obtain ⟨h1, h2, h3⟩ := hr.shift_bounds htop
    have hlow := s.low.isLt
    have hhigh := s.high.isLt
    have hk3 : k < 3 := by
      by_contra hk3
      obtain rfl : k = 3 := by omega
      omega
    have := ih (k + 1) hk3 (by unfold ShiftedIn; interval_cases k <;> omega) (by interval_cases k <;> omega)
    omega
  | cut htop hr h =>
    obtain ⟨-, -, hl, hh⟩ := hr.cut_bounds htop
    have := h.le_of_cut ⟨by omega, by omega⟩
    omega

theorem MovesBytes.le_seven {n : Nat} (h : MovesBytes n s t) (hlt : s.low < s.high) : n ≤ 7 := by
  rw [BitVec.lt_def] at hlt
  exact h.le_of_shiftedIn 0 (by omega) ⟨by omega, by omega⟩ (by omega)

/-! ### Which bytes -/

theorem ofNat_succ_add (x : Word) (n : Nat) : x + 1#32 + BitVec.ofNat 32 n = x + BitVec.ofNat 32 (n + 1) := by
  rw [BitVec.add_assoc, BitVec.add_comm 1#32, ← BitVec.ofNat_add]

/-- The encoder emits its bytes to OUTQ and counts them (20_memory.md R41). -/
theorem MovesBytes.emitted {n : Nat} (h : MovesBytes n s t) (hd : s.dir = .encode) :
    t.inq = s.inq ∧ t.bytesIn = s.bytesIn ∧
      ∃ bs : List Byte, bs.length = n ∧ t.outq = s.outq ++ bs ∧ t.bytesOut = s.bytesOut + BitVec.ofNat 32 n := by
  induction h with
  | refl s => exact ⟨rfl, rfl, [], rfl, by simp, by simp⟩
  | @shift n s t u hs hr _ ih =>
    obtain ⟨hi, hc, bs, hlen, ho, hn⟩ := ih (hr.same.dir.trans hd)
    cases hr with
    | @emit t _ _ hp =>
      obtain ⟨-, rfl⟩ := outPush_eq_some hp
      refine ⟨hi, hc, s.low.extractLsb' 24 8 :: bs, by simp [hlen], by simpa using ho, ?_⟩
      rw [hn]
      exact ofNat_succ_add s.bytesOut n
    | take _ hd' _ => cases hd.symm.trans hd'
    | truncate hns _ _ => exact absurd hs hns
  | cut hs hr _ ih =>
    have := ih (hr.same.dir.trans hd)
    cases hr with
    | emit hs' _ _ => exact absurd hs' hs
    | take hs' _ _ => exact absurd hs' hs
    | truncate _ _ _ => exact this

/-- The decoder takes its bytes from INQ and counts them (R42). -/
theorem MovesBytes.taken {n : Nat} (h : MovesBytes n s t) (hd : s.dir = .decode) :
    t.outq = s.outq ∧ t.bytesOut = s.bytesOut ∧
      ∃ bs : List Byte, bs.length = n ∧ s.inq = bs.map InItem.byte ++ t.inq ∧ t.bytesIn = s.bytesIn + BitVec.ofNat 32 n := by
  induction h with
  | refl s => exact ⟨rfl, rfl, [], rfl, by simp, by simp⟩
  | @shift n s t u hs hr _ ih =>
    obtain ⟨ho, hc, bs, hlen, hi, hn⟩ := ih (hr.same.dir.trans hd)
    cases hr with
    | emit _ hd' _ => cases hd.symm.trans hd'
    | @take t b _ _ hp =>
      obtain ⟨rest, hq, rfl⟩ := inPop_byte hp
      obtain rfl : rest = _ := hi
      refine ⟨ho, hc, b :: bs, by simp [hlen], hq, ?_⟩
      rw [hn]
      exact ofNat_succ_add s.bytesIn n
    | truncate hns _ _ => exact absurd hs hns
  | cut hs hr _ ih =>
    have := ih (hr.same.dir.trans hd)
    cases hr with
    | emit hs' _ _ => exact absurd hs' hs
    | take hs' _ _ => exact absurd hs' hs
    | truncate _ _ _ => exact this

/-! ### The two sides of a session -/

/-- From a normalised interval there is no round (R84). -/
theorem RenormRound.not_normalised (h : RenormRound s t) : ¬ Normalised s := by
  rintro ⟨htop, hw⟩
  obtain ⟨-, hcut, -⟩ := h.cut_bounds htop
  omega

/-- A round writes bounds that depend on the bounds alone. -/
theorem RenormRound.bounds_eq {f g : State} (h : RenormRound e f) (h' : RenormRound d g) (hlow : d.low = e.low)
    (hhigh : d.high = e.high) : g.low = f.low ∧ g.high = f.high := by
  have hb := h.bounds
  have hb' := h'.bounds
  rw [hlow, hhigh] at hb'
  constructor <;> apply BitVec.eq_of_toNat_eq <;> omega

/-- Rounds on one interval to a normalised one move the same number of bytes and end alike, on either side (R92). -/
theorem MovesBytes.lockstep {m n : Nat} (h : MovesBytes m e e') (h' : MovesBytes n d d') (hlow : d.low = e.low)
    (hhigh : d.high = e.high) (he : Normalised e') (hd : Normalised d') : d'.low = e'.low ∧ d'.high = e'.high ∧ m = n := by
  have same {s t : State} (hl : t.low = s.low) (hh : t.high = s.high) :
      (topSettled t ↔ topSettled s) ∧ (Normalised t ↔ Normalised s) := by
    unfold Normalised topSettled
    rw [hl, hh]
    exact ⟨.rfl, .rfl⟩
  induction h generalizing n d with
  | refl e =>
    have hnd := (same hlow hhigh).2.2 he
    cases h' with
    | refl => exact ⟨hlow, hhigh, rfl⟩
    | shift _ hr _ => exact absurd hnd hr.not_normalised
    | cut _ hr _ => exact absurd hnd hr.not_normalised
  | shift hs hr _ ih =>
    cases h' with
    | refl => exact absurd ((same hlow hhigh).2.1 hd) hr.not_normalised
    | shift _ hr' h' =>
      obtain ⟨hl, hh⟩ := hr.bounds_eq hr' hlow hhigh
      obtain ⟨h1, h2, rfl⟩ := ih h' hl hh he
      exact ⟨h1, h2, rfl⟩
    | cut hs' _ _ => exact absurd ((same hlow hhigh).1.2 hs) hs'
  | cut hs hr _ ih =>
    cases h' with
    | refl => exact absurd ((same hlow hhigh).2.1 hd) hr.not_normalised
    | shift hs' _ _ => exact absurd ((same hlow hhigh).1.1 hs') hs
    | cut _ hr' h' =>
      obtain ⟨hl, hh⟩ := hr.bounds_eq hr' hlow hhigh
      exact ih h' hl hh he

/-! ## The obligations -/

/-- Settles O24: each clause about one round is a round or an end of the loop, and the moved bytes are counted along the rounds. -/
theorem renormalisationMovesAtMostSevenBytes : Obligations.RenormalisationMovesAtMostSevenBytes := by
  refine ⟨fun s hxor => ?_, fun s hxor => ?_, fun s t hlt h => ?_⟩
  · have hs := (topSettled_iff_xor s).2 hxor
    refine ⟨fun hd hroom => ?_, fun hd hfull => ?_, fun b rest hd hq => ?_, fun rest hd hq => ?_, fun hd hq => ?_⟩
    · exact (RenormRound.emit hs hd (outPush_of_room _ hroom)).renorm_eq
    · exact (RenormEnd.full hs hd (outPush_of_full _ hfull)).renorm_eq
    · exact (RenormRound.take hs hd (inPop_of_byte hq)).renorm_eq
    · exact (RenormEnd.eof hs hd (inPop_of_endMark hq)).renorm_eq
    · exact (RenormEnd.empty hs hd (inPop_of_nil hq)).renorm_eq
  · have hs : ¬ topSettled s := fun h => hxor ((topSettled_iff_xor s).1 h)
    refine ⟨fun hw hc => ?_, fun hw hd hc => ?_, fun hw => ?_⟩
    · refine (RenormRound.truncate hs ((widthBelowFloor_iff s).2 hw) ?_).renorm_eq
      rintro ⟨hd, hlt⟩
      rcases hc with hd' | hle
      · cases hd.symm.trans hd'
      · exact BitVec.not_lt.2 hle hlt
    · exact (RenormEnd.range hs ((widthBelowFloor_iff s).2 hw) hd hc).renorm_eq
    · exact (RenormEnd.settled hs fun h => not_lt.2 hw ((widthBelowFloor_iff s).1 h)).renorm_eq
  · obtain ⟨n, hn⟩ := (renorm_settled_iff.1 h).1.movesBytes
    have h7 := hn.le_seven hlt
    refine ⟨fun hd => ?_, fun hd => ?_⟩
    · obtain ⟨hi, hc, bs, rfl, ho⟩ := hn.emitted hd
      exact ⟨hi, hc, bs, h7, ho⟩
    · obtain ⟨ho, hc, bs, rfl, hi⟩ := hn.taken hd
      exact ⟨ho, hc, bs, h7, hi⟩

/-- Settles O25: the rounds of the two sides run in lockstep, and each moves its bytes on its own stream. -/
theorem decoderMirrorsEncoderRenormalisation : Obligations.DecoderMirrorsEncoderRenormalisation := by
  intro e d e' d' hde hdd hlow hhigh he hd
  obtain ⟨hre, hne⟩ := renorm_settled_iff.1 he
  obtain ⟨hrd, hnd⟩ := renorm_settled_iff.1 hd
  obtain ⟨m, hm⟩ := hre.movesBytes
  obtain ⟨n, hn⟩ := hrd.movesBytes
  obtain ⟨hl, hh, rfl⟩ := hm.lockstep hn hlow hhigh hne hnd
  obtain ⟨-, -, out, hlen, hout, -⟩ := hm.emitted hde
  obtain ⟨-, -, taken, hlen', htaken, -⟩ := hn.taken hdd
  exact ⟨hl, hh, out, taken, hout, htaken, hlen'.trans hlen.symm⟩

end Sys2Proof.Machine
end

section
/-! PROOFS. The round trip: the encoder's stream points into every interval the encoder selects, so the decoder, its CODE the next four
bytes of that stream, follows the encoder bit for bit (40_range_coder.md R84-R89, R93, R94). -/

namespace Sys2Proof.Machine

variable {s t u e f d : State} {p : Nat} {y : Bool}

/-! ## The bits of a session -/

/-- One coded bit of a session: predicted, or raw with a probability of its own (43_commands.md R153, R159). -/
inductive CodedBit where
  | predicted (y : Bool)
  | raw (y : Bool) (p : BitVec 12)

namespace CodedBit

/-- The bit itself. -/
def value : CodedBit → Bool
  | .predicted y => y
  | .raw y _ => y

/-- The probability it is coded with in the state `s`. -/
def prob (s : State) : CodedBit → Nat
  | .predicted _ => predict s
  | .raw _ p => p.toNat

/-- What follows its renormalisation (R153, R159). -/
def finish : CodedBit → State → State
  | .predicted y => finishPredBit y
  | .raw _ _ => countBit

/-- What the checks of 60_exceptions.md R191 ask: a predictor, or a probability that is not 0. -/
def Allowed (s : State) : CodedBit → Prop
  | .predicted _ => s.pmode ≠ 0#2
  | .raw _ p => p ≠ 0#12

/-- The bit as the symbol it is. -/
def symbol : CodedBit → Symbol
  | .predicted y => .bit y
  | .raw y p => .raw y p

theorem symbol_injective : Function.Injective symbol := by
  intro b c h
  cases b <;> cases c <;> simp_all [symbol]

theorem prob_le (s : State) (b : CodedBit) : b.prob s ≤ 4095 := by
  cases b with
  | predicted y => exact predict_le s
  | raw y p => exact Nat.le_of_lt_succ p.isLt

end CodedBit

variable {b : CodedBit} {bs cs : List CodedBit}

/-! ### finish -/

@[simp] theorem CodedBit.finish_low (b : CodedBit) (s : State) : (b.finish s).low = s.low := by
  cases b <;> simp [finish, finishPredBit, train_eq]
@[simp] theorem CodedBit.finish_high (b : CodedBit) (s : State) : (b.finish s).high = s.high := by
  cases b <;> simp [finish, finishPredBit, train_eq]
@[simp] theorem CodedBit.finish_code (b : CodedBit) (s : State) : (b.finish s).code = s.code := by
  cases b <;> simp [finish, finishPredBit, train_eq]
@[simp] theorem CodedBit.finish_inq (b : CodedBit) (s : State) : (b.finish s).inq = s.inq := by
  cases b <;> simp [finish, finishPredBit, train_eq]
@[simp] theorem CodedBit.finish_outq (b : CodedBit) (s : State) : (b.finish s).outq = s.outq := by
  cases b <;> simp [finish, finishPredBit, train_eq]
@[simp] theorem CodedBit.finish_bytesIn (b : CodedBit) (s : State) : (b.finish s).bytesIn = s.bytesIn := by
  cases b <;> simp [finish, finishPredBit, train_eq]
@[simp] theorem CodedBit.finish_bytesOut (b : CodedBit) (s : State) : (b.finish s).bytesOut = s.bytesOut := by
  cases b <;> simp [finish, finishPredBit, train_eq]
@[simp] theorem CodedBit.finish_sstate (b : CodedBit) (s : State) : (b.finish s).sstate = s.sstate := by
  cases b <;> simp [finish, finishPredBit, train_eq]
@[simp] theorem CodedBit.finish_dir (b : CodedBit) (s : State) : (b.finish s).dir = s.dir := by
  cases b <;> simp [finish, finishPredBit, train_eq]
@[simp] theorem CodedBit.finish_pmode (b : CodedBit) (s : State) : (b.finish s).pmode = s.pmode := by
  cases b <;> simp [finish, finishPredBit, train_eq]
@[simp] theorem CodedBit.finish_apmEn (b : CodedBit) (s : State) : (b.finish s).apmEn = s.apmEn := by
  cases b <;> simp [finish, finishPredBit, train_eq]
@[simp] theorem CodedBit.finish_respq (b : CodedBit) (s : State) : (b.finish s).respq = s.respq := by
  cases b <;> simp [finish, finishPredBit, train_eq]
@[simp] theorem CodedBit.finish_depths (b : CodedBit) (s : State) : (b.finish s).depths = s.depths := by
  cases b <;> simp [finish, finishPredBit, train_eq]
@[simp] theorem CodedBit.finish_bitcount (b : CodedBit) (s : State) : (b.finish s).bitcount = s.bitcount + 1#64 := by
  cases b <;> simp [finish, finishPredBit, train_eq]

/-! ### The bits of a symbol -/

/-- The coded bits of a symbol: a byte is eight predicted ones (70_reset_and_hazards.md R225). -/
def Symbol.coded : Symbol → List CodedBit
  | .bit y => [.predicted y]
  | .byte v => (msbFirst v).map .predicted
  | .raw y p => [.raw y p]

theorem symbolBits_eq (x : Symbol) : symbolBits x = x.coded.map CodedBit.symbol := by
  cases x with
  | bit y => rfl
  | byte v => rfl
  | raw y p => rfl

/-- Sequences of symbols of the same bits have the same coded bits. -/
theorem flatMap_coded_eq {xs zs : List Symbol} (h : xs.flatMap symbolBits = zs.flatMap symbolBits) :
    xs.flatMap Symbol.coded = zs.flatMap Symbol.coded := by
  simp only [funext symbolBits_eq, ← List.map_flatMap] at h
  exact List.map_injective_iff.2 CodedBit.symbol_injective h

/-! ## What each side does with coded bits -/

/-- The bit `b` is coded from `s` up to the end `u` of its renormalisation (40_range_coder.md R85, R86). -/
structure CodesTo (b : CodedBit) (s u : State) : Prop where
  allowed : b.Allowed s
  ordered : s.low < s.high
  settles : renorm renormFuel (narrow b.value (b.prob s) s) = .settled u

/-- The bits an encoder codes from `s` to `t`, with the responses of its commands between them. -/
inductive Encodes : List CodedBit → State → State → Prop where
  | nil (s : State) : Encodes [] s s
  | bit {b : CodedBit} {bs : List CodedBit} {s u t : State} (h : CodesTo b s u) (hr : Encodes bs (b.finish u) t) :
      Encodes (b :: bs) s t
  | answer {bs : List CodedBit} {s t : State} (w : Word) (st : BitVec 8) (data : Word)
      (hr : Encodes bs (answered w st data s) t) : Encodes bs s t

/-- The bits a decoder finds from `s` to `t`, inside one command. -/
inductive Decodes : List CodedBit → State → State → Prop where
  | nil (s : State) : Decodes [] s s
  | bit {b : CodedBit} {bs : List CodedBit} {s u t : State} (h : CodesTo b s u) (hy : decodedBit (b.prob s) s = b.value)
      (hr : Decodes bs (b.finish u) t) : Decodes (b :: bs) s t

theorem CodesTo.same (h : CodesTo b s u) : SameButCoder s u := by
  have hr := renorm_same (narrow b.value (b.prob s) s)
  rw [h.settles] at hr
  exact (narrow_same _ _ s).trans hr

theorem Normalised.lt (h : Normalised s) : s.low < s.high := by
  obtain ⟨-, hw⟩ := h
  rw [BitVec.lt_def]
  omega

theorem Encodes.trans (h : Encodes bs s t) (h' : Encodes cs t u) : Encodes (bs ++ cs) s u := by
  induction h with
  | nil s => exact h'
  | bit h _ ih => exact .bit h (ih h')
  | answer w st data _ ih => exact .answer w st data (ih h')

theorem Encodes.dir_eq (h : Encodes bs s t) : t.dir = s.dir := by
  induction h with
  | nil s => rfl
  | bit h _ ih => rw [ih, CodedBit.finish_dir, h.same.dir]
  | answer w st data _ ih => exact ih

theorem Encodes.ordered (h : Encodes bs s t) (hs : s.low < s.high) : t.low < t.high := by
  induction h with
  | nil s => exact hs
  | bit h _ ih => exact ih (by simpa using (renorm_settled_iff.1 h.settles).2.lt)
  | answer w st data _ ih => exact ih hs

/-! ## The stream points into every interval of the encoder -/

/-- The number the next four bytes of a stream make, most significant first. -/
def window : List Byte → Nat
  | b0 :: b1 :: b2 :: b3 :: _ => ((b0.toNat * 256 + b1.toNat) * 256 + b2.toNat) * 256 + b3.toNat
  | _ => 0

theorem exists_four_of_length {r : List Byte} (h : 4 ≤ r.length) : ∃ b0 b1 b2 b3 tl, r = b0 :: b1 :: b2 :: b3 :: tl := by
  match r, h with
  | b0 :: b1 :: b2 :: b3 :: tl, _ => exact ⟨b0, b1, b2, b3, tl, rfl⟩

/-- The window of a longer stream is its first byte and the window behind it but for the last byte. -/
theorem window_cons (c : Byte) {r : List Byte} (h : 4 ≤ r.length) : window (c :: r) = c.toNat * 16777216 + window r / 256 := by
  obtain ⟨b0, b1, b2, b3, tl, rfl⟩ := exists_four_of_length h
  have := b3.isLt
  simp only [window]
  omega

/-- The bytes the encoder `s` still has to emit of the whole stream `out` make a number in its interval. -/
def PointsInto (out : List Byte) (s : State) : Prop :=
  s.dir = .encode ∧ ∃ r, out = s.outq ++ r ∧ 4 ≤ r.length ∧ s.low.toNat ≤ window r ∧ window r ≤ s.high.toNat

/-- One round keeps LOW ≤ HIGH. -/
theorem RenormRound.ordered (h : RenormRound s t) (hs : s.low ≤ s.high) : t.low ≤ t.high := by
  rw [BitVec.le_def] at *
  have := s.high.isLt
  rcases h.bounds with ⟨h1, h2, h3⟩ | ⟨h1, h2, h3, h4⟩ <;> omega

/-- The interval before a round holds every later one: an emitted byte is shared by all its points, a truncation keeps a part. -/
theorem RenormRound.pointsInto {out : List Byte} (h : RenormRound s t) (hs : s.low ≤ s.high) (ht : PointsInto out t) :
    PointsInto out s := by
  obtain ⟨hd, r, hr, hlen, hlo, hup⟩ := ht
  rw [h.same.dir] at hd
  rw [BitVec.le_def] at hs
  have hhi := s.high.isLt
  by_cases htop : topSettled s
  · obtain ⟨h1, h2, h3⟩ := h.shift_bounds htop
    cases h with
    | emit _ _ hp =>
      obtain ⟨-, rfl⟩ := outPush_eq_some hp
      refine ⟨hd, s.low.extractLsb' 24 8 :: r, by simpa using hr, by simp; omega, ?_⟩
      rw [window_cons _ hlen, toNat_field]
      omega
    | take _ hd' _ => cases hd.symm.trans hd'
    | truncate hns _ _ => exact absurd htop hns
  · obtain ⟨h1, -, h3, h4⟩ := h.cut_bounds htop
    cases h with
    | emit htop' _ _ => exact absurd htop' htop
    | take htop' _ _ => exact absurd htop' htop
    | truncate _ _ _ => exact ⟨hd, r, hr, hlen, by omega, by omega⟩

theorem RenormRounds.pointsInto {out : List Byte} (h : RenormRounds s t) (hs : s.low ≤ s.high) (ht : PointsInto out t) :
    PointsInto out s := by
  induction h with
  | refl s => exact ht
  | head hr _ ih => exact hr.pointsInto hs (ih (hr.ordered hs) ht)

/-- The part a subdivision gives a bit, as numbers: from LOW or behind the split point, to the split point or HIGH (R81, R83). -/
theorem narrow_bounds (hlt : s.low < s.high) (hp : p ≤ 4095) (y : Bool) :
    ((narrow y p s).low.toNat = if y then s.low.toNat else (xmid s.low s.high p).toNat + 1) ∧
    ((narrow y p s).high.toNat = if y then (xmid s.low s.high p).toNat else s.high.toNat) := by
  cases y with
  | true => exact ⟨rfl, rfl⟩
  | false => exact ⟨toNat_xmid_add_one hlt hp, rfl⟩

/-- A subdivision keeps LOW ≤ HIGH and a part of the interval. -/
theorem narrow_ordered (hlt : s.low < s.high) (hp : p ≤ 4095) (y : Bool) :
    (narrow y p s).low ≤ (narrow y p s).high ∧ s.low.toNat ≤ (narrow y p s).low.toNat ∧
      (narrow y p s).high.toNat ≤ s.high.toNat := by
  obtain ⟨hlo, hup⟩ := narrow_bounds hlt hp y
  have hsplit := xmid_bounds hlt hp
  rw [BitVec.le_def, hlo, hup]
  cases y <;> simp <;> omega

theorem CodesTo.pointsInto_narrow {out : List Byte} (h : CodesTo b s u) (hu : PointsInto out u) :
    PointsInto out (narrow b.value (b.prob s) s) :=
  (renorm_settled_iff.1 h.settles).1.pointsInto (narrow_ordered h.ordered (b.prob_le s) b.value).1 hu

theorem PointsInto.of_finish {out : List Byte} (h : PointsInto out (b.finish s)) : PointsInto out s := by
  simpa [PointsInto] using h

theorem Encodes.pointsInto {out : List Byte} (h : Encodes bs s t) (ht : PointsInto out t) : PointsInto out s := by
  induction h with
  | nil s => exact ht
  | @bit b bs s u t h _ ih =>
    obtain ⟨-, hlo, hup⟩ := narrow_ordered h.ordered (b.prob_le s) b.value
    obtain ⟨hd, r, hr, hlen, hlo', hup'⟩ := h.pointsInto_narrow (ih ht).of_finish
    rw [narrow_dir] at hd
    rw [narrow_outq] at hr
    exact ⟨hd, r, hr, hlen, by omega, by omega⟩
  | answer w st data _ ih => exact ih ht

/-! ## The decoder in step with the encoder -/

/-- What the prediction of the next bit depends on is the same. -/
structure SamePredictor (s t : State) : Prop where
  pmode : t.pmode = s.pmode
  apmEn : t.apmEn = s.apmEn
  c0 : t.c0 = s.c0
  c4 : t.c4 = s.c4
  mem : t.mem = s.mem

/-- The state `s` with the predictor of `t`. -/
def withPredictor (t s : State) : State :=
  { s with pmode := t.pmode, apmEn := t.apmEn, c0 := t.c0, c4 := t.c4, mem := t.mem }

theorem SamePredictor.eq (h : SamePredictor s t) : withPredictor s t = t := by
  obtain ⟨h1, h2, h3, h4, h5⟩ := h
  simp [withPredictor, ← h1, ← h2, ← h3, ← h4, ← h5]

theorem predict_withPredictor (t s : State) : predict (withPredictor t s) = predict t := rfl

theorem trainedMem_withPredictor (y : Bool) (t s : State) : trainedMem y (withPredictor t s) = trainedMem y t := rfl

theorem ctxUpdate_withPredictor (y : Bool) (t s : State) :
    ctxUpdate y (withPredictor t s) = withPredictor (ctxUpdate y t) s := by
  show (if 256 ≤ t.c0.toNat * 2 + y.toNat then _ else _) = withPredictor (if 256 ≤ t.c0.toNat * 2 + y.toNat then _ else _) s
  split <;> rfl

/-- The context after a bit depends on the context before it alone (41_predictors.md R108). -/
theorem SamePredictor.ctxUpdate (h : SamePredictor s t) (y : Bool) : SamePredictor (ctxUpdate y s) (ctxUpdate y t) := by
  rw [← h.eq, ctxUpdate_withPredictor]
  exact ⟨rfl, rfl, rfl, rfl, rfl⟩

theorem SamePredictor.predict_eq (h : SamePredictor s t) : predict t = predict s := by
  rw [← h.eq, predict_withPredictor]

theorem SamePredictor.trainedMem_eq (h : SamePredictor s t) (y : Bool) : trainedMem y t = trainedMem y s := by
  rw [← h.eq, trainedMem_withPredictor]

theorem SamePredictor.finish (h : SamePredictor s t) (b : CodedBit) : SamePredictor (b.finish s) (b.finish t) := by
  cases b with
  | predicted y =>
    have hc := SamePredictor.ctxUpdate (s := { s with mem := trainedMem y s }) (t := { t with mem := trainedMem y t })
      ⟨h.pmode, h.apmEn, h.c0, h.c4, h.trainedMem_eq y⟩ y
    simp only [CodedBit.finish, finishPredBit, train_eq]
    exact ⟨hc.pmode, hc.apmEn, hc.c0, hc.c4, hc.mem⟩
  | raw y p => exact ⟨h.pmode, h.apmEn, h.c0, h.c4, h.mem⟩

/-- The decoder `d` has come as far as the encoder `e`: the same interval, predictor and count of bits; CODE holds the next four
bytes of the stream `out`, and INQ the bytes behind them, then `tail`. -/
structure InStep (out : List Byte) (tail : List InItem) (e d : State) : Prop where
  coding : d.sstate = .coding
  side : d.dir = .decode
  predictor : SamePredictor e d
  bitcount : d.bitcount = e.bitcount
  low : d.low = e.low
  high : d.high = e.high
  counts : d.bytesIn = e.bytesOut + 4#32
  stream : ∃ r, out = e.outq ++ r ∧ d.code.toNat = window r ∧ d.inq = (r.drop 4).map InItem.byte ++ tail

variable {out : List Byte} {tail : List InItem}

/-- Responses are no part of it. -/
theorem InStep.answered_left (h : InStep out tail e d) (w : Word) (st : BitVec 8) (data : Word) :
    InStep out tail (answered w st data e) d :=
  ⟨h.coding, h.side, ⟨h.predictor.pmode, h.predictor.apmEn, h.predictor.c0, h.predictor.c4, h.predictor.mem⟩, h.bitcount, h.low,
    h.high, h.counts, h.stream⟩

theorem InStep.answered_right (h : InStep out tail e d) (w : Word) (st : BitVec 8) (data : Word) :
    InStep out tail e (answered w st data d) :=
  ⟨h.coding, h.side, ⟨h.predictor.pmode, h.predictor.apmEn, h.predictor.c0, h.predictor.c4, h.predictor.mem⟩, h.bitcount, h.low,
    h.high, h.counts, h.stream⟩

theorem InStep.prob_eq (h : InStep out tail e d) (b : CodedBit) : b.prob d = b.prob e := by
  cases b with
  | predicted y => exact h.predictor.predict_eq
  | raw y p => rfl

theorem InStep.narrow (h : InStep out tail e d) (y : Bool) (p : Nat) :
    InStep out tail (narrow y p e) (narrow y p d) := by
  have hlow : (Machine.narrow y p d).low = (Machine.narrow y p e).low := by
    cases y <;> simp [Machine.narrow, h.low, h.high]
  have hhigh : (Machine.narrow y p d).high = (Machine.narrow y p e).high := by
    cases y <;> simp [Machine.narrow, h.low, h.high]
  obtain ⟨hm, ha, h0, h4, hmem⟩ := h.predictor
  exact ⟨by simpa using h.coding, by simpa using h.side,
    ⟨by simpa using hm, by simpa using ha, by simpa using h0, by simpa using h4, by simpa using hmem⟩, by simpa using h.bitcount,
    hlow, hhigh, by simpa using h.counts, by simpa using h.stream⟩

theorem InStep.finish (h : InStep out tail e d) (b : CodedBit) : InStep out tail (b.finish e) (b.finish d) :=
  ⟨by simpa using h.coding, by simpa using h.side, h.predictor.finish b, by simpa using h.bitcount, by simpa using h.low,
    by simpa using h.high, by simpa using h.counts, by simpa using h.stream⟩

/-- CODE lies in every interval the stream points into from here (R94). -/
theorem InStep.code_mem (h : InStep out tail e d) (hf : PointsInto out f) (hq : f.outq = e.outq) :
    f.low.toNat ≤ d.code.toNat ∧ d.code.toNat ≤ f.high.toNat := by
  obtain ⟨r, hr, hcode, -⟩ := h.stream
  obtain ⟨-, r', hr', -, hlo, hup⟩ := hf
  rw [hq] at hr'
  obtain rfl : r = r' := List.append_cancel_left (hr.symm.trans hr')
  rw [hcode]
  exact ⟨hlo, hup⟩

/-- The decoder takes the byte the encoder emits: it shifts out of CODE, and the fifth byte of the stream comes in. -/
theorem InStep.stream_emit (h : InStep out tail e d) {c : Byte} {r : List Byte} (hr : out = (e.outq ++ [c]) ++ r)
    (hlen : 4 ≤ r.length) :
    ∃ b, d.inq = .byte b :: ((r.drop 4).map InItem.byte ++ tail) ∧ (shiftCode b d).code.toNat = window r := by
  obtain ⟨r', hr', hcode, hinq⟩ := h.stream
  obtain rfl : r' = c :: r := List.append_cancel_left (hr'.symm.trans (by simpa using hr))
  obtain ⟨b0, b1, b2, b3, tl, rfl⟩ := exists_four_of_length hlen
  refine ⟨b3, by simpa using hinq, ?_⟩
  have := b3.isLt
  rw [shiftCode_code, toNat_shiftIn, hcode]
  simp only [window]
  omega

/-- The decoder follows each round of the encoder's renormalisation (40_range_coder.md R92). -/
theorem RenormRound.follow (h : RenormRound e f) (hf : PointsInto out f) (hd : InStep out tail e d) :
    ∃ g, RenormRound d g ∧ InStep out tail f g := by
  have htops : topSettled d ↔ topSettled e := by unfold topSettled; rw [hd.low, hd.high]
  have hdir : e.dir = .encode := h.same.dir.symm.trans hf.1
  obtain ⟨hm, ha, h0, h4, hmem⟩ := hd.predictor
  cases h with
  | emit htop _ hp =>
    obtain ⟨-, rfl⟩ := outPush_eq_some hp
    obtain ⟨-, r, hr, hlen, -⟩ := hf
    obtain ⟨b, hinq, hcode⟩ := hd.stream_emit hr hlen
    refine ⟨_, .take (htops.2 htop) hd.side (inPop_of_byte hinq), hd.coding, hd.side, ⟨hm, ha, h0, h4, hmem⟩, hd.bitcount,
      by simp [hd.low], by simp [hd.high], ?_, r, hr, hcode, rfl⟩
    show d.bytesIn + 1#32 = e.bytesOut + 1#32 + 4#32
    rw [hd.counts]
    ac_rfl
  | take _ hdec _ => cases hdec.symm.trans hdir
  | truncate htop hw _ =>
    refine ⟨truncateHigh d, .truncate (fun ht => htop (htops.1 ht)) ?_ ?_, hd.coding, hd.side, ⟨hm, ha, h0, h4, hmem⟩, hd.bitcount,
      hd.low, congrArg (· ||| 0xFFFF#32) hd.low, hd.counts, hd.stream⟩
    · unfold widthBelowFloor
      rwa [hd.low, hd.high]
    · rintro ⟨-, hlt⟩
      have hcode := (hd.code_mem hf rfl).2
      rw [truncateHigh_high, hd.low, BitVec.lt_def] at hlt
      rw [truncateHigh_high] at hcode
      omega

theorem RenormRounds.follow (h : RenormRounds e f) (he : e.low ≤ e.high) (hf : PointsInto out f) (hd : InStep out tail e d) :
    ∃ g, RenormRounds d g ∧ InStep out tail f g := by
  induction h generalizing d with
  | refl e => exact ⟨d, .refl d, hd⟩
  | head hr hrs ih =>
    have hord := hr.ordered he
    obtain ⟨g, hg, hfg⟩ := hr.follow (hrs.pointsInto hord hf) hd
    obtain ⟨g', hg', hfg'⟩ := ih hord hf hfg
    exact ⟨g', .head hg hg', hfg'⟩

/-- CODE selects the bit whose part it lies in (R86). -/
theorem decodedBit_of_mem_narrow (hlt : s.low < s.high) (hp : p ≤ 4095) (hlo : (narrow y p s).low.toNat ≤ s.code.toNat)
    (hup : s.code.toNat ≤ (narrow y p s).high.toNat) : decodedBit p s = y := by
  obtain ⟨hlow, hhigh⟩ := narrow_bounds hlt hp y
  rw [hlow] at hlo
  rw [hhigh] at hup
  cases y with
  | true => exact decide_eq_true (BitVec.le_def.2 hup)
  | false => exact decide_eq_false (BitVec.not_le.2 (BitVec.lt_def.2 hlo))

/-- The decoder finds the bit the encoder codes, and both renormalise alike. -/
theorem CodesTo.follow (h : CodesTo b e u) (hu : PointsInto out u) (hd : InStep out tail e d) :
    decodedBit (b.prob d) d = b.value ∧ ∃ v, CodesTo b d v ∧ InStep out tail u v := by
  have hlt : d.low < d.high := by rw [hd.low, hd.high]; exact h.ordered
  obtain ⟨hr, hn⟩ := renorm_settled_iff.1 h.settles
  have hnar := hd.narrow b.value (b.prob e)
  have hmem := hnar.code_mem (h.pointsInto_narrow hu) rfl
  rw [← hnar.low, ← hnar.high, narrow_code] at hmem
  obtain ⟨v, hv, huv⟩ := hr.follow (narrow_ordered h.ordered (b.prob_le e) b.value).1 hu hnar
  rw [hd.prob_eq b]
  refine ⟨decodedBit_of_mem_narrow hlt (b.prob_le e) hmem.1 hmem.2, v, ⟨?_, hlt, ?_⟩, huv⟩
  · have hallowed := h.allowed
    cases b with
    | predicted y => exact fun hm => hallowed (hd.predictor.pmode.symm.trans hm)
    | raw y p => exact hallowed
  · rw [hd.prob_eq b]
    refine renorm_settled_iff.2 ⟨hv, ?_⟩
    unfold Normalised topSettled
    rwa [huv.low, huv.high]

/-- The decoder follows any number of bits; the responses of the encoder's commands change nothing for it. -/
theorem Encodes.follow (h : Encodes bs e f) (hf : PointsInto out f) (hd : InStep out tail e d) :
    ∃ g, Decodes bs d g ∧ InStep out tail f g := by
  induction h generalizing d with
  | nil e => exact ⟨d, .nil d, hd⟩
  | @bit b bs e u f h hr ih =>
    obtain ⟨hy, v, hv, huv⟩ := h.follow (hr.pointsInto hf).of_finish hd
    obtain ⟨g, hg, hfg⟩ := ih hf (huv.finish b)
    exact ⟨g, .bit hv hy hg, hfg⟩
  | answer w st data _ ih => exact ih hf (hd.answered_left w st data)

end Sys2Proof.Machine
end

section
/-! PROOFS. The round trip, session against session: the encoder's commands code the bits of their symbols, and a decoder in step with
them answers the symbols, however its host groups the bits (40_range_coder.md R87-R89, R93; 43_commands.md R152-R161). -/

namespace Sys2Proof.Machine

variable {s t u e f d : State} {w : Word} {b : CodedBit} {bs cs : List CodedBit} {out : List Byte} {tail : List InItem}

/-! ## Commands that complete -/

theorem settle_eq_answered {r : Result} (hc : (settle w r).cip = none) (hf : (settle w r).sstate ≠ .fault) :
    ∃ data u, r = .done data u ∧ settle w r = answered w statusOk data u := by
  cases r with
  | done data u =>
    refine ⟨data, u, rfl, ?_⟩
    rcases respond_cases w statusOk data u with ⟨-, h⟩ | ⟨-, h⟩
    · exact h
    · rw [settle, h] at hc
      cases hc
  | held pos u => cases hc
  | raised fc u => simp [settle] at hf

/-- Only FAULT state refuses a command (60_exceptions.md R194). -/
theorem fault_of_refused {i : Instr} (h : check i s = .refused) : s.sstate = .fault := by
  unfold check at h
  split_ifs at h with hr
  exact hr.1

/-- A command that completes outside FAULT state passed its checks, and its pseudocode ran to its end (43_commands.md R150). -/
theorem exec_eq_done {i : Instr} (h : exec i s = .next t) (hc : t.cip = none) (hf : t.sstate ≠ .fault) :
    ∃ data u, check i s = .ok ∧ semOf i s = .done data u ∧ t = answered (encode i) statusOk data u := by
  rw [exec_eq] at h
  cases h
  rcases execute_cases i (semOf i) s with ⟨hr, he⟩ | ⟨fc, -, he⟩ | ⟨hok, he⟩ <;> rw [he] at hc hf ⊢
  · exact absurd (fault_of_refused hr) (by simpa [refuse] using hf)
  · simp [checkFault] at hf
  · obtain ⟨data, u, hs, ht⟩ := settle_eq_answered hc hf
    exact ⟨data, u, hok, hs, ht⟩

/-- A command that passes its checks and whose pseudocode ends is answered OK where RESPQ has room (R150). -/
theorem exec_of_done {i : Instr} {data : Word} (hok : check i s = .ok) (hs : semOf i s = .done data u) (hroom : RespRoom 1 u) :
    exec i s = .next (answered (encode i) statusOk data u) := by
  rw [exec_eq, execute_of_ok hok, hs, settle, respond_of_room hroom]

theorem runAll_cons (i : Instr) (is : List Instr) (s t : State) :
    runAll (i :: is) s = some t ↔ ∃ u, exec i s = .next u ∧ u.cip = none ∧ runAll is u = some t := by
  simp only [runAll, exec_eq, Host.Outcome.next.injEq, exists_eq_left']
  split <;> simp_all

theorem runAll_append (is js : List Instr) (s t : State) :
    runAll (is ++ js) s = some t ↔ ∃ u, runAll is s = some u ∧ runAll js u = some t := by
  induction is generalizing s with
  | nil => simp [runAll]
  | cons i is ih =>
    rw [List.cons_append, runAll_cons]
    constructor
    · rintro ⟨u, hu, hc, hr⟩
      obtain ⟨v, hv, ht⟩ := (ih u).1 hr
      exact ⟨v, (runAll_cons _ _ _ _).2 ⟨u, hu, hc, hv⟩, ht⟩
    · rintro ⟨v, hv, ht⟩
      obtain ⟨u, hu, hc, hr⟩ := (runAll_cons _ _ _ _).1 hv
      exact ⟨u, hu, hc, (ih u).2 ⟨v, hr, ht⟩⟩

/-- FAULT state is not left by commands it refuses (60_exceptions.md R198). -/
theorem runAll_of_fault {is : List Instr} (hi : ∀ i ∈ is, allowedInFault i.opc = false) (hs : s.sstate = .fault)
    (h : runAll is s = some t) : t.sstate = .fault := by
  induction is generalizing s with
  | nil =>
    cases h
    exact hs
  | cons i is ih =>
    obtain ⟨u, hu, -, hr⟩ := (runAll_cons _ _ _ _).1 h
    refine ih (fun j hj => hi j (List.mem_cons_of_mem _ hj)) ?_ hr
    rw [exec_eq] at hu
    cases hu
    have hcheck : check i s = .refused := by rw [check, if_pos ⟨hs, hi i List.mem_cons_self⟩]
    simpa [execute, hcheck, refuse] using hs

/-! ## The encoder's session -/

/-- A coded bit that ends a pseudocode's way went through its renormalisation (40_range_coder.md R85). -/
theorem CodedBit.codesTo_of_done {pos : HoldPoint} {next : State → Result} {data : Word} (hb : b.Allowed s)
    (h : rcEncode b.value (b.prob s) pos (fun u => next (b.finish u)) s = .done data t) :
    ∃ u, CodesTo b s u ∧ next (b.finish u) = .done data t := by
  unfold rcEncode at h
  split at h
  · rename_i hlt
    unfold renormThen at h
    split at h
    · exact ⟨_, ⟨hb, hlt, ‹_›⟩, h⟩
    · cases h
    · cases h
  · cases h

/-- The bits `k - 1` down to 0 of a byte, in the order they are coded (20_memory.md R44). -/
def lowBits (v : Byte) : Nat → List Bool
  | 0 => []
  | k + 1 => v.getLsbD k :: lowBits v k

theorem msbFirst_eq_lowBits (v : Byte) : msbFirst v = lowBits v 8 := rfl

theorem encByteFrom_encodes (v : Byte) (k : Nat) {data : Word} (hm : s.pmode ≠ 0#2) (h : encByteFrom v k s = .done data t) :
    Encodes ((lowBits v k).map .predicted) s t := by
  induction k generalizing s with
  | zero =>
    cases h
    exact .nil _
  | succ k ih =>
    obtain ⟨u, hu, hn⟩ := CodedBit.codesTo_of_done (b := .predicted (v.getLsbD k)) hm h
    exact .bit hu (ih (by rwa [CodedBit.finish_pmode, hu.same.pmode]) hn)

/-- The pseudocode of an encoder's command codes the bits of its symbol (43_commands.md R155, R156, R159). -/
theorem semOf_encoder_encodes (x : Symbol) {data : Word} (hok : check x.encoder s = .ok)
    (h : semOf x.encoder s = .done data t) : Encodes x.coded s t := by
  cases x with
  | bit y =>
    obtain ⟨u, hu, hn⟩ := CodedBit.codesTo_of_done (b := .predicted y) (next := encBitDone)
      ((sessionChecks_of_check hok rfl).predictor rfl) h
    cases hn
    exact .bit hu (.nil _)
  | byte v => exact encByteFrom_encodes v 8 ((sessionChecks_of_check hok rfl).predictor rfl) h
  | raw y p =>
    obtain ⟨u, hu, hn⟩ := CodedBit.codesTo_of_done (b := .raw y p) (next := encBitDone)
      (fun hp => (sessionChecks_of_check hok rfl).prob (congrArg some hp)) h
    cases hn
    exact .bit hu (.nil _)

theorem allowedInFault_encoder (x : Symbol) : allowedInFault x.encoder.opc = false := by cases x <;> rfl

/-- Encoder commands that all complete, and do not leave FAULT behind, code the bits of their symbols. -/
theorem encodes_of_runAll {xs : List Symbol} (h : runAll (xs.map Symbol.encoder) s = some t) (hf : t.sstate ≠ .fault) :
    Encodes (xs.flatMap Symbol.coded) s t := by
  induction xs generalizing s with
  | nil =>
    cases h
    exact .nil _
  | cons x xs ih =>
    obtain ⟨u, hu, hc, hr⟩ := (runAll_cons _ _ _ _).1 h
    have huf : u.sstate ≠ .fault := fun he =>
      hf (runAll_of_fault (by simp [allowedInFault_encoder]) he hr)
    obtain ⟨data, v, hok, hs, rfl⟩ := exec_eq_done hu hc huf
    exact (semOf_encoder_encodes x hok hs).trans (.answer _ _ _ (ih hr))

/-- The bytes of LOW a flush has to push, most significant first (40_range_coder.md R87). -/
def flushBytes (low : Word) : Nat → List Byte
  | 0 => []
  | k + 1 => low.extractLsb' (8 * k) 8 :: flushBytes low k

/-- A flush that ends has pushed its bytes and ended the session (R87; 43_commands.md R161). -/
theorem flushEncFrom_eq_done (k : Nat) {data : Word} (h : flushEncFrom k s = .done data t) :
    t = { s with outq := s.outq ++ flushBytes s.low k, bytesOut := s.bytesOut + BitVec.ofNat 32 k, sstate := .done } ∧
    data = t.bytesOut := by
  induction k generalizing s with
  | zero =>
    cases h
    simp [flushBytes]
  | succ k ih =>
    unfold flushEncFrom at h
    split at h
    · cases h
    · rename_i u hu
      obtain ⟨-, rfl⟩ := outPush_eq_some hu
      obtain ⟨ht, hdata⟩ := ih h
      refine ⟨?_, hdata⟩
      simp [ht, flushBytes, BitVec.add_assoc, BitVec.ofNat_add, BitVec.add_comm 1#32]

/-- The state an encoder's FLUSH ends in. -/
def flushed (s : State) : State :=
  { s with outq := s.outq ++ flushBytes s.low 4, bytesOut := s.bytesOut + 4#32, sstate := .done }

theorem exec_flush_encode (hd : s.dir = .encode) (h : exec .flush s = .next t) (hc : t.cip = none) (hf : t.sstate ≠ .fault) :
    t = answered (encode .flush) statusOk (s.bytesOut + 4#32) (flushed s) := by
  obtain ⟨data, u, -, hs, rfl⟩ := exec_eq_done h hc hf
  rw [semOf, flushSem, hd] at hs
  obtain ⟨rfl, rfl⟩ := flushEncFrom_eq_done 4 hs
  rfl

/-- The four bytes of LOW make the number LOW. -/
theorem window_flushBytes (low : Word) : window (flushBytes low 4) = low.toNat := by
  have := low.isLt
  simp only [flushBytes, window, toNat_field]
  omega

/-- The whole stream points into the last interval of the encoder: the flush emits LOW (R87). -/
theorem pointsInto_flushed (hd : s.dir = .encode) (hlt : s.low < s.high) : PointsInto (flushed s).outq s := by
  refine ⟨hd, flushBytes s.low 4, rfl, by simp [flushBytes], ?_⟩
  rw [BitVec.lt_def] at hlt
  rw [window_flushBytes]
  omega

/-- An encode session that completes: after any number `k` of its commands it has coded their bits, and it codes the others on the way
to the state it flushes. -/
theorem exists_encodes_of_session {m : BitVec 2} {a : Bool} {xs : List Symbol}
    (h : runAll (.init .encode m a :: (xs.map Symbol.encoder ++ [.flush])) s = some t) (ht : t.sstate = .done) (k : Nat) :
    initFieldsLegal m a = true ∧ ∃ e f, runAll (.init .encode m a :: (xs.take k).map Symbol.encoder) s = some e ∧
      Encodes ((xs.take k).flatMap Symbol.coded) (beginSession .encode m a s) e ∧
      Encodes ((xs.drop k).flatMap Symbol.coded) e f ∧
      t = answered (encode .flush) statusOk (f.bytesOut + 4#32) (flushed f) := by
  have encoders (is : List Symbol) : ∀ i ∈ is.map Symbol.encoder, allowedInFault i.opc = false := by
    simp [allowedInFault_encoder]
  have htf : t.sstate ≠ .fault := by simp [ht]
  obtain ⟨s0, hinit, hc0, hrun⟩ := (runAll_cons _ _ _ _).1 h
  obtain ⟨f, hf, hflush⟩ := (runAll_append _ _ _ _).1 hrun
  rw [← List.take_append_drop k xs, List.map_append] at hf
  obtain ⟨e, he, hef⟩ := (runAll_append _ _ _ _).1 hf
  have hff : f.sstate ≠ .fault := fun hfault => htf (runAll_of_fault (by simp [allowedInFault, Instr.opc]) hfault hflush)
  have hfe : e.sstate ≠ .fault := fun hfault => hff (runAll_of_fault (encoders _) hfault hef)
  have hf0 : s0.sstate ≠ .fault := fun hfault => hfe (runAll_of_fault (encoders _) hfault he)
  obtain ⟨data, u, hok, hs, rfl⟩ := exec_eq_done hinit hc0 hf0
  cases hs
  obtain ⟨t', hexec, hct, hnil⟩ := (runAll_cons _ _ _ _).1 hflush
  cases hnil
  have h0e := Encodes.answer _ _ _ (encodes_of_runAll he hfe)
  have hencf := encodes_of_runAll hef hff
  exact ⟨fieldsLegal_of_check hok, e, f, (runAll_cons _ _ _ _).2 ⟨_, hinit, hc0, he⟩, h0e, hencf,
    exec_flush_encode (hencf.dir_eq.trans h0e.dir_eq) hexec hct htf⟩

/-! ## The decoder's session -/

theorem CodesTo.rcDecode_eq {pos : Bool → HoldPoint} {next : Bool → State → Result} (h : CodesTo b s u)
    (hy : decodedBit (b.prob s) s = b.value) : rcDecode (b.prob s) pos next s = next b.value u := by
  rw [rcDecode, if_pos h.ordered, hy, renormThen, h.settles]

theorem decByteFrom_of_decodes (ys : List Bool) (acc : Byte) (h : Decodes (ys.map .predicted) s t) :
    decByteFrom ys.length acc s = .done ((ys.foldl pushBit acc).setWidth 32) t := by
  induction ys generalizing acc s with
  | nil =>
    cases h
    rfl
  | cons y ys ih =>
    cases h with
    | bit h hy hr =>
      rw [List.length_cons, decByteFrom, decPredBit]
      exact (h.rcDecode_eq hy).trans (ih (pushBit acc y) hr)

/-- The bits of a byte, pushed in the order they were decoded, make the byte (R158). -/
theorem foldl_pushBit_msbFirst (v : Byte) : (msbFirst v).foldl pushBit 0#8 = v := by
  revert v
  decide

/-- The pseudocode of a decoder's command that finds the bits of a symbol answers the symbol (R157, R158, R160). -/
theorem semOf_decoder_of_decodes (x : Symbol) (h : Decodes x.coded s t) : semOf x.decoder s = .done x.data t := by
  cases x with
  | bit y =>
    cases h with
    | bit h hy hr =>
      cases hr
      exact h.rcDecode_eq (next := fun y v => decBitDone y (finishPredBit y v)) hy
  | byte v =>
    have hv := decByteFrom_of_decodes (msbFirst v) 0#8 h
    rwa [foldl_pushBit_msbFirst] at hv
  | raw y p =>
    cases h with
    | bit h hy hr =>
      cases hr
      exact h.rcDecode_eq hy

theorem Decodes.allowed (h : Decodes (b :: bs) s t) : b.Allowed s := by
  cases h with
  | bit h _ _ => exact h.allowed

/-- The checks of a command that FAULT state refuses are all that is asked of it besides its fields (60_exceptions.md R191). -/
theorem check_of_sessionChecks {i : Instr} (hf : fieldsLegal i = true) (h : SessionChecks i s) : check i s = .ok := by
  obtain ⟨hcoding, hside, hpred, hbyte, hprob⟩ := h
  unfold check
  split_ifs with hfault hfields _ hseq hdir hmode haligned
  · cases hcoding.symm.trans hfault.1
  · cases hf.symm.trans hfields
  · rfl
  · exact absurd hcoding hseq
  · exact absurd hside (not_or.2 hdir)
  · exact absurd hmode.2 (hpred hmode.1)
  · exact absurd (hbyte haligned.1) haligned.2
  · rfl

/-- An open decode session lets a decoder's command pass, at a byte boundary if it is DEC_BYTE. -/
theorem check_decoder (x : Symbol) (hs : s.sstate = .coding) (hd : s.dir = .decode) (h : Decodes x.coded s t)
    (hc : isByteCommand x.decoder = true → s.c0 = 1#8) : check x.decoder s = .ok := by
  refine check_of_sessionChecks (by cases x <;> rfl) ⟨hs, .inr ?_, fun hp => ?_, hc, ?_⟩
  · rw [hd]
    cases x <;> rfl
  · cases x with
    | bit y => exact h.allowed
    | byte v => exact h.allowed
    | raw y p => cases hp
  · cases x with
    | bit y => exact nofun
    | byte v => exact nofun
    | raw y p => exact fun hp => h.allowed (Option.some.inj hp)

/-- Decoded bits leave RESPQ and the capacities alone. -/
theorem Decodes.responses (h : Decodes bs s t) : t.respq = s.respq ∧ t.depths = s.depths := by
  induction h with
  | nil s => exact ⟨rfl, rfl⟩
  | bit h _ _ ih =>
    rw [CodedBit.finish_respq, CodedBit.finish_depths, h.same.respq, h.same.depths] at ih
    exact ih

/-! ### Byte boundaries -/

/-- C0 after `n` predicted bits: a leading 1 and the bits of the current byte (10_state.md R18). -/
def AtBit (n : Nat) (s : State) : Prop := 2 ^ (n % 8) ≤ s.c0.toNat ∧ s.c0.toNat < 2 ^ (n % 8 + 1)

theorem AtBit.c0_eq_one {n : Nat} (h : AtBit n s) (hn : n % 8 = 0) : s.c0 = 1#8 := by
  unfold AtBit at h
  rw [hn] at h
  exact BitVec.eq_of_toNat_eq (by simp at h ⊢; omega)

theorem atBit_zero (h : s.c0 = 1#8) : AtBit 0 s := by simp [AtBit, h]

theorem AtBit.ctxUpdate {n : Nat} (h : AtBit n s) (y : Bool) : AtBit (n + 1) (ctxUpdate y s) := by
  have hy : y.toNat ≤ 1 := Bool.toNat_le y
  obtain ⟨hlo, hup⟩ := h
  obtain ⟨k, hk⟩ : ∃ k, k = n % 8 := ⟨_, rfl⟩
  have hk8 : k < 8 := by omega
  rw [← hk] at hlo hup
  unfold AtBit Machine.ctxUpdate
  dsimp only
  split
  · have : (n + 1) % 8 = 0 := by interval_cases k <;> omega
    simp [this]
  · have hnext : (n + 1) % 8 = k + 1 := by interval_cases k <;> omega
    rw [hnext, BitVec.toNat_ofNat, Nat.mod_eq_of_lt (by omega), Nat.pow_succ, Nat.pow_succ]
    rw [Nat.pow_succ] at hup
    omega

/-- The predicted bits among coded bits. -/
def predictedCount : List CodedBit → Nat
  | [] => 0
  | .predicted _ :: bs => predictedCount bs + 1
  | .raw _ _ :: bs => predictedCount bs

theorem Decodes.atBit {n : Nat} (h : Decodes bs s t) (hn : AtBit n s) : AtBit (n + predictedCount bs) t := by
  induction h generalizing n with
  | nil s => exact hn
  | @bit b bs s u t h _ _ ih =>
    have hu : AtBit n u := by rwa [AtBit, h.same.c0]
    cases b with
    | predicted y =>
      have := ih (n := n + 1) (by
        have hc := AtBit.ctxUpdate (s := { u with mem := trainedMem y u }) hu y
        rwa [← train_eq] at hc)
      rwa [predictedCount, Nat.add_comm (predictedCount bs), ← Nat.add_assoc]
    | raw y p => exact ih hu

theorem bytesAligned_add_eight (n : Nat) (xs : List Symbol) : bytesAligned (n + 8) xs = bytesAligned n xs := by
  induction xs generalizing n with
  | nil => simp [bytesAligned]
  | cons x xs ih =>
    cases x with
    | bit y => rw [bytesAligned, bytesAligned, ← ih (n + 1), Nat.add_right_comm]
    | byte v => rw [bytesAligned, bytesAligned, ih, Nat.add_mod_right]
    | raw y p => rw [bytesAligned, bytesAligned, ih]

/-- Past a symbol the decoder is where the alignment test counts on (20_memory.md R46). -/
theorem bytesAligned_cons {n : Nat} {x : Symbol} {xs : List Symbol} (h : bytesAligned n (x :: xs) = true) :
    (isByteCommand x.decoder = true → n % 8 = 0) ∧ bytesAligned (n + predictedCount x.coded) xs = true := by
  cases x with
  | bit y => exact ⟨by simp [Symbol.decoder, isByteCommand], h⟩
  | byte v =>
    rw [bytesAligned, Bool.and_eq_true, beq_iff_eq] at h
    exact ⟨fun _ => h.1, (bytesAligned_add_eight n xs).trans h.2⟩
  | raw y p => exact ⟨by simp [Symbol.decoder, isByteCommand], h⟩

theorem bytesAligned_take {n : Nat} {xs : List Symbol} (h : bytesAligned n xs = true) (k : Nat) :
    bytesAligned n (xs.take k) = true := by
  induction xs generalizing n k with
  | nil => simpa using h
  | cons x xs ih =>
    cases k with
    | zero => simp [bytesAligned]
    | succ k =>
      rw [List.take_succ_cons]
      cases x with
      | bit y => exact ih h k
      | byte v =>
        rw [bytesAligned, Bool.and_eq_true] at h ⊢
        exact ⟨h.1, ih h.2 k⟩
      | raw y p => exact ih h k

/-! ### A run of decoder's commands -/

theorem Encodes.split (h : Encodes (bs ++ cs) s t) : ∃ u, Encodes bs s u ∧ Encodes cs u t := by
  generalize hall : bs ++ cs = all at h
  induction h generalizing bs with
  | nil s =>
    obtain ⟨rfl, rfl⟩ := List.append_eq_nil_iff.1 hall
    exact ⟨s, .nil s, .nil s⟩
  | @bit b all s u t hb hr ih =>
    cases bs with
    | nil =>
      rw [List.nil_append] at hall
      exact ⟨s, .nil s, hall ▸ .bit hb hr⟩
    | cons c bs =>
      rw [List.cons_append, List.cons.injEq] at hall
      obtain ⟨rfl, hall⟩ := hall
      obtain ⟨v, hv, hvt⟩ := ih hall
      exact ⟨v, .bit hb hv, hvt⟩
  | answer w st data _ ih =>
    obtain ⟨v, hv, hvt⟩ := ih hall
    exact ⟨v, .answer w st data hv, hvt⟩

/-- The response of a decoder's command that finds its symbol. -/
def decodedResponse (x : Symbol) : Response := responseWord (encode x.decoder) statusOk x.data

/-- A decoder in step answers the symbols of the bits the encoder codes from here, however they are grouped. -/
theorem Encodes.decoder_run {xs : List Symbol} {n : Nat} (h : Encodes (xs.flatMap Symbol.coded) e f) (hf : PointsInto out f)
    (hd : InStep out tail e d) (hn : AtBit n d) (hal : bytesAligned n xs = true) (hroom : RespRoom xs.length d) :
    ∃ g, runAll (xs.map Symbol.decoder) d = some g ∧ InStep out tail f g ∧ g.respq = d.respq ++ xs.map decodedResponse ∧
      g.depths = d.depths := by
  induction xs generalizing e d n with
  | nil =>
    obtain ⟨g, hg, hfg⟩ := h.follow hf hd
    cases hg
    exact ⟨d, rfl, hfg, by simp, rfl⟩
  | cons x xs ih =>
    obtain ⟨m, hx, hxs⟩ := h.split
    obtain ⟨v, hv, hmv⟩ := hx.follow (hxs.pointsInto hf) hd
    obtain ⟨hbyte, hal'⟩ := bytesAligned_cons hal
    obtain ⟨hq, hdep⟩ := hv.responses
    have hroomv : RespRoom (xs.length + 1) v := by rwa [RespRoom, hq, hdep]
    have hexec := exec_of_done (check_decoder x hd.coding hd.side hv fun hb => hn.c0_eq_one (hbyte hb))
      (semOf_decoder_of_decodes x hv) (by unfold RespRoom at *; omega)
    obtain ⟨g, hg, hfg, hgq, hgdep⟩ := ih (d := answered (encode x.decoder) statusOk x.data v) hxs
      (hmv.answered_right _ _ _) (hv.atBit hn) hal' (by unfold RespRoom at *; simp; omega)
    refine ⟨g, (runAll_cons _ _ _ _).2 ⟨_, hexec, rfl, hg⟩, hfg, ?_, hgdep.trans hdep⟩
    simp [hgq, hq, decodedResponse]

/-! ### INIT and FLUSH of the decoder -/

/-- Priming reads that all find a byte (40_range_coder.md R88). -/
theorem primeFrom_of_bytes (r : List Byte) (q : List InItem) (h : s.inq = r.map InItem.byte ++ q) :
    primeFrom r.length s = .done 0#32 { s with
      inq := q, bytesIn := s.bytesIn + BitVec.ofNat 32 r.length,
      code := r.foldl (fun c b => (c <<< 8) ||| b.setWidth 32) s.code } := by
  induction r generalizing s with
  | nil =>
    obtain rfl : s.inq = q := by simpa using h
    simp [primeFrom]
  | cons b r ih =>
    rw [List.length_cons, primeFrom, inPop_of_byte h]
    dsimp only
    rw [ih rfl]
    simp [shiftCode, BitVec.add_assoc, BitVec.ofNat_add, BitVec.add_comm 1#32]

/-- The state a decoder's INIT ends in on the stream `r`, with `tail` behind it. -/
def primed (m : BitVec 2) (a : Bool) (r : List Byte) (tail : List InItem) (s : State) : State :=
  { beginSession .decode m a s with
    inq := (r.drop 4).map InItem.byte ++ tail
    bytesIn := 4#32
    code := (r.take 4).foldl (fun c b => (c <<< 8) ||| b.setWidth 32) 0#32 }

theorem exec_init_decode {m : BitVec 2} {a : Bool} {r : List Byte} (hm : initFieldsLegal m a = true) (hlen : 4 ≤ r.length)
    (hq : s.inq = r.map InItem.byte ++ tail) (hroom : RespRoom 1 s) :
    exec (.init .decode m a) s = .next (answered (encode (.init .decode m a)) statusOk 0#32 (primed m a r tail s)) := by
  refine exec_of_done (by simp [check, fieldsLegal, hm, allowedInFault, Instr.opc]) ?_ hroom
  have htake : (r.take 4).length = 4 := by simpa using hlen
  have h := primeFrom_of_bytes (s := beginSession .decode m a s) (r.take 4) ((r.drop 4).map InItem.byte ++ tail)
    (by rw [← List.append_assoc, ← List.map_append, List.take_append_drop]; exact hq)
  rw [htake] at h
  exact h

/-- After both INITs the decoder is in step with the encoder, CODE holding the first four bytes of the stream (R82, R88). -/
theorem inStep_primed {m : BitVec 2} {a : Bool} {r : List Byte} (hlen : 4 ≤ r.length) (hr : out = e.outq ++ r) (d : State) :
    InStep out tail (beginSession .encode m a e) (primed m a r tail d) := by
  refine ⟨rfl, rfl, ⟨rfl, rfl, rfl, rfl, rfl⟩, rfl, rfl, rfl, rfl, r, hr, ?_, rfl⟩
  obtain ⟨b0, b1, b2, b3, tl, rfl⟩ := exists_four_of_length hlen
  have h0 := b0.isLt
  have h1 := b1.isLt
  have h2 := b2.isLt
  simp only [primed, List.take_succ_cons, List.take_zero, List.foldl_cons, List.foldl_nil, toNat_shiftIn, BitVec.toNat_ofNat, window]
  omega

/-- In step with the encoder at its flush, the decoder finds CODE at LOW and `End` behind the stream (R89). -/
theorem exec_flush_decode {rest : List InItem} (h : InStep (flushed e).outq (.endMark :: rest) e d) (hroom : RespRoom 1 d) :
    exec .flush d = .next (answered (encode .flush) statusOk (e.bytesOut + 4#32) { d with inq := rest, sstate := .done }) := by
  obtain ⟨r, hr, hcode, hinq⟩ := h.stream
  obtain rfl : flushBytes e.low 4 = r := List.append_cancel_left hr
  have hcl : d.code = d.low := BitVec.eq_of_toNat_eq (by rw [hcode, window_flushBytes, h.low])
  have hend : d.inq = .endMark :: rest := by simpa [flushBytes] using hinq
  rw [← h.counts]
  refine exec_of_done (u := { d with inq := rest, sstate := .done }) ?_ ?_ hroom
  · exact check_of_sessionChecks rfl ⟨h.coding, .inl rfl, nofun, nofun, nofun⟩
  · simp [semOf, flushSem, h.side, endDec, hcl, endItem, inPop_of_endMark hend]

/-! ## The obligation -/

/-- A decode session that has gone through the commands of some symbols whose bits the encoder codes. -/
theorem exists_decoder_session {m : BitVec 2} {a : Bool} {xs : List Symbol} {r : List Byte} {rest : List InItem}
    (hm : initFieldsLegal m a = true) (h : Encodes (xs.flatMap Symbol.coded) (beginSession .encode m a e) f)
    (hf : PointsInto (e.outq ++ r) f) (hal : bytesAligned 0 xs = true) (hroom : RespRoom (xs.length + 1) d)
    (hq : d.inq = streamItems r ++ rest) :
    ∃ g, runAll (.init .decode m a :: xs.map Symbol.decoder) d = some g ∧ InStep (e.outq ++ r) (.endMark :: rest) f g ∧
      g.respq = d.respq ++ responseWord (encode (.init .decode m a)) statusOk 0#32 :: xs.map decodedResponse ∧
      g.depths = d.depths := by
  obtain ⟨-, r', hr', hlen, -⟩ := h.pointsInto hf
  obtain rfl : r = r' := List.append_cancel_left hr'
  have hinit := exec_init_decode (s := d) (tail := .endMark :: rest) hm hlen (by simpa [streamItems] using hq)
    (by unfold RespRoom at *; omega)
  have hstep := (inStep_primed (e := e) (m := m) (a := a) (tail := .endMark :: rest) hlen rfl d).answered_right
    (encode (.init .decode m a)) statusOk 0#32
  obtain ⟨g, hg, hfg, hgq, hgd⟩ := h.decoder_run (n := 0) hf hstep (atBit_zero rfl) hal
    (by unfold RespRoom at *; simp [answered, primed, beginSession]; omega)
  exact ⟨g, (runAll_cons _ _ _ _).2 ⟨_, hinit, rfl, hg⟩, hfg, by simp [hgq, answered, primed, beginSession], hgd⟩

/-- Settles O60: the stream points into every interval of the encoder, so CODE selects each bit the encoder coded, and the flush leaves
CODE = LOW with `End` next; the same after any common bits on the way. -/
theorem decodingReversesEncoding : Obligations.DecodingReversesEncoding := by
  intro e e' d m a es ds stream rest _ hrun hdone hout hbits hal _ hroom hinq
  have hcoded := flatMap_coded_eq hbits
  have ordered {bs : List CodedBit} {f : State} (h : Encodes bs (beginSession .encode m a e) f) : f.dir = .encode ∧ f.low < f.high :=
    ⟨h.dir_eq, h.ordered (by decide : 0x00000000#32 < 0xFFFFFFFF#32)⟩
  constructor
  · obtain ⟨hm, e1, f, -, h1, h2, rfl⟩ := exists_encodes_of_session hrun hdone es.length
    have h := h1.trans h2
    rw [← List.flatMap_append, List.take_append_drop, ← hcoded] at h
    obtain ⟨hdir, hlt⟩ := ordered h
    have hfl : (flushed f).outq = e.outq ++ stream := hout
    obtain ⟨g, hg, hfg, hgq, hgd⟩ := exists_decoder_session hm h (hfl ▸ pointsInto_flushed hdir hlt) hal
      (by unfold RespRoom at *; omega) hinq
    rw [← hfl] at hfg
    have hflush := exec_flush_decode hfg (by unfold RespRoom at *; rw [hgq, hgd]; simp; omega)
    obtain ⟨hpm, hpa, hc0, hc4, hmem⟩ := hfg.predictor
    refine ⟨answered (encode .flush) statusOk (f.bytesOut + 4#32) { g with inq := rest, sstate := .done }, ?_,
      rfl, rfl, hfg.counts, hfg.bitcount, hfg.low, hfg.high, hc0, hc4, hmem, ?_⟩
    · rw [← List.cons_append, runAll_append]
      exact ⟨g, hg, (runAll_cons _ _ _ _).2 ⟨_, hflush, rfl, rfl⟩⟩
    · simp [hgq, answered, decodedResponse, statusOk, flushed]
  · intro k l hkl
    obtain ⟨hm, ek, f, hek, h1, h2, rfl⟩ := exists_encodes_of_session hrun hdone k
    obtain ⟨hdir, hlt⟩ := ordered (h1.trans h2)
    have hfl : (flushed f).outq = e.outq ++ stream := hout
    rw [← flatMap_coded_eq hkl] at h1
    obtain ⟨dk, hdk, hfg, -, -⟩ := exists_decoder_session hm h1 (h2.pointsInto (hfl ▸ pointsInto_flushed hdir hlt))
      (bytesAligned_take hal l) (by unfold RespRoom at *; simp; omega) hinq
    exact ⟨ek, dk, hek, hdk, hfg.low, hfg.high, hfg.predictor.c0, hfg.predictor.c4, hfg.predictor.mem⟩

end Sys2Proof.Machine
end

section
/-! PROOFS. Adaptive counters, the context and the DIRECT predictor (41_predictors.md R102-R110). -/

namespace Sys2Proof.Machine

/-! ## The shift rate -/

/-- A count whose `floor_log2(N + 2)` is `k` has rate `k`, up to 5 (R102). -/
theorem rate_eq {k n : Nat} (hk : k ≤ 5) (hlo : 2 ^ k ≤ n + 2) (hup : n + 2 < 2 ^ (k + 1)) : rate n = k := by
  have hlog : floorLog2 (n + 2) = k := (Nat.log2_eq_iff (by omega)).2 ⟨hlo, hup⟩
  rw [rate, hlog, Nat.min_eq_left hk]

theorem one_le_rate (n : Nat) : 1 ≤ rate n :=
  Nat.le_min.2 ⟨(Nat.le_log2 (by omega)).2 (by omega), by omega⟩

/-- Settles O27: each row of the table lies between two powers of two. -/
theorem counterRateFollowsItsTable : Obligations.CounterRateFollowsItsTable :=
  ⟨fun _ => rfl, fun _ _ => rate_eq (by omega) (by omega) (by omega), fun _ _ _ => rate_eq (by omega) (by omega) (by omega),
    fun _ _ _ => rate_eq (by omega) (by omega) (by omega), fun _ _ _ => rate_eq (by omega) (by omega) (by omega),
    rate_eq (by omega) (by omega) (by omega)⟩

/-! ## The probability of a counter -/

theorem one_le_ctrP12 (c : Counter) : 1 ≤ ctrP12 c := Nat.le_max_left _ _

theorem ctrP12_eq_shiftRight (c : Counter) : ctrP12 c = max 1 (c.p.toNat >>> 4) := by
  rw [ctrP12, Nat.shiftRight_eq_div_pow]

/-- Settles O28: the `max` gives the lower bound, the 16 bits of P the upper. -/
theorem counterProbabilityIsNeverExtreme : Obligations.CounterProbabilityIsNeverExtreme :=
  ⟨fun c => ⟨ctrP12_eq_shiftRight c, one_le_ctrP12 c, ctrP12_le c, c.p.isLt⟩, by decide, by decide,
    fun _ => by simp [ctrP12]⟩

/-! ## The counter update -/

/-- A shift right by at least one place moves a difference toward 0, and a positive one to something smaller. -/
theorem asr_bounds (d : Int) {r : Nat} (hr : 1 ≤ r) : min d 0 ≤ asr d r ∧ asr d r < max d 1 := by
  have hpow : (2 : Int) ≤ 2 ^ r := le_self_pow₀ (by omega) (by omega)
  constructor
  · exact (Int.le_ediv_iff_mul_le (by omega)).2 (by nlinarith [min_le_left d 0, min_le_right d 0])
  · exact Int.ediv_lt_of_lt_mul (by omega) (by nlinarith [le_max_left d 1, le_max_right d 1])

theorem asr_one {r : Nat} (hr : 1 ≤ r) : asr 1 r = 0 := by
  have := asr_bounds 1 hr
  omega

theorem asr_neg_one (r : Nat) : asr (-1) r = -1 := by
  rw [asr, Int.neg_one_ediv, Int.sign_eq_one_of_pos (Int.pow_pos (by omega))]

/-- A 16-bit probability moved toward the bit stays in its field (the inference inside R104): a 0-bit takes no more than there is, a
1-bit stops short of 65536. -/
theorem toNat_moved (p : BitVec 16) (y : Bool) {r : Nat} (hr : 1 ≤ r) :
    ((BitVec.ofInt 16 (p.toNat + asr (bitTarget y - p.toNat) r)).toNat : Int) = p.toNat + asr (bitTarget y - p.toNat) r := by
  have hp := p.isLt
  have hasr := asr_bounds (bitTarget y - p.toNat) hr
  have hrange : 0 ≤ p.toNat + asr (bitTarget y - p.toNat) r ∧ p.toNat + asr (bitTarget y - p.toNat) r < 65536 := by
    cases y <;> simp only [bitTarget] at hasr ⊢ <;> omega
  rw [BitVec.toNat_ofInt]
  omega

/-- The new P is the exact value of R104's formula. -/
theorem toNat_ctrUpdate_p (c : Counter) (y : Bool) :
    ((ctrUpdate c y).p.toNat : Int) = c.p.toNat + asr (bitTarget y - c.p.toNat) (rate c.n.toNat) :=
  toNat_moved c.p y (one_le_rate _)

theorem toNat_ctrUpdate_n (c : Counter) (y : Bool) : (ctrUpdate c y).n.toNat = min (c.n.toNat + 1) 30 := by
  rw [ctrUpdate, BitVec.toNat_ofNat]
  omega

/-- A difference of one rounds down: at 65535 a 1-bit moves nothing, at 1 a 0-bit takes all. -/
theorem ctrUpdate_p_one_from_target (n : BitVec 5) :
    (ctrUpdate { p := 65535#16, n := n } true).p = 65535#16 ∧ (ctrUpdate { p := 1#16, n := n } false).p = 0#16 := by
  constructor
  · simp [ctrUpdate, bitTarget, asr_one (one_le_rate _)]
  · simp [ctrUpdate, bitTarget, asr_neg_one]

/-- Settles O29: the move is exact because it never leaves the field. -/
theorem counterUpdateIsExact : Obligations.CounterUpdateIsExact :=
  ⟨fun c y => ⟨toNat_ctrUpdate_p c y, toNat_ctrUpdate_n c y⟩, ctrUpdate_p_one_from_target, by decide⟩

/-! ## The context indices -/

theorem ctxIndex_t0 (s : State) : ctxIndex .t0 s = s.c0.toNat := rfl

theorem ctxIndex_t1 (s : State) : ctxIndex .t1 s = s.c4.toNat % 256 * 256 + s.c0.toNat := by
  rw [ctxIndex, prevByte, BitVec.toNat_append, ← Nat.shiftLeft_add_eq_or_of_lt s.c0.isLt, Nat.shiftLeft_eq]
  simp

/-- `HIdx` of the last bytes, the `k` low bits of C4, in the numbers of R107. -/
theorem hashIndex_lowBits {k : Nat} (hk : k ≤ 32) (s : State) :
    hashIndex (BitVec.ofNat 32 (2 ^ k - 1)) s =
      (s.c4.toNat % 2 ^ k * 0x9E3779B1 % 2 ^ 32 / 2 ^ 12) ^^^ (s.c0.toNat * 2 ^ 12) := by
  have hmask : (2 ^ k - 1) % 2 ^ 32 = 2 ^ k - 1 := by
    have := Nat.pow_le_pow_right (n := 2) (by omega) hk
    omega
  have hhist : (s.c4 &&& BitVec.ofNat 32 (2 ^ k - 1)).toNat = s.c4.toNat % 2 ^ k := by
    rw [BitVec.toNat_and, BitVec.toNat_ofNat, hmask, Nat.and_two_pow_sub_one_eq_mod]
  have hshift : (s.c0 ++ 0#12).toNat = s.c0.toNat * 2 ^ 12 := by
    exact (BitVec.toNat_append s.c0 0#12).trans (by simp [Nat.shiftLeft_eq])
  rw [hashIndex, BitVec.toNat_xor, hshift, BitVec.extractLsb'_toNat, BitVec.toNat_mul, hhist, Nat.shiftRight_eq_div_pow]
  congr 1
  exact Nat.mod_eq_of_lt (by omega)

theorem ctxIndex_t2 (s : State) :
    ctxIndex .t2 s = (s.c4.toNat % 2 ^ 16 * 0x9E3779B1 % 2 ^ 32 / 2 ^ 12) ^^^ (s.c0.toNat * 2 ^ 12) :=
  hashIndex_lowBits (k := 16) (by omega) s

theorem ctxIndex_t3 (s : State) :
    ctxIndex .t3 s = (s.c4.toNat % 2 ^ 24 * 0x9E3779B1 % 2 ^ 32 / 2 ^ 12) ^^^ (s.c0.toNat * 2 ^ 12) :=
  hashIndex_lowBits (k := 24) (by omega) s

theorem ctxIndex_t4 (s : State) :
    ctxIndex .t4 s = (s.c4.toNat % 2 ^ 32 * 0x9E3779B1 % 2 ^ 32 / 2 ^ 12) ^^^ (s.c0.toNat * 2 ^ 12) :=
  hashIndex_lowBits (k := 32) (by omega) s

/-- Settles O30: the indices in numbers; their low byte is C0, which is not 0. -/
theorem contextIndicesLieInTheirTables : Obligations.ContextIndicesLieInTheirTables := by
  refine ⟨fun s t => ⟨ctxIndex_lt_tableSize t s, ctxIndex_t0 s, ctxIndex_t1 s, ctxIndex_t2 s, ctxIndex_t3 s, ctxIndex_t4 s⟩,
    fun s h => ?_, fun s h0 h4 => ?_, fun s h0 h4 => ?_⟩
  · have hc0 : s.c0.toNat ≠ 0 := fun e => h (BitVec.eq_of_toNat_eq e)
    have := s.c0.isLt
    rw [ctxIndex_t0, ctxIndex_t1]
    omega
  · rw [ctxIndex_t2, ctxIndex_t3, ctxIndex_t4, h0, h4]
    decide
  · rw [ctxIndex_t2, ctxIndex_t3, ctxIndex_t4, h0, h4]
    decide

/-! ## The context update -/

/-- Below 128 the context appends the bit to the partial byte (R108). -/
theorem ctxUpdate_of_lt {s : State} (h : s.c0.toNat < 128) (y : Bool) :
    ctxUpdate y s = { s with c0 := BitVec.ofNat 8 (2 * s.c0.toNat + y.toNat) } := by
  have hy := Bool.toNat_le y
  rw [ctxUpdate, if_neg (by omega), Nat.mul_comm]

/-- From 128 on the bit is the eighth: C4 takes the byte (R108). -/
theorem ctxUpdate_of_le {s : State} (h : 128 ≤ s.c0.toNat) (y : Bool) :
    ctxUpdate y s = { s with c4 := (s.c4 <<< 8) ||| BitVec.ofNat 32 (2 * s.c0.toNat + y.toNat - 256), c0 := 1#8 } := by
  rw [ctxUpdate, if_pos (by omega), Nat.mul_comm]

/-- Settles O31: the bit is the eighth when C0 has its top bit. -/
theorem contextAdvancesByOneBit : Obligations.ContextAdvancesByOneBit :=
  fun _ y h => ⟨fun hlt => ctxUpdate_of_lt hlt y, fun hle => ctxUpdate_of_le hle y, ctxUpdate_c0_ne_zero h y⟩

/-- The context update neither reads nor writes the tables. -/
theorem ctxUpdate_with_mem (y : Bool) (s : State) (m : Memory) :
    ctxUpdate y { s with mem := m } = { ctxUpdate y s with mem := m } := by
  unfold ctxUpdate
  dsimp only
  split <;> rfl

/-! ## The DIRECT update -/

/-- Training the counter of table `t` writes its entry of the context and no other counter (R104). -/
theorem Memory.readCounter_trainCounter {m : Memory} (h : m.wf) (t u : TableId) (y : Bool) (s : State) (i : Nat) :
    (trainCounter t y s m).readCounter u i =
      if u = t ∧ i = ctxIndex t s then ctrUpdate (m.readCounter t (ctxIndex t s)) y else m.readCounter u i :=
  Memory.readCounter_writeCounter h t u _ i _

@[simp] theorem Memory.readWeight_trainCounter (m : Memory) (t : TableId) (y : Bool) (s : State) (k i : Nat) :
    (trainCounter t y s m).readWeight k i = m.readWeight k i := Memory.readWeight_writeCounter m t _ k i _

@[simp] theorem Memory.readApm_trainCounter (m : Memory) (t : TableId) (y : Bool) (s : State) (r j : Nat) :
    (trainCounter t y s m).readApm r j = m.readApm r j := Memory.readApm_writeCounter m t _ r j _

theorem dirUpdate_eq (y : Bool) (s : State) : dirUpdate y s = { ctxUpdate y s with mem := trainCounter .t1 y s s.mem } :=
  ctxUpdate_with_mem y s _

@[simp] theorem dirUpdate_mem (y : Bool) (s : State) : (dirUpdate y s).mem = trainCounter .t1 y s s.mem := by
  rw [dirUpdate_eq]

/-- Settles O32: one counter of T1 is trained, then the context, which leaves the tables alone. -/
theorem directUpdateWritesOneCounter : Obligations.DirectUpdateWritesOneCounter := by
  intro s y hwf
  rw [dirUpdate_mem]
  refine ⟨?_, fun t i hne => ?_, fun k i => ?_, fun r j => ?_, dirUpdate_eq y s, fun hp => if_pos hp⟩
  · rw [Memory.readCounter_trainCounter hwf, if_pos ⟨rfl, rfl⟩]
  · rw [Memory.readCounter_trainCounter hwf, if_neg hne]
  · rw [Memory.readWeight_trainCounter]
  · rw [Memory.readApm_trainCounter]

end Sys2Proof.Machine
end

section
/-! PROOFS. The logistic transforms, the guard and what the mix follows from (42_mixer_apm.md R120-R122, R132, R140). -/

namespace Sys2Proof.Machine

/-! ## squash -/

/-- The table SQ rises (R120). -/
theorem sq_le_succ {i : Nat} (h : i ≤ 31) : sq i ≤ sq (i + 1) := by
  revert i
  decide

/-- `squash` on the segment from `SQ[i]` to `SQ[i + 1]`, both ends included: the point they share has the value of either (R121). -/
theorem squash_segment {d : Int} {i w : Nat} (hlo : -2047 ≤ d) (hup : d ≤ 2047) (hd : d = 128 * (i - 16 : Int) + w)
    (hw : w ≤ 128) :
    squash d = (sq i * (128 - w) + sq (i + 1) * w + 64) / 128 := by
  have hclamp : clamp d (-2047) 2047 = d := by unfold clamp; omega
  rw [squash, hclamp]
  dsimp only [asr]
  rcases Nat.lt_or_eq_of_le hw with hin | rfl
  · have hi : (d / 2 ^ 7 + 16).toNat = i := by omega
    have hr : (d % 128).toNat = w := by omega
    rw [hi, hr]
  · have hi : (d / 2 ^ 7 + 16).toNat = i + 1 := by omega
    have hr : (d % 128).toNat = 0 := by omega
    rw [hi, hr]
    simp

/-- An interpolation toward the greater end rises with its weight. -/
theorem interpolate_le_succ {a b n w : Nat} (hab : a ≤ b) (hw : w < n) :
    a * (n - w) + b * w ≤ a * (n - (w + 1)) + b * (w + 1) := by
  rw [show n - w = n - (w + 1) + 1 by omega, Nat.mul_succ, Nat.mul_succ]
  omega

theorem squash_le_succ (d : Int) : squash d ≤ squash (d + 1) := by
  by_cases hin : -2047 ≤ d ∧ d < 2047
  · obtain ⟨i, w, hd, hi, hw⟩ : ∃ i w : Nat, d = 128 * (i - 16 : Int) + w ∧ i ≤ 31 ∧ w < 128 :=
      ⟨(d / 128 + 16).toNat, (d % 128).toNat, by omega, by omega, by omega⟩
    rw [squash_segment hin.1 (by omega) hd (by omega),
      squash_segment (i := i) (w := w + 1) (by omega) (by omega) (by push_cast; omega) (by omega)]
    have hstep := interpolate_le_succ (sq_le_succ hi) hw
    omega
  · have hclamp : clamp (d + 1) (-2047) 2047 = clamp d (-2047) 2047 := by unfold clamp; omega
    rw [squash, squash, hclamp]

/-- `squash` is non-decreasing (the inference inside R121). -/
theorem squash_mono : Monotone squash := monotone_int_of_le_succ squash_le_succ

/-- Settles O36: one logit more stays in its segment of the table, whose ends rise. -/
theorem squashIsNonDecreasing : Obligations.SquashIsNonDecreasing := by
  refine ⟨rfl, fun d => ?_, fun d e h => squash_mono h, fun d => ⟨one_le_squash d, squash_le d⟩, by decide⟩
  rw [Nat.shiftRight_eq_div_pow]
  rfl

/-! ## stretch -/

/-- The steps of a binary search over `2 ^ n` places, largest first. -/
def searchSteps : Nat → List Nat
  | 0 => []
  | n + 1 => 2 ^ n :: searchSteps n

/-- `stretch` in terms of the search's result (log entry 14). -/
theorem stretch_eq (p : Nat) : stretch p = (min (stretchSearch p (searchSteps 12) 0) 4094 : Nat) - 2047 := rfl

/-- A search that ends at `r` among the `2 ^ n` places from `pos` on, place `k` standing for the logit `k - 2048`. The place at `r`
squashes below `p` and the next does not, but the search looks neither at its first place nor at the one past its last. -/
structure FoundAt (p n pos r : Nat) : Prop where
  ge : pos ≤ r
  lt : r < pos + 2 ^ n
  below : r = pos ∨ squash (r - 2048) < p
  above : r + 1 = pos + 2 ^ n ∨ p ≤ squash (r - 2047)

theorem stretchSearch_found (p n pos : Nat) : FoundAt p n pos (stretchSearch p (searchSteps n) pos) := by
  induction n generalizing pos with
  | zero => exact ⟨Nat.le_refl _, Nat.lt_succ_self _, .inl rfl, .inl rfl⟩
  | succ n ih =>
    rw [searchSteps, stretchSearch]
    have hpow : 2 ^ (n + 1) = 2 ^ n + 2 ^ n := by omega
    split
    · rename_i hlt
      obtain ⟨hge, hend, hbelow, habove⟩ := ih (pos + 2 ^ n)
      refine ⟨by omega, by omega, .inr ?_, habove.imp_left (by omega)⟩
      rcases hbelow with he | hb
      · rwa [he]
      · exact hb
    · rename_i hge'
      obtain ⟨hge, hend, hbelow, habove⟩ := ih pos
      refine ⟨hge, by omega, hbelow, .inr ?_⟩
      rcases habove with he | ha
      · have hx : ((stretchSearch p (searchSteps n) pos : Nat) - 2047 : Int) = (pos + 2 ^ n : Nat) - 2048 := by omega
        rw [hx]
        exact Nat.le_of_not_lt hge'
      · exact ha

/-- Below `stretch p` every logit of the range squashes below `p` (R122). -/
theorem squash_lt_of_lt_stretch {p : Nat} {x : Int} (hx : -2047 ≤ x) (h : x < stretch p) : squash x < p := by
  have hf := stretchSearch_found p 12 0
  rw [stretch_eq] at h
  have hlast := hf.below.resolve_left (by omega)
  exact lt_of_le_of_lt (squash_mono (by omega)) hlast

/-- `stretch p` squashes to at least `p`, unless no logit does (R122). -/
theorem le_squash_stretch_or (p : Nat) : p ≤ squash (stretch p) ∨ (stretch p = 2047 ∧ squash 2047 < p) := by
  have hf := stretchSearch_found p 12 0
  rw [stretch_eq]
  by_cases hend : stretchSearch p (searchSteps 12) 0 = 4095
  · have hlast := hf.below.resolve_left (by omega)
    rw [hend] at hlast ⊢
    exact .inr ⟨rfl, hlast⟩
  · have hlt := hf.lt
    have hnext := hf.above.resolve_left (by omega)
    left
    rwa [Nat.min_eq_left (by omega)]

theorem stretch_mono : Monotone stretch := by
  intro p q hpq
  by_contra hlt
  have hlow := squash_lt_of_lt_stretch (p := p) (stretch_bounds q).1 (by omega)
  have hp := stretch_bounds p
  rcases le_squash_stretch_or q with hge | ⟨htop, -⟩ <;> omega

/-- Settles O37: the search stops between the last logit that squashes below `p` and the next. -/
theorem stretchIsTheLeastLogit : Obligations.StretchIsTheLeastLogit := by
  refine ⟨fun p => ⟨(stretch_bounds p).1, (stretch_bounds p).2, fun x => squash_lt_of_lt_stretch, ?_⟩,
    fun p q h => stretch_mono h, fun p _ hp => ?_, fun s t => ?_, by decide⟩
  · refine (le_squash_stretch_or p).imp_right fun ⟨htop, hlt⟩ => ⟨htop, fun x _ hx => ?_⟩
    exact lt_of_le_of_lt (squash_mono hx) hlt
  · have htop : squash 2047 = 4094 := by decide
    exact (le_squash_stretch_or p).resolve_right (by omega)
  · exact ⟨one_le_ctrP12 _, ctrP12_le _, one_le_squash _, (squash_le _).trans (by omega)⟩

/-! ## The guard -/

/-- Above one half the guard takes 2049 in place of a value on the other side (R132). -/
theorem apmGuard_of_gt {pm : Nat} (h : 2048 < pm) (pa : Nat) : apmGuard pm pa = if pa ≤ 2048 then 2049 else pa := by
  rw [apmGuard, if_neg (by omega : ¬(pm < 2048 ∧ 2048 ≤ pa))]
  simp only [h, true_and]

/-- Below one half the guard takes 2047 (R132). -/
theorem apmGuard_of_lt {pm : Nat} (h : pm < 2048) (pa : Nat) : apmGuard pm pa = if 2048 ≤ pa then 2047 else pa := by
  rw [apmGuard, if_neg (by omega : ¬(2048 < pm ∧ pa ≤ 2048))]
  simp only [h, true_and]

/-- At one half the guard leaves every value (R132). -/
theorem apmGuard_half (pa : Nat) : apmGuard 2048 pa = pa := by simp [apmGuard]

theorem lt_apmGuard {pm : Nat} (h : 2048 < pm) (pa : Nat) : 2048 < apmGuard pm pa := by
  rw [apmGuard_of_gt h]
  split <;> omega

theorem apmGuard_lt {pm : Nat} (h : pm < 2048) (pa : Nat) : apmGuard pm pa < 2048 := by
  rw [apmGuard_of_lt h]
  split <;> omega

theorem predict_of_mix {s : State} (h : s.pmode = 2#2) : predict s = mixPredict s := if_neg (by rw [h]; decide)

theorem mixPredict_of_not_apmEn {s : State} (h : s.apmEn = false) : mixPredict s = mixProb s := by simp [mixPredict, h]

theorem mixPredict_of_apmEn {s : State} (h : s.apmEn = true) : mixPredict s = apmGuard (mixProb s) (apmProb s) := by
  simp [mixPredict, h]

/-- Settles O38: the guard's three cases are the sides of one half `pm` can lie on. -/
theorem guardKeepsTheSideOfOneHalf : Obligations.GuardKeepsTheSideOfOneHalf := by
  refine ⟨fun pm pa => ⟨fun h => lt_apmGuard h pa, fun h => apmGuard_lt h pa, fun h ha => ?_, fun h ha => ?_,
    fun h => h ▸ apmGuard_half pa, fun h ha => ?_, fun h ha => ?_⟩, fun s h => ?_⟩
  · rw [apmGuard_of_gt h, if_neg (by omega)]
  · rw [apmGuard_of_lt h, if_neg (by omega)]
  · rw [apmGuard_of_gt h, if_pos ha]
  · rw [apmGuard_of_lt h, if_pos ha]
  · rw [predict_of_mix h]
    exact ⟨mixPredict_of_not_apmEn, mixPredict_of_apmEn, one_le_mixPredict s, mixPredict_le s⟩

/-! ## Mixing plausibility -/

/-- The coder's probability is on the side of one half that the mix is on (R132). -/
theorem lt_mixPredict {s : State} (h : 2048 < mixProb s) : 2048 < mixPredict s := by
  cases ha : s.apmEn with
  | false => rwa [mixPredict_of_not_apmEn ha]
  | true => exact mixPredict_of_apmEn ha ▸ lt_apmGuard h _

theorem mixPredict_lt {s : State} (h : mixProb s < 2048) : mixPredict s < 2048 := by
  cases ha : s.apmEn with
  | false => rwa [mixPredict_of_not_apmEn ha]
  | true => exact mixPredict_of_apmEn ha ▸ apmGuard_lt h _

section Plausibility

variable {s : State} {x : Int} (hw : ∀ i, i < 5 → 1024 ≤ weightOf i s)
include hw

/-- Inputs that all favour 1 by at least `x` add up, with weights of at least 1024 (R127, R131). -/
theorem le_mixDot (hx : 0 ≤ x) (h : ∀ t, x ≤ mixInput t s) : 5120 * x ≤ mixDot s := by
  have hlane : ∀ v ∈ mixerInputs.map fun l => mixInput l.2 s * weightOf l.1 s, x * 1024 ≤ v := by
    simp only [List.forall_mem_map]
    exact fun l hl => Int.mul_le_mul (h l.2) (hw _ (lane_lt hl)) (by omega) (hx.trans (h l.2))
  have hsum := List.card_nsmul_le_sum _ _ hlane
  rw [List.length_map, nsmul_eq_mul] at hsum
  exact le_of_eq_of_le (by norm_num [mixerInputs]; omega) hsum

/-- Inputs that all favour 0 add up likewise. -/
theorem mixDot_le (hx : x ≤ 0) (h : ∀ t, mixInput t s ≤ x) : mixDot s ≤ 5120 * x := by
  have hlane : ∀ v ∈ mixerInputs.map fun l => mixInput l.2 s * weightOf l.1 s, v ≤ x * 1024 := by
    simp only [List.forall_mem_map]
    intro l hl
    have hwl := hw _ (lane_lt hl)
    calc mixInput l.2 s * weightOf l.1 s ≤ x * weightOf l.1 s := Int.mul_le_mul_of_nonneg_right (h l.2) (by omega)
      _ ≤ x * 1024 := Int.mul_le_mul_of_nonpos_left hx hwl
  have hsum := List.sum_le_card_nsmul _ _ hlane
  rw [List.length_map, nsmul_eq_mul] at hsum
  exact hsum.trans_eq (by norm_num [mixerInputs]; omega)

end Plausibility

theorem le_mixLogit {s : State} {d : Int} (hd : d ≤ 2047) (h : 65536 * d ≤ mixDot s) : d ≤ mixLogit s := by
  unfold mixLogit clamp asr
  omega

theorem mixLogit_le {s : State} {d : Int} (hd : -2047 ≤ d) (h : mixDot s < 65536 * (d + 1)) : mixLogit s ≤ d := by
  unfold mixLogit clamp asr
  omega

/-- A MIX session in which every counter of the first context has `p_i = 2049` and every weight of its set is W_MIN. -/
def faintlyFavouring : State :=
  let c : Counter := { p := 32784#16, n := 0#5 }
  let w : BitVec 20 := 1024#20
  { State.reset with
    sstate := .coding
    pmode := 2#2
    mem := { base := .init, t0 := [(1, c)], t1 := [(1, c)], t2 := [(4096, c)], t3 := [(4096, c)], t4 := [(4096, c)],
             w := [(0, w), (1, w), (2, w), (3, w), (4, w)], a := [] } }

/-- Settles O40: the logit of the weakest component bounds the mix through the least weight. -/
theorem mixFollowsItsComponents : Obligations.MixFollowsItsComponents := by
  refine ⟨fun s hw => ⟨fun hp => ?_, fun hp => ?_, fun hp => ?_⟩, faintlyFavouring, by decide, by intro t; cases t <;> decide,
    by decide, by decide⟩
  · have hin : ∀ t, 13 ≤ mixInput t s := fun t => le_of_eq_of_le (by decide) (stretch_mono (hp t))
    have hdot : 66560 ≤ mixDot s := le_mixDot hw (by omega) hin
    have hlogit : 1 ≤ mixLogit s := le_mixLogit (by omega) (by omega)
    have hprob : 2051 ≤ mixProb s := le_of_eq_of_le (by decide) (squash_mono hlogit)
    exact ⟨hin, hdot, hlogit, hprob, lt_mixPredict (by omega)⟩
  · have hin : ∀ t, 285 ≤ mixInput t s := fun t => le_of_eq_of_le (by decide) (stretch_mono (hp t))
    have hdot := le_mixDot hw (by omega) hin
    have hlogit : 22 ≤ mixLogit s := le_mixLogit (by omega) (by omega)
    exact ⟨hin, hlogit, le_of_eq_of_le (by decide) (squash_mono hlogit)⟩
  · have hin : ∀ t, mixInput t s ≤ -1 := fun t => (stretch_mono (hp t)).trans_eq (by decide)
    have hdot : mixDot s ≤ -5120 := mixDot_le hw (by omega) hin
    have hlogit : mixLogit s ≤ -1 := mixLogit_le (by omega) (by omega)
    have hprob : mixProb s ≤ 2043 := (squash_mono hlogit).trans_eq (by decide)
    exact ⟨hin, hdot, hlogit, hprob, mixPredict_lt (by omega)⟩

end Sys2Proof.Machine
end

section
/-! PROOFS. The MIX update: what it writes in each table, and what it leaves (42_mixer_apm.md R129, R130, R136, R137, R139). -/

namespace Sys2Proof.Machine

/-! ## Training lane by lane -/

section Lanes

variable {Tables Entry : Type} {ok : Tables → Prop} {read : Tables → Entry}
  {write : Tables → Nat × TableId → Tables} {ls : List (Nat × TableId)} {m : Tables}

/-- Lanes that leave an entry alone, one after the other, leave it alone together. -/
theorem read_foldl_of_frame (hok : ∀ m, ok m → ∀ l ∈ ls, ok (write m l))
    (hframe : ∀ m, ok m → ∀ l ∈ ls, read (write m l) = read m)
    (hm : ok m) : ok (ls.foldl write m) ∧ read (ls.foldl write m) = read m :=
  List.foldlRecOn (motive := fun t => ok t ∧ read t = read m) ls write ⟨hm, rfl⟩
    fun t ht l hl => ⟨hok t ht.1 l hl, (hframe t ht.1 l hl).trans ht.2⟩

/-- An entry that one lane moves by `f` and no other lane writes is moved by `f` once (R141). -/
theorem read_foldl_of_lane {l : Nat × TableId} {f : Entry → Entry} (hnodup : ls.Nodup) (hl : l ∈ ls)
    (hok : ∀ m, ok m → ∀ k ∈ ls, ok (write m k)) (hframe : ∀ m, ok m → ∀ k ∈ ls, k ≠ l → read (write m k) = read m)
    (hlane : ∀ m, ok m → read (write m l) = f (read m)) (hm : ok m) : read (ls.foldl write m) = f (read m) := by
  induction ls generalizing m with
  | nil => cases hl
  | cons k ks ih =>
    obtain ⟨hfresh, hnodup⟩ := List.nodup_cons.1 hnodup
    have hok' : ∀ m, ok m → ∀ j ∈ ks, ok (write m j) := fun t ht j hj => hok t ht j (List.mem_cons_of_mem k hj)
    have hframe' : ∀ m, ok m → ∀ j ∈ ks, j ≠ l → read (write m j) = read m :=
      fun t ht j hj => hframe t ht j (List.mem_cons_of_mem k hj)
    have hfirst : ok (write m k) := hok m hm k List.mem_cons_self
    rw [List.foldl_cons]
    rcases List.mem_cons.1 hl with rfl | hl
    · have hrest := read_foldl_of_frame hok' (fun t ht j hj => hframe' t ht j hj (ne_of_mem_of_not_mem hj hfresh)) hfirst
      rw [hrest.2, hlane m hm]
    · have hne : k ≠ l := fun e => hfresh (e ▸ hl)
      rw [ih hnodup hl hok' hframe' hfirst, hframe m hm k List.mem_cons_self hne]

end Lanes

theorem mixerInputs_nodup : mixerInputs.Nodup := by decide

/-- Every counter table is the table of one lane (R124). -/
theorem exists_lane (t : TableId) : ∃ i, (i, t) ∈ mixerInputs := by
  cases t with
  | t0 => exact ⟨0, by decide⟩
  | t1 => exact ⟨1, by decide⟩
  | t2 => exact ⟨2, by decide⟩
  | t3 => exact ⟨3, by decide⟩
  | t4 => exact ⟨4, by decide⟩

/-- Neither the table nor the number of a lane is another lane's (R124). -/
theorem lanes_apart {k l : Nat × TableId} (hk : k ∈ mixerInputs) (hl : l ∈ mixerInputs) (h : k ≠ l) :
    l.1 ≠ k.1 ∧ l.2 ≠ k.2 :=
  (by decide : ∀ k ∈ mixerInputs, ∀ l ∈ mixerInputs, k ≠ l → l.1 ≠ k.1 ∧ l.2 ≠ k.2) k hk l hl h

/-! ### Counters -/

theorem Memory.wf_trainCounter {m : Memory} (h : m.wf) (t : TableId) (y : Bool) (s : State) : (trainCounter t y s m).wf :=
  m.wf_writeCounter h t _ _ (ctxIndex_lt_tableSize t s)

theorem Memory.wf_trainCounters {m : Memory} (h : m.wf) (y : Bool) (s : State) : (trainCounters y s m).wf :=
  List.foldlRecOn (motive := Memory.wf) mixerInputs _ h fun _ hm l _ => Memory.wf_trainCounter hm l.2 y s

/-- The MIX update trains in each counter table the entry of the context and no other (R104, R139). -/
theorem Memory.readCounter_trainCounters {m : Memory} (h : m.wf) (t : TableId) (y : Bool) (s : State) (i : Nat) :
    (trainCounters y s m).readCounter t i =
      if i = ctxIndex t s then ctrUpdate (m.readCounter t i) y else m.readCounter t i := by
  obtain ⟨n, hl⟩ := exists_lane t
  refine read_foldl_of_lane (ok := Memory.wf) (read := fun m => m.readCounter t i) (l := (n, t))
    (f := fun v => if i = ctxIndex t s then ctrUpdate v y else v) mixerInputs_nodup hl
    (fun m hm k _ => Memory.wf_trainCounter hm k.2 y s) (fun m hm k hk hne => ?_) (fun m hm => ?_) h
  · have hother : t ≠ k.2 := (lanes_apart hk hl hne).2
    rw [Memory.readCounter_trainCounter hm, if_neg (fun e => hother e.1)]
  · rw [Memory.readCounter_trainCounter hm]
    exact if_ctx_congr (and_iff_right rfl) (fun hi => by rw [hi]) (fun _ => rfl)

@[simp] theorem Memory.readWeight_trainCounters (m : Memory) (y : Bool) (s : State) (k i : Nat) :
    (trainCounters y s m).readWeight k i = m.readWeight k i := by
  simp [trainCounters, mixerInputs]

@[simp] theorem Memory.readApm_trainCounters (m : Memory) (y : Bool) (s : State) (r j : Nat) :
    (trainCounters y s m).readApm r j = m.readApm r j := by
  simp [trainCounters, mixerInputs]

/-! ### Weights -/

/-- What the MIX update makes of the weight of lane `l` (R130). -/
def movedWeight (y : Bool) (s : State) (l : Nat × TableId) (w : BitVec 20) : BitVec 20 :=
  BitVec.ofInt 20 (weightUpdate w.toInt (mixInput l.2 s) (mixErr y s))

/-- `trainWeights` writes the moved weight of each lane in turn. -/
def trainWeight (y : Bool) (s : State) (m : Memory) (l : Nat × TableId) : Memory :=
  m.writeWeight (weightSet s) l.1 (movedWeight y s l (m.readWeight (weightSet s) l.1))

theorem trainWeights_eq_foldl (y : Bool) (s : State) (m : Memory) : trainWeights y s m = mixerInputs.foldl (trainWeight y s) m := rfl

theorem Memory.wf_trainWeight {m : Memory} (h : m.wf) {l : Nat × TableId} (hl : l ∈ mixerInputs) (y : Bool) (s : State) :
    (trainWeight y s m l).wf := m.wf_writeWeight h _ _ _ (weightSet_lt s) (lane_lt hl)

theorem Memory.wf_trainWeights {m : Memory} (h : m.wf) (y : Bool) (s : State) : (trainWeights y s m).wf :=
  List.foldlRecOn (motive := Memory.wf) mixerInputs _ h fun _ hm _ hl => Memory.wf_trainWeight hm hl y s

/-- Each weight of the selected set is moved once, by its own lane (R130, R141). -/
theorem Memory.readWeight_trainWeights {m : Memory} (h : m.wf) {l : Nat × TableId} (hl : l ∈ mixerInputs) (y : Bool) (s : State) :
    (trainWeights y s m).readWeight (weightSet s) l.1 = movedWeight y s l (m.readWeight (weightSet s) l.1) := by
  rw [trainWeights_eq_foldl]
  refine read_foldl_of_lane (ok := Memory.wf) (read := fun m => m.readWeight (weightSet s) l.1) mixerInputs_nodup hl
    (fun m hm k hk => Memory.wf_trainWeight hm hk y s) (fun m hm k hk hne => ?_) (fun m hm => ?_) h
  · have hother : l.1 ≠ k.1 := (lanes_apart hk hl hne).1
    rw [trainWeight, Memory.readWeight_writeWeight hm _ _ _ _ (lane_lt hk) (lane_lt hl), if_neg (fun e => hother e.2)]
  · rw [trainWeight, Memory.readWeight_writeWeight hm _ _ _ _ (lane_lt hl) (lane_lt hl), if_pos ⟨rfl, rfl⟩]

/-- The sets that were not selected keep their weights (R130). -/
theorem Memory.readWeight_trainWeights_of_ne {m : Memory} (h : m.wf) (y : Bool) {s : State} {k i : Nat} (hk : k ≠ weightSet s)
    (hi : i < 5) : (trainWeights y s m).readWeight k i = m.readWeight k i := by
  rw [trainWeights_eq_foldl]
  refine (read_foldl_of_frame (ok := Memory.wf) (read := fun m => m.readWeight k i)
    (fun m hm l hl => Memory.wf_trainWeight hm hl y s) (fun m hm l hl => ?_) h).2
  rw [trainWeight, Memory.readWeight_writeWeight hm _ _ _ _ (lane_lt hl) hi, if_neg (fun e => hk e.1)]

@[simp] theorem Memory.readCounter_trainWeights (m : Memory) (y : Bool) (s : State) (t : TableId) (i : Nat) :
    (trainWeights y s m).readCounter t i = m.readCounter t i := by
  simp [trainWeights, mixerInputs]

@[simp] theorem Memory.readApm_trainWeights (m : Memory) (y : Bool) (s : State) (r j : Nat) :
    (trainWeights y s m).readApm r j = m.readApm r j := by
  simp [trainWeights, mixerInputs]

/-! ### The APM -/

theorem trainApm_of_apmEn {s : State} (h : s.apmEn = true) (y : Bool) (m : Memory) :
    trainApm y s m = m.writeApm s.c0.toNat (apmBucket s) (apmUpdate (m.readApm s.c0.toNat (apmBucket s)) y) := if_pos h

/-- Without the APM its table is not written (R139). -/
theorem trainApm_of_not_apmEn {s : State} (h : s.apmEn = false) (y : Bool) (m : Memory) : trainApm y s m = m := by
  simp [trainApm, h]

@[simp] theorem Memory.readCounter_trainApm (m : Memory) (y : Bool) (s : State) (t : TableId) (i : Nat) :
    (trainApm y s m).readCounter t i = m.readCounter t i := by
  unfold trainApm
  split
  · exact m.readCounter_writeApm t i _ _ _
  · rfl

@[simp] theorem Memory.readWeight_trainApm (m : Memory) (y : Bool) (s : State) (k i : Nat) :
    (trainApm y s m).readWeight k i = m.readWeight k i := by
  unfold trainApm
  split
  · exact m.readWeight_writeApm k i _ _ _
  · rfl

/-- The nearer bucket of the row of the context is trained and no other bucket (R136, R137). -/
theorem Memory.readApm_trainApm {m : Memory} (h : m.wf) {s : State} (ha : s.apmEn = true) (y : Bool) (r : Nat)
    {j : Nat} (hj : j < 33) :
    (trainApm y s m).readApm r j =
      if r = s.c0.toNat ∧ j = apmBucket s then apmUpdate (m.readApm r j) y else m.readApm r j := by
  rw [trainApm_of_apmEn ha, Memory.readApm_writeApm h _ _ _ _ (apmBucket_lt s) hj]
  exact if_ctx_congr Iff.rfl (fun ⟨hr, hb⟩ => by rw [hr, hb]) (fun _ => rfl)

/-- The new APM entry is the exact value of R137's formula. -/
theorem toNat_apmUpdate (e : BitVec 16) (y : Bool) : ((apmUpdate e y).toNat : Int) = e.toNat + asr (bitTarget y - e.toNat) 7 :=
  toNat_moved e y (by omega)

/-! ## The MIX update -/

@[simp] theorem mixUpdate_mem (y : Bool) (s : State) :
    (mixUpdate y s).mem = trainApm y s (trainWeights y s (trainCounters y s s.mem)) := by
  rw [mixUpdate, ctxUpdate_mem]

theorem mixUpdate_eq (y : Bool) (s : State) : mixUpdate y s = { ctxUpdate y s with mem := (mixUpdate y s).mem } := by
  rw [mixUpdate_mem]
  exact ctxUpdate_with_mem y s _

theorem train_of_mix {s : State} (h : s.pmode = 2#2) (y : Bool) : train y s = mixUpdate y s := if_neg (by rw [h]; decide)

/-- Settles O33: the five counters stand in five tables, and neither the weights nor the APM share one with them. -/
theorem mixUpdateTrainsOneCounterPerTable : Obligations.MixUpdateTrainsOneCounterPerTable := by
  refine ⟨fun s y t hwf => ?_, fun s y => ⟨mixUpdate_eq y s, fun h => train_of_mix h y⟩⟩
  have hread : ∀ i, (mixUpdate y s).mem.readCounter t i =
      if i = ctxIndex t s then ctrUpdate (s.mem.readCounter t i) y else s.mem.readCounter t i := fun i => by
    rw [mixUpdate_mem, Memory.readCounter_trainApm, Memory.readCounter_trainWeights, Memory.readCounter_trainCounters hwf]
  exact ⟨(hread _).trans (if_pos rfl), fun i hi => (hread i).trans (if_neg hi)⟩

/-- Settles O34: every weight has its own lane, and the clamp keeps the new one in its 20 bits. -/
theorem mixUpdateMovesTheWeightsOfItsSet : Obligations.MixUpdateMovesTheWeightsOfItsSet := by
  intro s y hwf
  have hwf' : (trainCounters y s s.mem).wf := Memory.wf_trainCounters hwf y s
  simp only [mixUpdate_mem, Memory.readWeight_trainApm]
  refine ⟨fun l hl => ?_, fun k i hk hi => ?_⟩
  · rw [Memory.readWeight_trainWeights hwf' hl, Memory.readWeight_trainCounters, movedWeight, toInt_weightUpdate]
    rfl
  · rw [Memory.readWeight_trainWeights_of_ne hwf' y hk hi, Memory.readWeight_trainCounters]

/-- With the APM the MIX update trains the nearer bucket and no other (R136, R139). -/
theorem readApm_mixUpdate {s : State} (h : s.mem.wf) (ha : s.apmEn = true) (y : Bool) (r : Nat) {j : Nat} (hj : j < 33) :
    (mixUpdate y s).mem.readApm r j =
      if r = s.c0.toNat ∧ j = apmBucket s then apmUpdate (s.mem.readApm r j) y else s.mem.readApm r j := by
  have hwf : (trainWeights y s (trainCounters y s s.mem)).wf := Memory.wf_trainWeights (Memory.wf_trainCounters h y s) y s
  rw [mixUpdate_mem, Memory.readApm_trainApm hwf ha y r hj, Memory.readApm_trainWeights, Memory.readApm_trainCounters]

/-- Settles O35: one bucket is written, and the exact move stays in its field. -/
theorem mixUpdateTrainsOneApmBucket : Obligations.MixUpdateTrainsOneApmBucket := by
  intro s y hwf
  refine ⟨fun ha => ⟨?_, fun r j hj hne => ?_⟩, fun ha r j => ?_⟩
  · have hread : (mixUpdate y s).mem.readApm s.c0.toNat (apmBucket s) = apmUpdate (s.mem.readApm s.c0.toNat (apmBucket s)) y := by
      rw [readApm_mixUpdate hwf ha y _ (apmBucket_lt s), if_pos ⟨rfl, rfl⟩]
    exact (congrArg (fun e : BitVec 16 => (e.toNat : Int)) hread).trans (toNat_apmUpdate _ y)
  · exact (readApm_mixUpdate hwf ha y r hj).trans (if_neg hne)
  · rw [mixUpdate_mem, trainApm_of_not_apmEn ha, Memory.readApm_trainWeights, Memory.readApm_trainCounters]

end Sys2Proof.Machine
end

section
/-! PROOFS. Where a command stops: every loop of the pseudocode ends at its end, at a raised fault, or at a hold whose FIFO is blocked,
and a blocked hold is a fixed point of `step` (43_commands.md R150, R167; 70_reset_and_hazards.md R233). -/

namespace Sys2Proof.Machine

variable {s t : State} {w : Word}

/-! ## The step of a word, and of no word -/

/-- Settles O5: `fetch` finds the command, and `step` executes it. -/
theorem stepRunsTheDecodedCommand : Obligations.StepRunsTheDecodedCommand := by
  intro s w rest i hc hq hdec
  simp [step, fetch, hc, hq, hdec]

/-- Settles O6: each of the four things a step can be answers a next state. -/
theorem everyStepAnswersANextState : Obligations.EveryStepAnswersANextState := by
  intro s
  rcases step_cases s with ⟨c, -, h⟩ | ⟨-, -, h⟩ | ⟨w, rest, i, -, -, -, h⟩ | ⟨w, rest, e, -, -, -, h⟩
  · exact ⟨_, h⟩
  · exact ⟨_, h⟩
  · exact ⟨_, h.trans (exec_eq i _)⟩
  · exact ⟨_, h⟩

theorem step_of_inProgress {c : InProgress} (hc : s.cip = some c) : step s = .next (resume c s) := by
  simp [step, fetch, hc]

/-! ## The FIFO of a hold -/

/-- The FIFO through which a renormalisation moves its bytes (40_range_coder.md R84). -/
def Dir.waits : Dir → Waits
  | .encode => .onOutput
  | .decode => .onInput

/-- The FIFO a hold waits on in a session of side `d`; inside a renormalisation the side decides. -/
def HoldPoint.waitsIn (d : Dir) (pos : HoldPoint) : Waits := if pos.inRenorm then Dir.waits d else pos.waits

/-- A sound hold belongs to the side of its session, so it waits on the FIFO of R167. -/
theorem HeldCommandOk.waitsIn_eq {pos : HoldPoint} (h : HeldCommandOk s w pos) : pos.waitsIn s.dir = pos.waits := by
  cases pos <;> simp_all [HeldCommandOk, HoldPoint.waitsIn, HoldPoint.inRenorm, HoldPoint.waits, Dir.waits]

/-- A hold inside a renormalisation is one of an open session. -/
theorem HeldCommandOk.coding_of_inRenorm {pos : HoldPoint} (h : HeldCommandOk s w pos) (hpos : pos.inRenorm = true) :
    s.sstate = .coding := by
  cases pos <;> simp_all [HeldCommandOk, HoldPoint.inRenorm]

/-- A renormalisation holds at a settled byte that it cannot move. -/
theorem renorm_held_iff : renorm renormFuel s = .held t ↔ RenormRounds s t ∧ topSettled t ∧ Blocked (Dir.waits t.dir) t := by
  constructor
  · intro h
    obtain ⟨u, hr, he⟩ := renorm_cases s
    rw [h] at he
    cases he with
    | full hs hd hp => exact ⟨hr, hs, by rw [hd]; exact outPush_eq_none hp⟩
    | empty hs hd hp => exact ⟨hr, hs, by rw [hd]; exact inPop_empty hp⟩
  · rintro ⟨hr, hs, hb⟩
    rw [hr.renorm_eq]
    cases hd : t.dir <;> rw [hd] at hb
    case encode => exact RenormEnd.renorm_eq (.full hs hd (outPush_of_full _ hb))
    case decode => exact RenormEnd.renorm_eq (.empty hs hd (inPop_of_nil hb))

/-! ## Pseudocode that stops -/

/-- Where pseudocode stops at a hold, the FIFO of the hold is blocked. -/
def StopsBlocked : Result → Prop
  | .done _ _ => True
  | .held pos s => Blocked (pos.waitsIn s.dir) s
  | .raised _ _ => True

section Pseudocode

variable {pos : HoldPoint} {next : State → Result}

theorem renormThen_stopsBlocked (hpos : pos.inRenorm = true) (hn : ∀ t, StopsBlocked (next t)) (s : State) :
    StopsBlocked (renormThen pos next s) := by
  unfold renormThen
  cases hr : renorm renormFuel s with
  | settled t => exact hn t
  | held t =>
    obtain ⟨-, -, hb⟩ := renorm_held_iff.1 hr
    simpa only [StopsBlocked, HoldPoint.waitsIn, if_pos hpos] using hb
  | raised f t => trivial

theorem rcEncode_stopsBlocked (hpos : pos.inRenorm = true) (hn : ∀ t, StopsBlocked (next t)) (y : Bool) (p : Nat) (s : State) :
    StopsBlocked (rcEncode y p pos next s) := by
  unfold rcEncode
  split
  · exact renormThen_stopsBlocked hpos hn _
  · trivial

/-- A decoded bit is coded as the bit CODE selects. -/
theorem rcDecode_stopsBlocked {pos : Bool → HoldPoint} {next : Bool → State → Result} (hpos : ∀ y, (pos y).inRenorm = true)
    (hn : ∀ y t, StopsBlocked (next y t)) (p : Nat) (s : State) : StopsBlocked (rcDecode p pos next s) :=
  rcEncode_stopsBlocked (hpos _) (hn _) (decodedBit p s) p s

theorem encPredBit_stopsBlocked (hpos : pos.inRenorm = true) (hn : ∀ t, StopsBlocked (next t)) (y : Bool) (s : State) :
    StopsBlocked (encPredBit y pos next s) :=
  rcEncode_stopsBlocked hpos (fun _ => hn _) y _ s

theorem decPredBit_stopsBlocked {pos : Bool → HoldPoint} {next : Bool → State → Result} (hpos : ∀ y, (pos y).inRenorm = true)
    (hn : ∀ y t, StopsBlocked (next y t)) (s : State) : StopsBlocked (decPredBit pos next s) :=
  rcDecode_stopsBlocked hpos (fun y _ => hn y _) _ s

/-- A predicted bit that goes on inside its renormalisation. -/
theorem resumePredBit_stopsBlocked (hpos : pos.inRenorm = true) (hn : ∀ t, StopsBlocked (next t)) (y : Bool) (s : State) :
    StopsBlocked (renormThen pos (fun t => next (finishPredBit y t)) s) :=
  renormThen_stopsBlocked hpos (fun _ => hn _) s

theorem encByteFrom_stopsBlocked (v : Byte) (k : Nat) (s : State) : StopsBlocked (encByteFrom v k s) := by
  induction k generalizing s with
  | zero => trivial
  | succ k ih => exact encPredBit_stopsBlocked rfl ih _ s

theorem decByteFrom_stopsBlocked (k : Nat) (acc : Byte) (s : State) : StopsBlocked (decByteFrom k acc s) := by
  induction k generalizing acc s with
  | zero => trivial
  | succ k ih => exact decPredBit_stopsBlocked (fun _ => rfl) (fun y => ih (pushBit acc y)) s

theorem primeFrom_stopsBlocked (left : Nat) (s : State) : StopsBlocked (primeFrom left s) := by
  induction left generalizing s with
  | zero => trivial
  | succ left ih =>
    unfold primeFrom
    cases hp : inPop s with
    | empty => exact inPop_empty hp
    | item x t =>
      cases x with
      | byte b => exact ih _
      | endMark => trivial

theorem flushEncFrom_stopsBlocked (left : Nat) (s : State) : StopsBlocked (flushEncFrom left s) := by
  induction left generalizing s with
  | zero => trivial
  | succ left ih =>
    unfold flushEncFrom
    cases hp : outPush (s.low.extractLsb' (8 * left) 8) s with
    | none => exact outPush_eq_none hp
    | some t => exact ih t

theorem endItem_stopsBlocked (s : State) : StopsBlocked (endItem s) := by
  unfold endItem
  cases hp : inPop s with
  | empty => exact inPop_empty hp
  | item x t => cases x <;> trivial

theorem flushSem_stopsBlocked (s : State) : StopsBlocked (flushSem s) := by
  unfold flushSem endDec
  split
  · exact flushEncFrom_stopsBlocked 4 s
  · split
    · exact endItem_stopsBlocked s
    · trivial

/-- The pseudocode of every command, from every state, stops only at a blocked FIFO. -/
theorem semOf_stopsBlocked (i : Instr) (s : State) : StopsBlocked (semOf i s) := by
  cases i with
  | nop => trivial
  | init d m a =>
    cases d with
    | encode => trivial
    | decode => exact primeFrom_stopsBlocked 4 _
  | encBit b => exact encPredBit_stopsBlocked (pos := .encBit) (next := encBitDone) rfl (fun _ => trivial) b s
  | encByte v => exact encByteFrom_stopsBlocked v 8 s
  | decBit => exact decPredBit_stopsBlocked (pos := .decBit) (next := decBitDone) (fun _ => rfl) (fun _ _ => trivial) s
  | decByte => exact decByteFrom_stopsBlocked 8 _ s
  | encRaw b p => exact rcEncode_stopsBlocked (pos := .encRaw) (next := encRawDone) rfl (fun _ => trivial) b _ s
  | decRaw p => exact rcDecode_stopsBlocked (pos := .decRaw) (next := decRawDone) (fun _ => rfl) (fun _ _ => trivial) _ s
  | flush => exact flushSem_stopsBlocked s
  | getp => trivial
  | rdreg r => trivial

end Pseudocode

/-! ## Steps that stop -/

/-- A command still in progress waits on a blocked FIFO. -/
def WaitsBlocked (s : State) : Prop := ∀ c, s.cip = some c → Blocked (c.pos.waitsIn s.dir) s

/-- The record of the command in progress is no FIFO. -/
theorem Blocked.record {x : Waits} (h : Blocked x s) (c : Option InProgress) : Blocked x { s with cip := c } := by
  cases x <;> exact h

theorem respond_waitsBlocked (w : Word) (st : BitVec 8) (data : Word) (s : State) : WaitsBlocked (respond w st data s) := by
  intro c hc
  rcases respond_cases w st data s with ⟨-, h⟩ | ⟨hfull, h⟩ <;> rw [h] at hc ⊢ <;> cases hc
  exact hfull

theorem settle_waitsBlocked {r : Result} (h : StopsBlocked r) : WaitsBlocked (settle w r) := by
  cases r with
  | done data s => exact respond_waitsBlocked _ _ _ _
  | held pos s =>
    intro c hc
    cases hc
    exact h.record _
  | raised f s => exact respond_waitsBlocked _ _ _ _

theorem execute_waitsBlocked (i : Instr) (s : State) : WaitsBlocked (execute i (semOf i) s) := by
  rcases execute_cases i (semOf i) s with ⟨-, h⟩ | ⟨f, -, h⟩ | ⟨-, h⟩ <;> rw [h]
  · exact respond_waitsBlocked _ _ _ _
  · exact respond_waitsBlocked _ _ _ _
  · exact settle_waitsBlocked (semOf_stopsBlocked i s)

theorem executeIllegal_waitsBlocked (w : Word) (e : DecodeError) (s : State) : WaitsBlocked (executeIllegal w e s) := by
  unfold executeIllegal
  cases checkIllegal w e s <;> exact respond_waitsBlocked _ _ _ _

theorem resume_waitsBlocked (c : InProgress) (s : State) : WaitsBlocked (resume c s) := by
  obtain ⟨w, pos⟩ := c
  cases pos with
  | prime left => exact settle_waitsBlocked (primeFrom_stopsBlocked left s)
  | encBit => exact settle_waitsBlocked (resumePredBit_stopsBlocked (pos := .encBit) (next := encBitDone) rfl (fun _ => trivial) _ s)
  | encByte k => exact settle_waitsBlocked (resumePredBit_stopsBlocked rfl (encByteFrom_stopsBlocked _ k) _ s)
  | decBit y =>
    exact settle_waitsBlocked (resumePredBit_stopsBlocked (pos := .decBit y) (next := decBitDone y) rfl (fun _ => trivial) y s)
  | decByte k acc y => exact settle_waitsBlocked (resumePredBit_stopsBlocked rfl (decByteFrom_stopsBlocked k _) y s)
  | encRaw => exact settle_waitsBlocked (renormThen_stopsBlocked (pos := .encRaw) (next := encRawDone) rfl (fun _ => trivial) s)
  | decRaw y => exact settle_waitsBlocked (renormThen_stopsBlocked (pos := .decRaw y) (next := decRawDone y) rfl (fun _ => trivial) s)
  | flushEnc left => exact settle_waitsBlocked (flushEncFrom_stopsBlocked left s)
  | flushDec => exact settle_waitsBlocked (endItem_stopsBlocked s)
  | respond st data => exact respond_waitsBlocked w st data s

theorem step_waitsBlocked (hst : step s = .next t) : WaitsBlocked t := by
  rcases step_cases s with ⟨c, -, h⟩ | ⟨hc, -, h⟩ | ⟨w, rest, i, -, -, -, h⟩ | ⟨w, rest, e, -, -, -, h⟩
  · cases hst.symm.trans h
    exact resume_waitsBlocked c s
  · cases hst.symm.trans h
    intro c hc'
    cases hc.symm.trans hc'
  · rw [exec_eq] at h
    cases hst.symm.trans h
    exact execute_waitsBlocked i _
  · cases hst.symm.trans h
    exact executeIllegal_waitsBlocked w e _

/-- Settles O8: whatever a step runs stops only at a blocked FIFO, and in the sound state it leaves that is the FIFO of R167. -/
theorem commandsStopOnlyAtABlockedFifo : Obligations.CommandsStopOnlyAtABlockedFifo := by
  intro s t c h hst hc
  rw [← ((h.step hst).heldAt hc).command.waitsIn_eq]
  exact step_waitsBlocked hst c hc

/-! ## A blocked hold -/

/-- A hold recorded where it already stands is the state itself. -/
theorem settle_held_of_cip {pos : HoldPoint} (hc : s.cip = some { word := w, pos := pos }) : settle w (.held pos s) = s := by
  rw [settle, ← hc]

/-- In a sound state a hold inside a renormalisation stands at a settled byte, so a blocked one holds there again. -/
theorem renormThen_of_blocked {pos : HoldPoint} (h : HeldAt w pos s) (hpos : pos.inRenorm = true)
    (hb : Blocked pos.waits s) (next : State → Result) : renormThen pos next s = .held pos s := by
  have hi := h.interval (by simp [h.command.coding_of_inRenorm hpos])
  rw [if_pos hpos] at hi
  obtain ⟨htop, -⟩ := hi
  rw [← h.command.waitsIn_eq, HoldPoint.waitsIn, if_pos hpos] at hb
  rw [renormThen, renorm_held_iff.2 ⟨.refl s, htop, hb⟩]

/-- Going on with a blocked hold changes nothing, at each hold point. -/
theorem resume_of_blocked {c : InProgress} (h : HeldAt c.word c.pos s) (hc : s.cip = some c) (hb : Blocked c.pos.waits s) :
    resume c s = s := by
  obtain ⟨w, pos⟩ := c
  have hcmd := h.command
  have inRenorm (hpos : pos.inRenorm = true) (next : State → Result) : settle w (renormThen pos next s) = s := by
    rw [renormThen_of_blocked h hpos hb next, settle_held_of_cip hc]
  cases pos with
  | prime left =>
    obtain ⟨-, -, -, hleft, -⟩ := hcmd
    obtain ⟨k, rfl⟩ := Nat.exists_eq_add_of_le' hleft
    show settle w (primeFrom (k + 1) s) = s
    rw [primeFrom, inPop_of_nil hb]
    exact settle_held_of_cip hc
  | encBit => exact inRenorm rfl _
  | encByte k => exact inRenorm rfl _
  | decBit y => exact inRenorm rfl _
  | decByte k acc y => exact inRenorm rfl _
  | encRaw => exact inRenorm rfl _
  | decRaw y => exact inRenorm rfl _
  | flushEnc left =>
    obtain ⟨-, -, -, hleft, -⟩ := hcmd
    obtain ⟨k, rfl⟩ := Nat.exists_eq_add_of_le' hleft
    show settle w (flushEncFrom (k + 1) s) = s
    rw [flushEncFrom, outPush_of_full _ hb]
    exact settle_held_of_cip hc
  | flushDec =>
    show settle w (endItem s) = s
    rw [endItem, inPop_of_nil hb]
    exact settle_held_of_cip hc
  | respond st data =>
    show respond w st data s = s
    rw [respond, if_neg (Nat.not_lt.2 hb), ← hc]

/-- Settles O7: going on with a blocked hold changes nothing, and an idle core has nothing to go on with. -/
theorem blockedStepLeavesTheState : Obligations.BlockedStepLeavesTheState := by
  refine ⟨fun s c h hc hb => ?_, fun s hc hq => ?_⟩
  · rw [step_of_inProgress hc, resume_of_blocked (h.heldAt hc) hc hb]
  · simp [step, fetch, hc, hq]

end Sys2Proof.Machine
end

section
/-! PROOFS. One coded bit as a command: ENC_BIT, ENC_RAW, DEC_BIT and DEC_RAW subdivide, renormalise and finish the bit, or hold or fault
where the renormalisation does (43_commands.md R153-R155, R157, R159, R160; 40_range_coder.md R85, R86, R92). -/

namespace Sys2Proof.Machine

open HostActs

variable {s t u : State} {w : Word} {b : CodedBit} {d : Dir} {p : Nat} {y : Bool}

/-! ## What a coded bit writes -/

/-- From `s` to `t` the coder alone has changed, and of the streams only that of the session's side. -/
structure OneSided (s t : State) : Prop extends SameButCoder s t where
  encode : s.dir = .encode → t.code = s.code ∧ t.inq = s.inq ∧ t.bytesIn = s.bytesIn
  decode : s.dir = .decode → t.outq = s.outq ∧ t.bytesOut = s.bytesOut

theorem OneSided.refl (s : State) : OneSided s s := ⟨.refl s, fun _ => ⟨rfl, rfl, rfl⟩, fun _ => ⟨rfl, rfl⟩⟩

theorem OneSided.trans (h : OneSided s t) (h' : OneSided t u) : OneSided s u where
  toSameButCoder := h.toSameButCoder.trans h'.toSameButCoder
  encode := fun hd => by
    obtain ⟨hc, hi, hn⟩ := h.encode hd
    obtain ⟨hc', hi', hn'⟩ := h'.encode (h.dir.trans hd)
    exact ⟨hc'.trans hc, hi'.trans hi, hn'.trans hn⟩
  decode := fun hd => by
    obtain ⟨ho, hn⟩ := h.decode hd
    obtain ⟨ho', hn'⟩ := h'.decode (h.dir.trans hd)
    exact ⟨ho'.trans ho, hn'.trans hn⟩

theorem narrow_oneSided (y : Bool) (p : Nat) (s : State) : OneSided s (narrow y p s) :=
  ⟨narrow_same y p s, fun _ => by simp, fun _ => by simp⟩

theorem RenormRound.oneSided (h : RenormRound s t) : OneSided s t := by
  refine ⟨h.same, fun hd => ?_, fun hd => ?_⟩
  · cases h with
    | emit hs hd' hp =>
      obtain ⟨-, rfl⟩ := outPush_eq_some hp
      exact ⟨rfl, rfl, rfl⟩
    | take hs hd' hp => cases hd.symm.trans hd'
    | truncate hs hw hc => exact ⟨rfl, rfl, rfl⟩
  · cases h with
    | emit hs hd' hp => cases hd.symm.trans hd'
    | take hs hd' hp =>
      obtain ⟨rest, -, rfl⟩ := inPop_byte hp
      exact ⟨rfl, rfl⟩
    | truncate hs hw hc => exact ⟨rfl, rfl⟩

theorem RenormRounds.oneSided (h : RenormRounds s t) : OneSided s t := by
  induction h with
  | refl s => exact .refl s
  | head hr _ ih => exact hr.oneSided.trans ih

/-- A coded bit whose renormalisation settles. -/
theorem oneSided_of_settled (h : renorm renormFuel (narrow y p s) = .settled u) : OneSided s u :=
  (narrow_oneSided y p s).trans (renorm_settled_iff.1 h).1.oneSided

/-- Training writes the tables and the context alone (41_predictors.md R108, R110; 42_mixer_apm.md R139). -/
theorem train_frame (y : Bool) (s : State) :
    train y s = { s with mem := (train y s).mem, c0 := (train y s).c0, c4 := (train y s).c4 } := by
  rw [train_eq]
  unfold ctxUpdate
  dsimp only
  split <;> rfl

theorem SameButCoder.samePredictor (h : SameButCoder s t) : SamePredictor s t := ⟨h.pmode, h.apmEn, h.c0, h.c4, h.mem⟩

/-- What training writes does not depend on the coder. -/
theorem SamePredictor.train (h : SamePredictor s t) (y : Bool) : SamePredictor (train y s) (train y t) := by
  obtain ⟨hm, ha, h0, h4, hmem⟩ := h.finish (.predicted y)
  exact ⟨hm, ha, h0, h4, hmem⟩

/-- The end of a predicted bit writes the tables, the context and BITCOUNT, as from the state before the bit. -/
theorem finishPredBit_frame (h : SameButCoder s u) (y : Bool) :
    finishPredBit y u = { u with
      mem := (train y s).mem, c0 := (train y s).c0, c4 := (train y s).c4, bitcount := s.bitcount + 1#64 } := by
  obtain ⟨-, -, h0, h4, hmem⟩ := h.samePredictor.train y
  rw [finishPredBit, train_frame, h0, h4, hmem, ← h.bitcount]
  rfl

/-- In an encode session a coded bit leaves all but the interval and the output stream. -/
theorem OneSided.eq_of_encode (h : OneSided s u) (hd : s.dir = .encode) :
    u = { s with low := u.low, high := u.high, outq := u.outq, bytesOut := u.bytesOut } := by
  obtain ⟨hc, hi, hn⟩ := h.encode hd
  obtain ⟨⟨⟩, -, -⟩ := h
  cases u
  simp_all

/-- In a decode session it leaves all but the interval, CODE and the input stream. -/
theorem OneSided.eq_of_decode (h : OneSided s u) (hd : s.dir = .decode) :
    u = { s with low := u.low, high := u.high, code := u.code, inq := u.inq, bytesIn := u.bytesIn } := by
  obtain ⟨ho, hn⟩ := h.decode hd
  obtain ⟨⟨⟩, -, -⟩ := h
  cases u
  simp_all

/-! ## Room for a bit of the encoder -/

/-- Both parts of a subdivision of a normalised interval have more than one point (40_range_coder.md R91). -/
theorem narrow_lt (h : Normalised s) (hp1 : 1 ≤ p) (hp : p ≤ 4095) (y : Bool) : (narrow y p s).low < (narrow y p s).high := by
  obtain ⟨hlow, hhigh⟩ := narrow_bounds h.lt hp y
  obtain ⟨-, hw⟩ := h
  obtain ⟨hpart, hmid, -, -, hup, -⟩ := bothPartsOfASplitAreWide.1 s.low s.high p hw hp1 hp
  rw [BitVec.lt_def, hlow, hhigh]
  cases y
  · simp only [Bool.false_eq_true, if_false]
    omega
  · simp only [if_true]
    omega

theorem RenormRounds.tail (h : RenormRounds s t) (hr : RenormRound t u) : RenormRounds s u := by
  induction h with
  | refl s => exact .head hr (.refl u)
  | head h' _ ih => exact .head h' (ih hr)

/-- An encoder's renormalisation that starts with two points emits at most seven bytes. -/
theorem RenormRounds.emitted_le_seven (h : RenormRounds s t) (hd : s.dir = .encode) (hlt : s.low < s.high) :
    t.outq.length ≤ s.outq.length + 7 := by
  obtain ⟨n, hn⟩ := h.movesBytes
  have h7 := hn.le_seven hlt
  obtain ⟨-, -, bs, hlen, ho, -⟩ := hn.emitted hd
  rw [ho, List.length_append]
  omega

/-- A machine with room in OUTQ whatever the encoder has emitted by `t`. -/
def roomier (s t : State) : HostActs := idle { s.depths with out := s.depths.out + t.outq.length + 1 }

theorem fits_roomier (s t : State) : (roomier s t).Fits s := ⟨Nat.zero_le _, by simp only [roomier, idle]; omega⟩

/-- A byte that waits at a full OUTQ would go out with more room, so it is one of the seven (R92). -/
theorem RenormRounds.lt_seven_of_topSettled (h : RenormRounds s t) (hd : s.dir = .encode) (hlt : s.low < s.high)
    (ht : topSettled t) : t.outq.length < s.outq.length + 7 := by
  have hr := h.ease (fits_roomier s t)
  have hpush := outPush_of_room (s := (roomier s t).ease t) (t.low.extractLsb' 24 8)
    (show t.outq.length < s.depths.out + t.outq.length + 1 by omega)
  have hemit := RenormRound.emit (s := (roomier s t).ease t) ht (h.same.dir.trans hd) hpush
  have h7 : (t.outq ++ [t.low.extractLsb' 24 8]).length ≤ s.outq.length + 7 := (hr.tail hemit).emitted_le_seven hd hlt
  rw [List.length_append, List.length_singleton] at h7
  omega

/-- Seven places in OUTQ are room for any bit (R92). -/
theorem renorm_narrow_settles_of_room (h : Normalised s) (hd : s.dir = .encode) (hp1 : 1 ≤ p) (hp : p ≤ 4095) (y : Bool)
    (hroom : OutRoom 7 s) : ∃ u, renorm renormFuel (narrow y p s) = .settled u ∧ u.outq.length ≤ s.outq.length + 7 := by
  have hd' : (narrow y p s).dir = .encode := by rw [narrow_dir, hd]
  have hlt := narrow_lt h hp1 hp y
  obtain ⟨t, hr, he⟩ := renorm_cases (narrow y p s)
  have hdt : t.dir = .encode := hr.same.dir.trans hd'
  generalize hrn : renorm renormFuel (narrow y p s) = r at he
  cases he with
  | settled hs hw => exact ⟨t, rfl, by simpa using hr.emitted_le_seven hd' hlt⟩
  | full hs _ hp =>
    have hlen := hr.lt_seven_of_topSettled hd' hlt hs
    have hfull := outPush_eq_none hp
    rw [hr.same.depths] at hfull
    rw [narrow_outq] at hlen
    rw [narrow_depths] at hfull
    unfold OutRoom at hroom
    omega
  | empty _ hdec _ => cases hdt.symm.trans hdec
  | eof _ hdec _ => cases hdt.symm.trans hdec
  | range _ _ hdec _ => cases hdt.symm.trans hdec

/-! ## Faults of a coded bit -/

/-- Renormalisation raises no fault but the two corruptions (60_exceptions.md R193). -/
theorem renorm_raised {f : FaultCode} (hu : renorm renormFuel s = .raised f u) : f = .corruptEof ∨ f = .corruptRange := by
  obtain ⟨t, -, he⟩ := renorm_cases s
  rw [hu] at he
  cases he with
  | eof => exact .inl rfl
  | range => exact .inr rfl

theorem same_of_raised {f : FaultCode} (hu : renorm renormFuel (narrow y p s) = .raised f u) : SameButCoder s u := by
  have h := renorm_same (narrow y p s)
  rw [hu] at h
  exact (narrow_same y p s).trans h

/-! ## The command of a coded bit -/

/-- A command that passes its checks and whose pseudocode holds is in progress there (43_commands.md R167). -/
theorem exec_of_held {i : Instr} {pos : HoldPoint} (hok : check i s = .ok) (hs : semOf i s = .held pos u) :
    exec i s = .next { u with cip := some { word := encode i, pos := pos } } := by
  rw [exec_eq, execute_of_ok hok, hs]
  rfl

/-- One whose pseudocode raises a fault enters FAULT state and answers the code where RESPQ has room (60_exceptions.md R195). -/
theorem exec_of_raised {i : Instr} {f : FaultCode} (hok : check i s = .ok) (hs : semOf i s = .raised f u) (hroom : RespRoom 1 u) :
    exec i s = .next (answered (encode i) f.value 0#32 (faultEntry f u)) := by
  rw [exec_eq, execute_of_ok hok, hs, settle, respond_of_room]
  rwa [RespRoom, faultEntry_respq, faultEntry_depths]

theorem SameButCoder.respRoom {n : Nat} (h : SameButCoder s t) (hroom : RespRoom n s) : RespRoom n t := by
  rwa [RespRoom, h.respq, h.depths]

namespace CodedBit

/-- The command that codes the bit on each side. -/
def instr : Dir → CodedBit → Instr
  | .encode, b => b.symbol.encoder
  | .decode, b => b.symbol.decoder

/-- Its hold inside the renormalisation (10_state.md R33). -/
def hold : Dir → CodedBit → HoldPoint
  | .encode, .predicted _ => .encBit
  | .encode, .raw _ _ => .encRaw
  | .decode, .predicted y => .decBit y
  | .decode, .raw y _ => .decRaw y

/-- Its DATA: 0 for the encoder, the bit for the decoder (30_encoding.md R67). -/
def data : Dir → CodedBit → Word
  | .encode, _ => 0#32
  | .decode, b => bitData b.value

/-- A state in which the command of `b` on the side `d` passes its checks and codes `b`. -/
structure Ready (d : Dir) (b : CodedBit) (s : State) : Prop where
  session : Machine.Ready d 1 s
  allowed : b.Allowed s
  ordered : s.low < s.high
  selected : d = .decode → decodedBit (b.prob s) s = b.value

theorem Ready.check (h : Ready d b s) : check (b.instr d) s = .ok := by
  obtain ⟨⟨-, hs, hd, -⟩, hb, -, -⟩ := h
  cases b with
  | predicted y => cases d <;> exact check_of_sessionChecks rfl ⟨hs, .inr (congrArg some hd.symm), fun _ => hb, nofun, nofun⟩
  | raw y p =>
    cases d <;>
      exact check_of_sessionChecks rfl ⟨hs, .inr (congrArg some hd.symm), nofun, nofun, fun hp => hb (Option.some.inj hp)⟩

theorem Ready.semOf (h : Ready d b s) :
    semOf (b.instr d) s = renormThen (b.hold d) (fun u => .done (b.data d) (b.finish u)) (narrow b.value (b.prob s) s) := by
  obtain ⟨-, -, hlt, hy⟩ := h
  have enc (pos : HoldPoint) (next : State → Result) :
      rcEncode b.value (b.prob s) pos next s = renormThen pos next (narrow b.value (b.prob s) s) := if_pos hlt
  have dec (hd : d = .decode) (pos : Bool → HoldPoint) (next : Bool → State → Result) :
      rcDecode (b.prob s) pos next s = renormThen (pos b.value) (next b.value) (narrow b.value (b.prob s) s) := by
    rw [rcDecode, if_pos hlt, hy hd]
  cases d with
  | encode => cases b <;> exact enc _ _
  | decode =>
    cases b with
    | predicted y => exact dec rfl .decBit fun y u => decBitDone y (finishPredBit y u)
    | raw y p => exact dec rfl .decRaw decRawDone

/-- Where the renormalisation settles, the command finishes the bit and answers. -/
theorem Ready.exec_of_settled (h : Ready d b s) (hu : renorm renormFuel (narrow b.value (b.prob s) s) = .settled u) :
    exec (b.instr d) s = .next (answered (encode (b.instr d)) statusOk (b.data d) (b.finish u)) := by
  obtain ⟨-, -, -, hroom⟩ := h.session
  refine exec_of_done h.check (by rw [h.semOf, renormThen, hu]) ?_
  have hroom' := (oneSided_of_settled hu).respRoom hroom
  rwa [RespRoom, finish_respq, finish_depths]

/-- Where it holds, the command holds there. -/
theorem Ready.exec_of_held (h : Ready d b s) (hu : renorm renormFuel (narrow b.value (b.prob s) s) = .held u) :
    exec (b.instr d) s = .next { u with cip := some { word := encode (b.instr d), pos := b.hold d } } :=
  Machine.exec_of_held h.check (by rw [h.semOf, renormThen, hu])

/-- Where it raises a fault, the command faults. -/
theorem Ready.exec_of_raised (h : Ready d b s) {f : FaultCode}
    (hu : renorm renormFuel (narrow b.value (b.prob s) s) = .raised f u) :
    exec (b.instr d) s = .next (answered (encode (b.instr d)) f.value 0#32 (faultEntry f u)) := by
  obtain ⟨-, -, -, hroom⟩ := h.session
  exact Machine.exec_of_raised h.check (by rw [h.semOf, renormThen, hu]) ((same_of_raised hu).respRoom hroom)

/-- A command of a coded bit that passes its checks ends in FAULT state only by a fault of its renormalisation. -/
theorem Ready.raised_of_fault (h : Ready d b s) (hexec : exec (b.instr d) s = .next u) (hc : u.cip = none)
    (hf : u.sstate = .fault) : ∃ f v, renorm renormFuel (narrow b.value (b.prob s) s) = .raised f v ∧
      u = answered (encode (b.instr d)) f.value 0#32 (faultEntry f v) := by
  obtain ⟨-, hs, -, -⟩ := h.session
  cases hr : renorm renormFuel (narrow b.value (b.prob s) s) with
  | settled v =>
    cases hexec.symm.trans (h.exec_of_settled hr)
    rw [answered_sstate, finish_sstate, (oneSided_of_settled hr).sstate, hs] at hf
    cases hf
  | held v =>
    cases hexec.symm.trans (h.exec_of_held hr)
    cases hc
  | raised f v =>
    cases hexec.symm.trans (h.exec_of_raised hr)
    exact ⟨f, v, rfl, rfl⟩

end CodedBit

/-! ## The obligations -/

/-- The state an encoder's predicted bit is answered from, field by field. -/
theorem finishPredBit_of_encode (h : OneSided s u) (hd : s.dir = .encode) (y : Bool) :
    finishPredBit y u = { s with
      low := u.low, high := u.high, outq := u.outq, bytesOut := u.bytesOut,
      mem := (train y s).mem, c0 := (train y s).c0, c4 := (train y s).c4, bitcount := s.bitcount + 1#64 } := by
  rw [finishPredBit_frame h.toSameButCoder, h.eq_of_encode hd]

/-- The same of the decoder. -/
theorem finishPredBit_of_decode (h : OneSided s u) (hd : s.dir = .decode) (y : Bool) :
    finishPredBit y u = { s with
      low := u.low, high := u.high, code := u.code, inq := u.inq, bytesIn := u.bytesIn,
      mem := (train y s).mem, c0 := (train y s).c0, c4 := (train y s).c4, bitcount := s.bitcount + 1#64 } := by
  rw [finishPredBit_frame h.toSameButCoder, h.eq_of_decode hd]

/-- An encoder's hold inside a renormalisation is at a full OUTQ. -/
theorem full_of_held (hd : s.dir = .encode) (hu : renorm renormFuel (narrow y p s) = .held u) : u.depths.out ≤ u.outq.length := by
  obtain ⟨hr, -, hb⟩ := renorm_held_iff.1 hu
  rwa [(narrow_same y p s).trans hr.same |>.dir, hd] at hb

/-- Between the commands of a sound session the interval is normalised (40_range_coder.md R90). -/
theorem Inv.normalised_of_ready {n : Nat} (h : Inv s) (hr : Ready d n s) : Normalised s := by
  obtain ⟨hc, hs, -⟩ := hr
  exact (h.boundary hc).normalised (by simp [hs])

/-- Settles O45: ENC_BIT does what its coded bit does. -/
theorem encBitCodesOneBit : Obligations.EncBitCodesOneBit := by
  intro s y hinv hready hm
  have hn := hinv.normalised_of_ready hready
  have hb : (CodedBit.predicted y).Ready .encode s := ⟨hready, hm, hn.lt, nofun⟩
  obtain ⟨-, -, hd, -⟩ := hready
  refine ⟨fun hroom => ?_, fun u hu => ?_, fun u hu => ⟨full_of_held hd hu, hb.exec_of_held hu⟩⟩
  · obtain ⟨u, hu, -⟩ := renorm_narrow_settles_of_room hn hd (one_le_predict s) (predict_le s) y hroom
    exact ⟨u, hu⟩
  · refine (hb.exec_of_settled hu).trans ?_
    rw [CodedBit.finish, finishPredBit_of_encode (oneSided_of_settled hu) hd]
    rfl

/-- Settles O51: ENC_RAW does what its coded bit does, and a raw bit ends by its count alone. -/
theorem encRawCodesOneBit : Obligations.EncRawCodesOneBit := by
  intro s y p hinv hready hp
  have hn := hinv.normalised_of_ready hready
  have hb : (CodedBit.raw y p).Ready .encode s := ⟨hready, hp, hn.lt, nofun⟩
  obtain ⟨hp1, hp2⟩ := rawProb_bounds hb.check rfl rfl
  obtain ⟨-, -, hd, -⟩ := hready
  refine ⟨fun hroom => ?_, fun u hu => ?_, fun u hu => ⟨full_of_held hd hu, hb.exec_of_held hu⟩⟩
  · obtain ⟨u, hu, -⟩ := renorm_narrow_settles_of_room hn hd hp1 hp2 y hroom
    exact ⟨u, hu⟩
  · refine (hb.exec_of_settled hu).trans ?_
    rw [CodedBit.finish, (oneSided_of_settled hu).eq_of_encode hd]
    rfl

/-- A normalised interval needs no renormalisation. -/
theorem renorm_of_normalised (h : Normalised s) : renorm renormFuel s = .settled s := renorm_settled_iff.2 ⟨.refl s, h⟩

/-- Settles O47: DEC_BIT does what the coded bit does that CODE selects. -/
theorem decBitDecodesOneBit : Obligations.DecBitDecodesOneBit := by
  intro s y hinv hready hm hy
  have hb : (CodedBit.predicted y).Ready .decode s := ⟨hready, hm, (hinv.normalised_of_ready hready).lt, fun _ => hy.symm⟩
  obtain ⟨-, -, hd, -⟩ := hready
  refine ⟨fun u hu => ?_, fun u hu => hb.exec_of_held hu, fun f u hu => ?_, renorm_of_normalised⟩
  · refine (hb.exec_of_settled hu).trans ?_
    rw [CodedBit.finish, finishPredBit_of_decode (oneSided_of_settled hu) hd]
    rfl
  · exact ⟨renorm_raised hu, hb.exec_of_raised hu, (same_of_raised hu).bitcount⟩

/-- Settles O52: DEC_RAW does what the coded bit does that CODE selects, and a raw bit ends by its count alone. -/
theorem decRawDecodesOneBit : Obligations.DecRawDecodesOneBit := by
  intro s p y hinv hready hp hy
  have hb : (CodedBit.raw y p).Ready .decode s := ⟨hready, hp, (hinv.normalised_of_ready hready).lt, fun _ => hy.symm⟩
  obtain ⟨-, -, hd, -⟩ := hready
  refine ⟨fun u hu => ?_, fun u hu => hb.exec_of_held hu, fun f u hu => ?_, renorm_of_normalised⟩
  · refine (hb.exec_of_settled hu).trans ?_
    rw [CodedBit.finish, (oneSided_of_settled hu).eq_of_decode hd]
    rfl
  · exact ⟨renorm_raised hu, hb.exec_of_raised hu, (same_of_raised hu).bitcount⟩

end Sys2Proof.Machine
end

section
/-! PROOFS. The byte commands: ENC_BYTE and DEC_BYTE are eight predicted bits in a row, and so are eight bit commands, whose responses the
coder does not see (43_commands.md R156, R158; 20_memory.md R44). -/

namespace Sys2Proof.Machine

variable {s t u : State} {b : Byte} {d : Dir} {n k : Nat} {y : Bool} {ys : List Bool} {v : Byte}

/-! ## Predicted bits in a row -/

theorem encPredBits_cons : encPredBits (y :: ys) s = some t ↔
    ∃ u, renorm renormFuel (narrow y (predict s) s) = .settled u ∧ encPredBits ys (finishPredBit y u) = some t := by
  rw [encPredBits]
  cases renorm renormFuel (narrow y (predict s) s) <;> simp [finishPredBit]

theorem decPredBits_succ : decPredBits (n + 1) s = some (ys, t) ↔
    ∃ u zs, renorm renormFuel (narrow (decodedBit (predict s) s) (predict s) s) = .settled u ∧
      decPredBits n (finishPredBit (decodedBit (predict s) s) u) = some (zs, t) ∧ ys = decodedBit (predict s) s :: zs := by
  rw [decPredBits, ← decodedBit]
  cases renorm renormFuel (narrow (decodedBit (predict s) s) (predict s) s) <;> simp [finishPredBit, eq_comm]

theorem decPredBits_cons (hy : decodedBit (predict s) s = y) (hu : renorm renormFuel (narrow y (predict s) s) = .settled u)
    (hr : decPredBits n (finishPredBit y u) = some (ys, t)) : decPredBits (n + 1) s = some (y :: ys, t) := by
  subst hy
  exact decPredBits_succ.2 ⟨u, ys, hu, hr, rfl⟩

/-- What the decoder does with the bits it finds is what the encoder's rule does with them. -/
theorem encPredBits_of_decPredBits (h : decPredBits n s = some (ys, t)) : encPredBits ys s = some t ∧ ys.length = n := by
  induction n generalizing s ys with
  | zero =>
    cases h
    exact ⟨rfl, rfl⟩
  | succ n ih =>
    obtain ⟨u, zs, hu, hr, rfl⟩ := decPredBits_succ.1 h
    obtain ⟨he, rfl⟩ := ih hr
    exact ⟨encPredBits_cons.2 ⟨u, hu, he⟩, rfl⟩

/-! ### What they leave alone -/

/-- What predicted bits leave alone: all but the interval, the context, the tables, BITCOUNT and the stream of the side. -/
structure SameSession (s t : State) : Prop where
  sstate : t.sstate = s.sstate
  dir : t.dir = s.dir
  pmode : t.pmode = s.pmode
  apmEn : t.apmEn = s.apmEn
  faultcode : t.faultcode = s.faultcode
  cmdq : t.cmdq = s.cmdq
  respq : t.respq = s.respq
  cip : t.cip = s.cip
  depths : t.depths = s.depths
  encode : s.dir = .encode → t.code = s.code ∧ t.inq = s.inq ∧ t.bytesIn = s.bytesIn
  decode : s.dir = .decode → t.outq = s.outq ∧ t.bytesOut = s.bytesOut

theorem SameSession.refl (s : State) : SameSession s s :=
  ⟨rfl, rfl, rfl, rfl, rfl, rfl, rfl, rfl, rfl, fun _ => ⟨rfl, rfl, rfl⟩, fun _ => ⟨rfl, rfl⟩⟩

theorem SameSession.trans (h : SameSession s t) (h' : SameSession t u) : SameSession s u where
  sstate := h'.sstate.trans h.sstate
  dir := h'.dir.trans h.dir
  pmode := h'.pmode.trans h.pmode
  apmEn := h'.apmEn.trans h.apmEn
  faultcode := h'.faultcode.trans h.faultcode
  cmdq := h'.cmdq.trans h.cmdq
  respq := h'.respq.trans h.respq
  cip := h'.cip.trans h.cip
  depths := h'.depths.trans h.depths
  encode := fun hd => by
    obtain ⟨hc, hi, hn⟩ := h.encode hd
    obtain ⟨hc', hi', hn'⟩ := h'.encode (h.dir.trans hd)
    exact ⟨hc'.trans hc, hi'.trans hi, hn'.trans hn⟩
  decode := fun hd => by
    obtain ⟨ho, hn⟩ := h.decode hd
    obtain ⟨ho', hn'⟩ := h'.decode (h.dir.trans hd)
    exact ⟨ho'.trans ho, hn'.trans hn⟩

/-- One predicted bit. -/
theorem OneSided.sameSession (h : OneSided s u) (y : Bool) : SameSession s (finishPredBit y u) := by
  rw [finishPredBit_frame h.toSameButCoder]
  exact ⟨h.sstate, h.dir, h.pmode, h.apmEn, h.faultcode, h.cmdq, h.respq, h.cip, h.depths, h.encode, h.decode⟩

theorem encPredBits_sameSession (h : encPredBits ys s = some t) : SameSession s t := by
  induction ys generalizing s with
  | nil =>
    cases h
    exact .refl _
  | cons y ys ih =>
    obtain ⟨u, hu, hr⟩ := encPredBits_cons.1 h
    exact ((oneSided_of_settled hu).sameSession y).trans (ih hr)

theorem encPredBits_bitcount (h : encPredBits ys s = some t) : t.bitcount = s.bitcount + BitVec.ofNat 64 ys.length := by
  induction ys generalizing s with
  | nil =>
    cases h
    simp
  | cons y ys ih =>
    obtain ⟨u, hu, hr⟩ := encPredBits_cons.1 h
    rw [ih hr, finishPredBit_frame (oneSided_of_settled hu).toSameButCoder, List.length_cons, BitVec.ofNat_add,
      BitVec.add_assoc, BitVec.add_comm 1#64]

/-- A bit ends in a normalised interval. -/
theorem normalised_finishPredBit (hu : renorm renormFuel s = .settled u) (y : Bool) : Normalised (finishPredBit y u) := by
  obtain ⟨-, hn⟩ := renorm_settled_iff.1 hu
  simpa [finishPredBit, train_eq, Normalised] using hn

theorem encPredBits_ordered (hlt : s.low < s.high) (h : encPredBits ys s = some t) : t.low < t.high := by
  induction ys generalizing s with
  | nil =>
    cases h
    exact hlt
  | cons y ys ih =>
    obtain ⟨u, hu, hr⟩ := encPredBits_cons.1 h
    exact ih (normalised_finishPredBit hu y).lt hr

/-! ### The bits of a byte -/

/-- The context after a predicted bit (41_predictors.md R108). -/
theorem finishPredBit_context (h : SameButCoder s u) (y : Bool) :
    (finishPredBit y u).c0 = (ctxUpdate y s).c0 ∧ (finishPredBit y u).c4 = (ctxUpdate y s).c4 := by
  rw [finishPredBit_frame h, train_eq, ctxUpdate_with_mem]
  exact ⟨rfl, rfl⟩

/-- The number of a byte with a leading 1, cut before its last `k` bits, goes on with its next bit. -/
theorem leadingOne_div_succ (v : Byte) (hk : k < 8) :
    (256 + v.toNat) / 2 ^ k = 2 * ((256 + v.toNat) / 2 ^ (k + 1)) + (v.getLsbD k).toNat := by
  have hbit : (v.getLsbD k).toNat = v.toNat / 2 ^ k % 2 := Nat.toNat_testBit _ _
  interval_cases k <;> omega

/-- With C0 holding a leading 1 and the first bits of a byte, the others complete it (20_memory.md R44). -/
theorem context_of_lowBits (hk : k < 8) (h0 : s.c0.toNat = (256 + v.toNat) / 2 ^ (k + 1))
    (h : encPredBits (lowBits v (k + 1)) s = some t) : t.c0 = 1#8 ∧ t.c4 = (s.c4 <<< 8) ||| v.setWidth 32 := by
  induction k generalizing s with
  | zero =>
    obtain ⟨u, hu, hr⟩ := encPredBits_cons.1 h
    cases hr
    obtain ⟨hc0, hc4⟩ := finishPredBit_context (oneSided_of_settled hu).toSameButCoder (v.getLsbD 0)
    have hlast : 2 * s.c0.toNat + (v.getLsbD 0).toNat = 256 + v.toNat := by rw [h0, ← leadingOne_div_succ v hk, Nat.pow_zero, Nat.div_one]
    rw [ctxUpdate_of_le (by omega), hlast, Nat.add_sub_cancel_left, BitVec.ofNat_toNat] at hc0 hc4
    exact ⟨hc0, hc4⟩
  | succ k ih =>
    obtain ⟨u, hu, hr⟩ := encPredBits_cons.1 h
    obtain ⟨hc0, hc4⟩ := finishPredBit_context (oneSided_of_settled hu).toSameButCoder (v.getLsbD (k + 1))
    have hnext : 2 * s.c0.toNat + (v.getLsbD (k + 1)).toNat = (256 + v.toNat) / 2 ^ (k + 1) := by rw [h0, ← leadingOne_div_succ v hk]
    have hbyte : (256 + v.toNat) / 2 ^ (k + 1) < 256 :=
      Nat.div_lt_of_lt_mul (lt_of_lt_of_le (by omega : 256 + v.toNat < 2 * 256) (Nat.mul_le_mul_right _ (Nat.le_self_pow (by omega) 2)))
    rw [ctxUpdate_of_lt (by omega), hnext] at hc0 hc4
    rw [← hc4]
    exact ih (by omega) (by rw [hc0, BitVec.toNat_ofNat, Nat.mod_eq_of_lt hbyte]) hr

theorem context_of_msbFirst (h0 : s.c0 = 1#8) (h : encPredBits (msbFirst v) s = some t) :
    t.c0 = 1#8 ∧ t.c4 = (s.c4 <<< 8) ||| v.setWidth 32 := by
  have hv := v.isLt
  exact context_of_lowBits (k := 7) (by omega) (by rw [h0]; simp; omega) h

/-- Eight bits are the bits of the byte they make (43_commands.md R158). -/
theorem exists_msbFirst (h : ys.length = 8) : ∃ v, msbFirst v = ys := by
  have all : ∀ a b c d e f g h : Bool, msbFirst ([a, b, c, d, e, f, g, h].foldl pushBit 0#8) = [a, b, c, d, e, f, g, h] := by decide
  match ys, h with
  | [a, b, c, d, e, f, g, h], _ => exact ⟨_, all a b c d e f g h⟩

/-! ### The byte commands -/

theorem rcEncode_of_settled {p : Nat} {pos : HoldPoint} {next : State → Result} (hlt : s.low < s.high)
    (hu : renorm renormFuel (narrow y p s) = .settled u) : rcEncode y p pos next s = next u := by
  rw [rcEncode, if_pos hlt, renormThen, hu]

theorem encByteFrom_of_encPredBits (hlt : s.low < s.high) (h : encPredBits (lowBits v k) s = some t) :
    encByteFrom v k s = .done 0#32 t := by
  induction k generalizing s with
  | zero =>
    cases h
    rfl
  | succ k ih =>
    obtain ⟨u, hu, hr⟩ := encPredBits_cons.1 h
    rw [encByteFrom, encPredBit, rcEncode_of_settled hlt hu]
    exact ih (normalised_finishPredBit hu _).lt hr

/-- DEC_BYTE goes past bits that settle, their values pushed to those before (R158). -/
theorem decByteFrom_of_decPredBits (hlt : s.low < s.high) (h : decPredBits n s = some (ys, t)) (k : Nat) (acc : Byte) :
    decByteFrom (n + k) acc s = decByteFrom k (ys.foldl pushBit acc) t := by
  induction n generalizing s ys acc with
  | zero =>
    cases h
    rw [Nat.zero_add]
    rfl
  | succ n ih =>
    obtain ⟨u, zs, hu, hr, rfl⟩ := decPredBits_succ.1 h
    rw [Nat.add_right_comm, decByteFrom, decPredBit, rcDecode, if_pos hlt, renormThen, hu]
    exact ih (normalised_finishPredBit hu _).lt hr _

/-- Between the commands of an open session that predicts, at a byte boundary, with the interval in order. -/
structure ByteReady (d : Dir) (n : Nat) (s : State) : Prop where
  session : Ready d n s
  predictor : s.pmode ≠ 0#2
  aligned : s.c0 = 1#8
  ordered : s.low < s.high

theorem Inv.byteReady (h : Inv s) (hr : Ready d n s) (hm : s.pmode ≠ 0#2) (h0 : s.c0 = 1#8) : ByteReady d n s :=
  ⟨hr, hm, h0, (h.normalised_of_ready hr).lt⟩

theorem ByteReady.check {i : Instr} (h : ByteReady d n s) (hf : fieldsLegal i = true) (hi : sideOf i = some d)
    (hp : rawProb i = none) : check i s = .ok := by
  obtain ⟨⟨-, hs, hd, -⟩, hm, h0, -⟩ := h
  exact check_of_sessionChecks hf ⟨hs, .inr (by rw [hi, hd]), fun _ => hm, fun _ => h0, by simp [hp]⟩

theorem SameSession.respRoom (h : SameSession s t) (hr : RespRoom n s) : RespRoom n t := by
  rwa [RespRoom, h.respq, h.depths]

theorem ByteReady.exec_encByte (h : ByteReady .encode 1 s) (ht : encPredBits (msbFirst v) s = some t) :
    exec (.encByte v) s = .next (answered (encode (.encByte v)) statusOk 0#32 t) := by
  obtain ⟨-, -, -, hroom⟩ := h.session
  exact exec_of_done (h.check rfl rfl rfl) (encByteFrom_of_encPredBits h.ordered ht) ((encPredBits_sameSession ht).respRoom hroom)

theorem ByteReady.exec_decByte (h : ByteReady .decode 1 s) (ht : decPredBits 8 s = some (msbFirst v, t)) :
    exec .decByte s = .next (answered (encode .decByte) statusOk (v.setWidth 32) t) := by
  obtain ⟨-, -, -, hroom⟩ := h.session
  obtain ⟨he, -⟩ := encPredBits_of_decPredBits ht
  refine exec_of_done (h.check rfl rfl rfl) ?_ ((encPredBits_sameSession he).respRoom hroom)
  have hdone := decByteFrom_of_decPredBits h.ordered ht 0 0#8
  rwa [foldl_pushBit_msbFirst] at hdone

/-! ### Responses apart -/

/-- The state with the responses `q` waiting. -/
def withResponses (q : List Response) (s : State) : State := { s with respq := q }

/-- A renormalisation whose end is seen through `f`. -/
def Renorm.map (f : State → State) : Renorm → Renorm
  | .settled s => .settled (f s)
  | .held s => .held (f s)
  | .raised c s => .raised c (f s)

theorem outPush_withResponses (q : List Response) (h : outPush b s = some t) :
    outPush b (withResponses q s) = some (withResponses q t) := by
  obtain ⟨hroom, rfl⟩ := outPush_eq_some h
  exact outPush_of_room (s := withResponses q s) b hroom

theorem inPop_withResponses (q : List Response) {x : InItem} (h : inPop s = .item x t) :
    inPop (withResponses q s) = .item x (withResponses q t) := by
  cases x with
  | byte b =>
    obtain ⟨rest, hq, rfl⟩ := inPop_byte h
    exact inPop_of_byte (s := withResponses q s) hq
  | endMark =>
    obtain ⟨rest, hq, rfl⟩ := inPop_endMark h
    exact inPop_of_endMark (s := withResponses q s) hq

theorem RenormRound.withResponses (h : RenormRound s t) (q : List Response) :
    RenormRound (withResponses q s) (withResponses q t) := by
  cases h with
  | @emit t hs hd hp =>
    exact .emit (s := Machine.withResponses q s) (t := Machine.withResponses q t) hs hd (outPush_withResponses q hp)
  | @take t b hs hd hp =>
    exact .take (s := Machine.withResponses q s) (t := Machine.withResponses q t) hs hd (inPop_withResponses q hp)
  | truncate hs hw hc => exact .truncate (s := Machine.withResponses q s) hs hw hc

theorem RenormRounds.withResponses (h : RenormRounds s t) (q : List Response) :
    RenormRounds (withResponses q s) (withResponses q t) := by
  induction h with
  | refl s => exact .refl _
  | head hr _ ih => exact .head (hr.withResponses q) ih

theorem RenormEnd.withResponses {r : Renorm} (h : RenormEnd r s) (q : List Response) :
    RenormEnd (r.map (withResponses q)) (withResponses q s) := by
  cases h with
  | settled hs hw => exact .settled (t := Machine.withResponses q s) hs hw
  | full hs hd hp =>
    have hfull := outPush_eq_none hp
    exact .full (t := Machine.withResponses q s) hs hd (outPush_of_full _ hfull)
  | empty hs hd hp =>
    have hnil := inPop_empty hp
    exact .empty (t := Machine.withResponses q s) hs hd (inPop_of_nil hnil)
  | @eof _ u hs hd hp =>
    exact .eof (t := Machine.withResponses q s) (u := Machine.withResponses q u) hs hd (inPop_withResponses q hp)
  | range hs hw hd hc => exact .range (t := Machine.withResponses q s) hs hw hd hc

/-- No renormalisation looks at RESPQ. -/
theorem renorm_withResponses (q : List Response) (s : State) :
    renorm renormFuel (withResponses q s) = (renorm renormFuel s).map (withResponses q) := by
  obtain ⟨t, hr, he⟩ := renorm_cases s
  rw [(hr.withResponses q).renorm_eq, (he.withResponses q).renorm_eq]

theorem narrow_withResponses (q : List Response) (y : Bool) (p : Nat) (s : State) :
    narrow y p (withResponses q s) = withResponses q (narrow y p s) := by cases y <;> rfl

theorem ctxUpdate_withResponses (q : List Response) (y : Bool) (s : State) :
    ctxUpdate y (withResponses q s) = withResponses q (ctxUpdate y s) := by
  show (if 256 ≤ s.c0.toNat * 2 + y.toNat then _ else _) = withResponses q (if 256 ≤ s.c0.toNat * 2 + y.toNat then _ else _)
  split <;> rfl

theorem finishPredBit_withResponses (q : List Response) (y : Bool) (s : State) :
    finishPredBit y (withResponses q s) = withResponses q (finishPredBit y s) := by
  have h := ctxUpdate_withResponses q y { s with mem := trainedMem y s }
  rw [finishPredBit, finishPredBit, train_eq, train_eq]
  exact congrArg countBit h

/-- No predicted bit looks at RESPQ. -/
theorem renorm_narrow_withResponses (q : List Response) (y : Bool) (s : State) :
    renorm renormFuel (narrow y (predict (withResponses q s)) (withResponses q s)) =
      (renorm renormFuel (narrow y (predict s) s)).map (withResponses q) := by
  rw [show predict (withResponses q s) = predict s from rfl, narrow_withResponses, renorm_withResponses]

theorem encPredBits_withResponses (q : List Response) (h : encPredBits ys s = some t) :
    encPredBits ys (withResponses q s) = some (withResponses q t) := by
  induction ys generalizing s with
  | nil =>
    cases h
    rfl
  | cons y ys ih =>
    obtain ⟨u, hu, hr⟩ := encPredBits_cons.1 h
    refine encPredBits_cons.2 ⟨withResponses q u, ?_, ?_⟩
    · rw [renorm_narrow_withResponses, hu, Renorm.map]
    · rw [finishPredBit_withResponses]
      exact ih hr

theorem decPredBits_withResponses (q : List Response) (h : decPredBits n s = some (ys, t)) :
    decPredBits n (withResponses q s) = some (ys, withResponses q t) := by
  induction n generalizing s ys with
  | zero =>
    cases h
    rfl
  | succ n ih =>
    obtain ⟨u, zs, hu, hr, rfl⟩ := decPredBits_succ.1 h
    refine decPredBits_succ.2 ⟨withResponses q u, zs, ?_, ?_, rfl⟩
    · exact (renorm_narrow_withResponses q (decodedBit (predict s) s) s).trans (by rw [hu, Renorm.map])
    · exact (congrArg (decPredBits n) (finishPredBit_withResponses q (decodedBit (predict s) s) u)).trans (ih hr)

/-- Outside a command an answer only adds to RESPQ. -/
theorem SameSession.answered_eq (h : SameSession s t) (hc : s.cip = none) (w : Word) (st : BitVec 8) (data : Word) :
    answered w st data t = withResponses (s.respq ++ [responseWord w st data]) t := by
  rw [answered, withResponses, ← h.respq, ← hc, ← h.cip]

theorem SameSession.withResponses_answered (h : SameSession s t) (hc : s.cip = none) (w : Word) (st : BitVec 8) (data : Word) :
    withResponses s.respq (answered w st data t) = t := by
  rw [answered, withResponses, ← h.respq, ← hc, ← h.cip]

/-! ### Room for the bits of a byte -/

/-- Seven places in OUTQ for each bit are room for all (40_range_coder.md R92). -/
theorem encPredBits_of_room (h : Normalised s) (hd : s.dir = .encode) (hroom : OutRoom (7 * ys.length) s) :
    ∃ t, encPredBits ys s = some t := by
  induction ys generalizing s with
  | nil => exact ⟨s, rfl⟩
  | cons y ys ih =>
    unfold OutRoom at *
    rw [List.length_cons] at hroom
    obtain ⟨u, hu, hlen⟩ := renorm_narrow_settles_of_room h hd (one_le_predict s) (predict_le s) y (by unfold OutRoom; omega)
    have hsame := (oneSided_of_settled hu).sameSession y
    obtain ⟨t, ht⟩ := ih (normalised_finishPredBit hu y) (hsame.dir.trans hd) (by
      rw [hsame.depths, ← CodedBit.finish, CodedBit.finish_outq]
      omega)
    exact ⟨t, encPredBits_cons.2 ⟨u, hu, ht⟩⟩

/-! ### Bit commands in a row -/

/-- The response of an ENC_BIT. -/
def encBitResponse (y : Bool) : Response := responseWord (encode (.encBit y)) statusOk 0#32

/-- ENC_BITs in a row leave what `EncPredBit` of their bits leaves, with their responses (43_commands.md R155). -/
theorem runAll_encBits (h : Ready .encode ys.length s) (hm : s.pmode ≠ 0#2) (hlt : s.low < s.high)
    (ht : encPredBits ys s = some t) : ∃ q, runAll (ys.map Instr.encBit) s = some (withResponses q t) := by
  induction ys generalizing s t with
  | nil =>
    cases ht
    exact ⟨s.respq, rfl⟩
  | cons y ys ih =>
    obtain ⟨u, hu, hr⟩ := encPredBits_cons.1 ht
    obtain ⟨hc, hs, hd, hroom⟩ := h
    rw [List.length_cons] at hroom
    have hb : (CodedBit.predicted y).Ready .encode s := ⟨⟨hc, hs, hd, by unfold RespRoom at *; omega⟩, hm, hlt, nofun⟩
    have hsame := (oneSided_of_settled hu).sameSession y
    have hexec := (hb.exec_of_settled hu).trans (congrArg _ (hsame.answered_eq hc _ _ _))
    have hroom' : RespRoom ys.length (withResponses (s.respq ++ [encBitResponse y]) (finishPredBit y u)) := by
      unfold RespRoom at *
      rw [withResponses, hsame.depths, List.length_append, List.length_singleton]
      omega
    obtain ⟨q, hq⟩ := ih (s := withResponses (s.respq ++ [encBitResponse y]) (finishPredBit y u))
      ⟨hsame.cip.trans hc, hsame.sstate.trans hs, hsame.dir.trans hd, hroom'⟩ (fun h => hm (hsame.pmode.symm.trans h))
      (normalised_finishPredBit hu y).lt (encPredBits_withResponses _ hr)
    exact ⟨q, (runAll_cons _ _ _ _).2 ⟨_, hexec, hsame.cip.trans hc, hq⟩⟩

/-- The response of a DEC_BIT that finds the bit `y`. -/
def decBitResponse (y : Bool) : Response := responseWord (encode .decBit) statusOk (bitData y)

/-- DEC_BITs in a row that all complete find bits as `DecPredBit` does, and leave what it leaves, with their responses (R157). -/
theorem decPredBits_of_runAll (hc : s.cip = none) (hm : s.pmode ≠ 0#2) (h : runAll (List.replicate n .decBit) s = some t)
    (hf : t.sstate ≠ .fault) :
    ∃ ys, decPredBits n s = some (ys, withResponses s.respq t) ∧ t.respq = s.respq ++ ys.map decBitResponse := by
  induction n generalizing s with
  | zero =>
    cases h
    exact ⟨[], rfl, by simp⟩
  | succ n ih =>
    obtain ⟨s1, hexec, hc1, hr⟩ := (runAll_cons _ _ _ _).1 h
    have hf1 : s1.sstate ≠ .fault := fun he =>
      hf (runAll_of_fault (by simp [allowedInFault, Instr.opc]) he hr)
    obtain ⟨data, v, -, hsem, rfl⟩ := exec_eq_done hexec hc1 hf1
    obtain ⟨u, hu, hdone⟩ := CodedBit.codesTo_of_done (b := .predicted (decodedBit (predict s) s)) (pos := .decBit _)
      (next := decBitDone (decodedBit (predict s) s)) hm hsem
    cases hdone
    have hsame := (oneSided_of_settled hu.settles).sameSession (decodedBit (predict s) s)
    have hm' : (finishPredBit (decodedBit (predict s) s) u).pmode ≠ 0#2 := fun h => hm (hsame.pmode.symm.trans h)
    obtain ⟨ys, hys, hq⟩ := ih (s := answered _ _ _ (finishPredBit _ u)) rfl hm' hr
    refine ⟨_ :: ys, decPredBits_succ.2 ⟨u, ys, hu.settles, ?_, rfl⟩, ?_⟩
    · have hback := decPredBits_withResponses s.respq hys
      rw [hsame.withResponses_answered hc] at hback
      exact hback
    · rw [hq, answered_respq, hsame.respq, List.append_assoc]
      rfl

/-! ## The obligations -/

/-- Settles O46: ENC_BYTE and eight ENC_BITs both leave what the bits of the byte leave. -/
theorem encByteIsEightEncBits : Obligations.EncByteIsEightEncBits := by
  intro s v hinv hready hm h0
  have hb := hinv.byteReady hready hm h0
  obtain ⟨hc, hs, hd, -⟩ := hready
  refine ⟨fun hroom => encPredBits_of_room (hinv.normalised_of_ready hb.session) hd hroom, fun t ht => ?_⟩
  have hsame := encPredBits_sameSession ht
  obtain ⟨hc0, hc4⟩ := context_of_msbFirst h0 ht
  obtain ⟨hcode, hinq, hin⟩ := hsame.encode hd
  refine ⟨hb.exec_encByte ht, fun hroom => ?_, hc0, hc4, encPredBits_bitcount ht, hsame.sstate.trans hs, hsame.dir.trans hd,
    hsame.pmode, hsame.apmEn, hsame.faultcode, hcode, hin, hinq, hsame.cmdq, hsame.respq, hsame.depths, hsame.cip.trans hc⟩
  obtain ⟨q, hq⟩ := runAll_encBits (ys := msbFirst v) ⟨hc, hs, hd, hroom⟩ hm hb.ordered ht
  refine ⟨_, hq, ?_⟩
  rw [withResponses, ← hsame.respq]

/-- Settles O48: eight DEC_BITs that complete find the bits of a byte, and DEC_BYTE finds the same. -/
theorem decByteIsEightDecBits : Obligations.DecByteIsEightDecBits := by
  intro s t hinv hready hm h0 hrun hcoding
  obtain ⟨hc, hs, hd, hroom⟩ := hready
  have hb := hinv.byteReady (n := 1) ⟨hc, hs, hd, by unfold RespRoom at *; omega⟩ hm h0
  obtain ⟨ys, hys, hq⟩ := decPredBits_of_runAll hc hm hrun (by simp [hcoding])
  obtain ⟨henc, hlen⟩ := encPredBits_of_decPredBits hys
  obtain ⟨v, rfl⟩ := exists_msbFirst hlen
  obtain ⟨hc0, hc4⟩ := context_of_msbFirst h0 henc
  refine ⟨v, hq, (hb.exec_decByte hys).trans ?_, hc0, hc4, encPredBits_bitcount henc⟩
  rw [(SameSession.refl _).answered_eq ((encPredBits_sameSession henc).cip.trans hc)]
  rfl

/-- Where the bits before it settle, DEC_BYTE faults where its next bit does (60_exceptions.md R195). -/
theorem ByteReady.exec_decByte_of_raised {f : FaultCode} (h : ByteReady .decode 1 s) (hk : k < 8)
    (ht : decPredBits k s = some (ys, t))
    (hu : renorm renormFuel (narrow (decodedBit (predict t) t) (predict t) t) = .raised f u) :
    exec .decByte s = .next (answered (encode .decByte) f.value 0#32 (faultEntry f u)) ∧
      u.bitcount = s.bitcount + BitVec.ofNat 64 k := by
  obtain ⟨-, -, -, hroom⟩ := h.session
  obtain ⟨henc, hlen⟩ := encPredBits_of_decPredBits ht
  have hsame := same_of_raised hu
  have hsem : decByteFrom 8 0#8 s = .raised f u := by
    have hgo := decByteFrom_of_decPredBits h.ordered ht (7 - k + 1) 0#8
    rw [show k + (7 - k + 1) = 8 by omega] at hgo
    rw [hgo, decByteFrom, decPredBit, rcDecode, if_pos (encPredBits_ordered h.ordered henc), renormThen, hu]
  refine ⟨exec_of_raised (h.check rfl rfl rfl) hsem (hsame.respRoom ((encPredBits_sameSession henc).respRoom hroom)), ?_⟩
  rw [hsame.bitcount, encPredBits_bitcount henc, hlen]

theorem faultEntry_withResponses (f : FaultCode) (q : List Response) (s : State) :
    faultEntry f (withResponses q s) = withResponses q (faultEntry f s) := by
  by_cases h : s.sstate = .fault
  · rw [faultEntry_of_fault h, faultEntry_of_fault (s := withResponses q s) h]
  · rw [faultEntry_of_ne h, faultEntry_of_ne (s := withResponses q s) h]
    rfl

/-- Settles O49: DEC_BYTE faults where its bit does, and so does the DEC_BIT of that bit. -/
theorem decByteFaultsWhereItsBitFaults : Obligations.DecByteFaultsWhereItsBitFaults := by
  constructor
  · intro s t u ys k f hinv hready hm h0 hk ht hu
    exact ⟨renorm_raised hu, (hinv.byteReady hready hm h0).exec_decByte_of_raised hk ht hu⟩
  · intro s t u k hinv hready hm h0 hk hrun hcoding hexec hcu hfu
    obtain ⟨hc, hs, hd, hroom⟩ := hready
    have hb := hinv.byteReady (n := 1) ⟨hc, hs, hd, by unfold RespRoom at *; omega⟩ hm h0
    obtain ⟨ys, hys, hq⟩ := decPredBits_of_runAll hc hm hrun (by simp [hcoding])
    obtain ⟨henc, hlen⟩ := encPredBits_of_decPredBits hys
    have hsame := encPredBits_sameSession henc
    have hroomt : RespRoom 1 t := by
      have hdepths : t.depths = s.depths := hsame.depths
      unfold RespRoom at *
      rw [hq, hdepths, List.length_append, List.length_map, hlen]
      omega
    have hlt : t.low < t.high := encPredBits_ordered (t := withResponses s.respq t) hb.ordered henc
    have hbit : (CodedBit.predicted (decodedBit (predict t) t)).Ready .decode t :=
      ⟨⟨hsame.cip.trans hc, hcoding, hsame.dir.trans hd, hroomt⟩, fun h => hm (hsame.pmode.symm.trans h),
        hlt, fun _ => rfl⟩
    obtain ⟨f, v, hv, rfl⟩ := hbit.raised_of_fault hexec hcu hfu
    have hcode : (faultEntry f v).faultcode = f.value := by
      rw [faultEntry_faultcode, (same_of_raised hv).sstate, hcoding, if_neg (by decide)]
    have hv' := renorm_narrow_withResponses s.respq (decodedBit (predict t) t) t
    rw [show renorm renormFuel (narrow (decodedBit (predict t) t) (predict t) t) = .raised f v from hv, Renorm.map] at hv'
    obtain ⟨hbyte, hcount⟩ := hb.exec_decByte_of_raised hk hys hv'
    refine ⟨hbyte.trans ?_, by simpa [withResponses] using hcount⟩
    rw [faultEntry_withResponses, ← hcode]
    rfl

end Sys2Proof.Machine
end

section
/-! PROOFS. The first byte of a DIRECT decode session: every probability is one half, so each bit is one bit of CODE, complemented
(43_commands.md R158; 41_predictors.md R109; 40_range_coder.md R81, R83, R84, R86). -/

namespace Sys2Proof.Machine

variable {s t u : State} {b : Byte} {k : Nat} {c : Word} {rest : List InItem}

/-! ## One half -/

/-- The byte a DIRECT session begins with: bit 1 takes the lower part. -/
def firstByte (c : Word) : Byte := ~~~ c.extractLsb' 24 8

theorem toNat_firstByte (c : Word) : (firstByte c).toNat = 255 - c.toNat / 16777216 := by
  have hc := c.isLt
  rw [firstByte, BitVec.toNat_not, toNat_field]
  omega

/-- `k` bits of the first byte are still to come: the interval is the part of the bits before them, C0 holds those bits, and no counter
of T1 from C0 on has been trained. -/
structure FirstByte (c : Word) (k : Nat) (s : State) : Prop where
  dir : s.dir = .decode
  pmode : s.pmode = 1#2
  code : s.code = c
  low : s.low.toNat = c.toNat / 2 ^ (24 + k) * 2 ^ (24 + k)
  high : s.high.toNat = s.low.toNat + (2 ^ (24 + k) - 1)
  c0 : s.c0.toNat = (256 + (firstByte c).toNat) / 2 ^ k
  c4 : s.c4 = 0#32
  wf : s.mem.wf
  fresh : ∀ i, s.c0.toNat ≤ i → s.mem.readCounter .t1 i = counterInit

/-- The context of the first byte is C0 alone. -/
theorem ctxIndex_t1_of_c4 (h : s.c4 = 0#32) : ctxIndex .t1 s = s.c0.toNat := by
  show (prevByte s ++ s.c0).toNat = _
  rw [Laws.EncodingForm.toNat_append, prevByte, h]
  simp

theorem FirstByte.predict_eq (h : FirstByte c k s) : predict s = 2048 := by
  rw [predict, if_pos h.pmode, dirPredict, ctxProb, ctxCounter, ctxIndex_t1_of_c4 h.c4, h.fresh _ le_rfl]
  decide

/-- The bit CODE selects, and its half of the interval. -/
theorem FirstByte.half (h : FirstByte c (k + 1) s) (hk : k < 8) :
    decodedBit 2048 s = (firstByte c).getLsbD k ∧
    (narrow ((firstByte c).getLsbD k) 2048 s).low.toNat = c.toNat / 2 ^ (24 + k) * 2 ^ (24 + k) ∧
    (narrow ((firstByte c).getLsbD k) 2048 s).high.toNat = c.toNat / 2 ^ (24 + k) * 2 ^ (24 + k) + (2 ^ (24 + k) - 1) := by
  obtain ⟨-, -, hcode, hlow, hhigh, -, -, -, -⟩ := h
  have hc := c.isLt
  have hv := toNat_firstByte c
  have hbit : ((firstByte c).getLsbD k).toNat = (firstByte c).toNat / 2 ^ k % 2 := Nat.toNat_testBit _ _
  have hlt : s.low < s.high := by
    rw [BitVec.lt_def, hhigh]
    interval_cases k <;> omega
  have hmid := toNat_xmid hlt (p := 2048) (by omega)
  obtain ⟨hnl, hnh⟩ := narrow_bounds hlt (p := 2048) (by omega) ((firstByte c).getLsbD k)
  have hmid' : (xmid s.low s.high 2048).toNat = s.low.toNat + (2 ^ (24 + k) - 1) := by
    rw [hmid, hhigh]
    interval_cases k <;> omega
  have hsel : decodedBit 2048 s = decide (c.toNat ≤ s.low.toNat + (2 ^ (24 + k) - 1)) := by
    simp only [decodedBit, hcode, BitVec.le_def, hmid']
  rw [hsel, hnl, hnh, hmid']
  cases hy : (firstByte c).getLsbD k
  · rw [hy, Bool.toNat_false] at hbit
    simp only [decide_eq_false_iff_not, Bool.false_eq_true, if_false]
    interval_cases k <;> omega
  · rw [hy, Bool.toNat_true] at hbit
    simp only [decide_eq_true_iff, if_true]
    interval_cases k <;> omega

/-- What training one counter of T1 does to the first byte's invariant (41_predictors.md R108, R110). -/
theorem FirstByte.next (h : FirstByte c (k + 2) s) (hk : k < 7) (hu : SameButCoder s u) (hcode : u.code = c)
    (hlow : u.low.toNat = c.toNat / 2 ^ (24 + (k + 1)) * 2 ^ (24 + (k + 1)))
    (hhigh : u.high.toNat = u.low.toNat + (2 ^ (24 + (k + 1)) - 1)) :
    FirstByte c (k + 1) (finishPredBit ((firstByte c).getLsbD (k + 1)) u) := by
  obtain ⟨hd, hm, -, -, -, h0, h4, hwf, hfresh⟩ := h
  have hv := (firstByte c).isLt
  have hnext := leadingOne_div_succ (firstByte c) (k := k + 1) (by omega)
  have hbounds : 1 ≤ s.c0.toNat ∧ s.c0.toNat < 128 := by
    rw [h0]
    interval_cases k <;> omega
  generalize (firstByte c).getLsbD (k + 1) = y at hnext ⊢
  obtain ⟨hc0, hc4⟩ := finishPredBit_context hu y
  have hc0' : (finishPredBit y u).c0.toNat = 2 * s.c0.toNat + y.toNat := by
    have hy := Bool.toNat_le y
    rw [hc0, ctxUpdate_of_lt hbounds.2, BitVec.toNat_ofNat, Nat.mod_eq_of_lt (by omega)]
  have hmem : (finishPredBit y u).mem = trainCounter .t1 y s s.mem := by
    rw [finishPredBit_frame hu, train, if_pos hm, dirUpdate_mem]
  exact {
    dir := by rw [finishPredBit_frame hu]; exact hu.dir.trans hd
    pmode := by rw [finishPredBit_frame hu]; exact hu.pmode.trans hm
    code := by rw [finishPredBit_frame hu]; exact hcode
    low := by rw [finishPredBit_frame hu]; exact hlow
    high := by rw [finishPredBit_frame hu]; exact hhigh
    c0 := by rw [hc0', hnext, h0]
    c4 := by rw [hc4, ctxUpdate_of_lt hbounds.2, h4]
    wf := by rw [hmem]; exact Memory.wf_writeCounter hwf .t1 _ _ (ctxIndex_lt_tableSize .t1 s)
    fresh := fun i hi => by
      rw [hmem, Memory.readCounter_trainCounter hwf, ctxIndex_t1_of_c4 h4, if_neg (by omega)]
      exact hfresh i (by omega) }

/-- CODE and the interval after the first byte: the stream byte `b` has come in, and the interval is whole. -/
structure Refilled (c : Word) (b : Byte) (rest : List InItem) (n : Word) (t : State) : Prop where
  low : t.low = 0x00000000#32
  high : t.high = 0xFFFFFFFF#32
  code : t.code = (c <<< 8) ||| b.setWidth 32
  inq : t.inq = rest
  bytesIn : t.bytesIn = n

/-- The last bit of the byte settles the top byte, which one stream byte replaces (40_range_coder.md R84). -/
theorem FirstByte.last (h : FirstByte c 1 s) (hq : s.inq = .byte b :: rest) :
    ∃ u, renorm renormFuel (narrow ((firstByte c).getLsbD 0) 2048 s) = .settled u ∧
      Refilled c b rest (s.bytesIn + 1#32) u := by
  obtain ⟨-, hlow, hhigh⟩ := h.half (k := 0) (by omega)
  have hc := c.isLt
  generalize (firstByte c).getLsbD 0 = y at hlow hhigh ⊢
  have htop : topSettled (narrow y 2048 s) := by
    rw [topSettled_iff, hlow, hhigh]
    omega
  have hround := RenormRound.take htop (by rw [narrow_dir, h.dir]) (inPop_of_byte (by rw [narrow_inq, hq]))
  have hlow' : (narrow y 2048 s).low <<< 8 = 0x00000000#32 := by
    apply BitVec.eq_of_toNat_eq
    rw [toNat_shiftLow, hlow, BitVec.toNat_ofNat]
    omega
  have hhigh' : (narrow y 2048 s).high <<< 8 ||| 0xFF#32 = 0xFFFFFFFF#32 := by
    apply BitVec.eq_of_toNat_eq
    rw [toNat_shiftHigh, hhigh, BitVec.toNat_ofNat]
    omega
  refine ⟨_, hround.renorm_eq.trans (renorm_of_normalised (normalised_of_open hlow' hhigh')), hlow', hhigh', ?_, rfl, ?_⟩
  · rw [shiftBounds_code, shiftCode_code, narrow_code, h.code]
  · rw [shiftBounds_bytesIn, shiftCode_bytesIn, narrow_bytesIn]

/-- Every bit before the last leaves a half that needs no renormalisation. -/
theorem FirstByte.normalised_half (h : FirstByte c (k + 2) s) (hk : k < 7) :
    Normalised (narrow ((firstByte c).getLsbD (k + 1)) 2048 s) := by
  obtain ⟨-, hlow, hhigh⟩ := h.half (k := k + 1) (by omega)
  have hc := c.isLt
  rw [Normalised, topSettled_iff, hlow, hhigh]
  interval_cases k <;> omega

/-- The bits of the first byte, decoded at the start of a DIRECT session. -/
theorem FirstByte.decPredBits (h : FirstByte c (k + 1) s) (hk : k < 8) (hq : s.inq = .byte b :: rest) :
    ∃ t, decPredBits (k + 1) s = some (lowBits (firstByte c) (k + 1), t) ∧ Refilled c b rest (s.bytesIn + 1#32) t := by
  induction k generalizing s with
  | zero =>
    obtain ⟨hy, -, -⟩ := h.half (k := 0) (by omega)
    obtain ⟨u, hu, hl, hh, hc, hi, hn⟩ := h.last hq
    rw [← h.predict_eq] at hy hu
    refine ⟨_, decPredBits_cons hy hu rfl, ?_⟩
    rw [finishPredBit_frame (oneSided_of_settled hu).toSameButCoder]
    exact ⟨hl, hh, hc, hi, hn⟩
  | succ k ih =>
    obtain ⟨hy, hlow, hhigh⟩ := h.half (k := k + 1) (by omega)
    have hu := renorm_of_normalised (h.normalised_half (by omega))
    have hnext := h.next (by omega) (narrow_same _ 2048 s) (by rw [narrow_code, h.code]) hlow (hhigh.trans (by rw [hlow]))
    have hone := finishPredBit_frame (narrow_same ((firstByte c).getLsbD (k + 1)) 2048 s) ((firstByte c).getLsbD (k + 1))
    obtain ⟨t, ht, hrefill⟩ := ih hnext (by omega) (by rw [hone]; exact (narrow_inq _ _ s).trans hq)
    rw [← h.predict_eq] at hy hu ht
    exact ⟨t, decPredBits_cons hy hu ht, by rwa [hone, narrow_bytesIn] at hrefill⟩

/-! ## The obligation -/

theorem firstByte_start (hd : s.dir = .decode) (hm : s.pmode = 1#2) (hmem : s.mem = Memory.initial) (h0 : s.c0 = 1#8)
    (h4 : s.c4 = 0#32) (hlow : s.low = 0x00000000#32) (hhigh : s.high = 0xFFFFFFFF#32) : FirstByte s.code 8 s where
  dir := hd
  pmode := hm
  code := rfl
  low := by
    have hc := s.code.isLt
    rw [hlow, BitVec.toNat_ofNat]
    omega
  high := by rw [hlow, hhigh]; decide
  c0 := by
    have hv := (firstByte s.code).isLt
    rw [h0, BitVec.toNat_ofNat]
    omega
  c4 := h4
  wf := hmem ▸ Memory.wf_initial
  fresh := fun i _ => by rw [hmem, Memory.readCounter_initial]

/-- A byte shifted in at the low end (20_memory.md R43). -/
theorem shiftIn_eq_append (x : Word) (b : Byte) : (x <<< 8) ||| b.setWidth 32 = x.extractLsb' 0 24 ++ b := by
  apply BitVec.eq_of_toNat_eq
  rw [toNat_shiftIn, Laws.EncodingForm.toNat_append, toNat_field]
  omega

/-- Settles O50: bits that settle are the bits of a byte; and the halves of a fresh DIRECT session settle for every CODE. -/
theorem decByteCompletesWhereItsBitsSettle : Obligations.DecByteCompletesWhereItsBitsSettle := by
  constructor
  · intro s t ys hinv hready hm h0 ht
    obtain ⟨henc, hlen⟩ := encPredBits_of_decPredBits ht
    obtain ⟨v, rfl⟩ := exists_msbFirst hlen
    have hsame := encPredBits_sameSession henc
    obtain ⟨hc0, hc4⟩ := context_of_msbFirst h0 henc
    have hexec := (hinv.byteReady hready hm h0).exec_decByte ht
    obtain ⟨hc, hs, hd, -⟩ := hready
    obtain ⟨hout, hcount⟩ := hsame.decode hd
    exact ⟨v, rfl, hexec, hc0, hc4, encPredBits_bitcount henc, hsame.sstate.trans hs, hsame.dir.trans hd, hsame.pmode,
      hsame.apmEn, hsame.faultcode, hcount, hout, hsame.cmdq, hsame.respq, hsame.depths, hsame.cip.trans hc⟩
  · intro s b rest hready hm hmem h0 h4 hlow hhigh hq
    have hb : ByteReady .decode 1 s := ⟨hready, by rw [hm]; decide, h0, by rw [hlow, hhigh]; decide⟩
    obtain ⟨-, hs, hd, -⟩ := hready
    obtain ⟨t, ht, hl, hh, hcode, hi, hn⟩ := (firstByte_start hd hm hmem h0 h4 hlow hhigh).decPredBits (by omega) hq
    obtain ⟨henc, -⟩ := encPredBits_of_decPredBits ht
    have hsame := encPredBits_sameSession henc
    obtain ⟨hc0, hc4⟩ := context_of_msbFirst h0 henc
    obtain ⟨hout, -⟩ := hsame.decode hd
    refine ⟨_, hb.exec_decByte ht, rfl, hsame.sstate.trans hs, ?_, hl, hh, hcode.trans (shiftIn_eq_append _ b), hc0, ?_, hi, hn,
      encPredBits_bitcount henc, hout⟩
    · rw [answered_respq, hsame.respq]
      rfl
    · rw [answered_c4, hc4, h4]
      simp [firstByte]

end Sys2Proof.Machine
end

section
/-! PROOFS. The commands that open and end a session, and those that only answer: INIT, FLUSH, NOP and GETP (43_commands.md R151, R152,
R161, R162). -/

namespace Sys2Proof.Machine

variable {s t : State} {w : Word} {d : Dir}

/-! ## NOP -/

/-- A word of opcode 0 that is not NOP's sets a reserved bit (30_encoding.md R61, R65). -/
theorem decode_of_opcode_zero (hop : opcodeOf w = 0x0#4) (hw : w ≠ 0x00000000#32) : decode w = .error (.reservedBits 0x0#4) := by
  have hfields : decodeFields w = some .nop := by simp [decodeFields, hop]
  cases hd : decode w with
  | ok i =>
    obtain ⟨hi, -⟩ := decode_eq_ok_iff.1 hd
    cases hfields.symm.trans hi
    exact absurd (encodeOfDecodeIsTheWord w .nop hd).symm hw
  | error e =>
    rw [decode, hfields] at hd
    dsimp only at hd
    split at hd <;> cases hd
    rw [hop]

/-- Settles O41: NOP passes every check, and its opcode is one FAULT state does not refuse. -/
theorem nopOnlyAnswers : Obligations.NopOnlyAnswers := by
  refine ⟨by decide, fun s hroom => ?_, fun w s hop hw => ?_⟩
  · have hok : check .nop s = .ok := by simp [check, fieldsLegal, allowedInFault, Instr.opc]
    exact exec_of_done hok rfl hroom
  · simp [checkWord, decode_of_opcode_zero hop hw, checkIllegal, hop, allowedInFault]

/-! ## GETP -/

theorem contextP12_eq (t : TableId) (s : State) : contextP12 t s = ctxProb t s := by
  rw [contextP12, Nat.shiftRight_eq_div_pow]
  rfl

theorem weightSet_eq (s : State) : weightSet s = s.c4.toNat / 32 % 8 := toNat_field s.c4 5 3

theorem laneProduct_eq (i : Nat) (t : TableId) (s : State) : laneProduct i t s = mixInput t s * weightOf i s := by
  rw [laneProduct, contextP12_eq, ← weightSet_eq]
  rfl

theorem mixDot_eq (s : State) : mixDot s =
    laneProduct 0 .t0 s + laneProduct 1 .t1 s + laneProduct 2 .t2 s + laneProduct 3 .t3 s + laneProduct 4 .t4 s := by
  simp [mixDot, mixerInputs, laneProduct_eq, add_assoc]

/-- P_mix is the transcription of R127 and R128. -/
theorem mixProb_eq (s : State) : mixProb s = pMixR128 s := by
  rw [mixProb, mixLogit, mixDot_eq, pMixR128, clamp, asr]

/-- P_apm is the transcription of R134 and R135. -/
theorem apmProb_eq (s : State) : apmProb s = pApmR135 s := by
  simp only [pApmR135, apmProb, apmLo, apmWt, apmCoord, mixProb_eq, Nat.shiftRight_eq_div_pow, Nat.reducePow]

theorem predict_eq_getpR162 (s : State) : predict s = getpR162 s := by
  rw [predict, getpR162, dirPredict, contextP12_eq, mixPredict, apmGuard, mixProb_eq, apmProb_eq]

/-- Settles O55: GETP passes its checks in an open session that predicts, and the prediction is the transcribed formula. -/
theorem getpOnlyAnswersTheProbability : Obligations.GetpOnlyAnswersTheProbability := by
  refine ⟨fun s hs hm hroom => ?_, fun s => ⟨predict_eq_getpR162 s, (contextP12_eq .t1 s).symm, mixProb_eq s, apmProb_eq s⟩⟩
  rw [← predict_eq_getpR162]
  exact exec_of_done (check_of_sessionChecks rfl ⟨hs, .inl rfl, fun _ => hm, nofun, nofun⟩) rfl hroom

/-! ## INIT -/

theorem check_init {m : BitVec 2} {a : Bool} (h : initFieldsLegal m a = true) (d : Dir) (s : State) :
    check (.init d m a) s = .ok := by
  simp [check, fieldsLegal, h, allowedInFault, Instr.opc]

/-- Settles O42: the pseudocode is the one assignment `beginSession`, and its tables read as their INIT values. -/
theorem initOpensAnEncodeSession : Obligations.InitOpensAnEncodeSession := by
  intro s m a hm hroom
  refine ⟨exec_of_done (u := beginSession .encode m a s) (check_init hm .encode s) rfl hroom, Memory.readCounter_initial,
    Memory.readWeight_initial, fun r j hj => ?_⟩
  have hsq := squash_le (((j : Int) - 16) * 128)
  rw [Memory.readApm_initial r j hj, apmInit, BitVec.toNat_ofNat, Nat.mod_eq_of_lt (by omega)]

/-- Four bytes shifted into CODE, the first highest (20_memory.md R43). -/
theorem primed_code (b0 b1 b2 b3 : Byte) :
    [b0, b1, b2, b3].foldl (fun (c : Word) (b : Byte) => (c <<< 8) ||| b.setWidth 32) 0#32 = b0 ++ (b1 ++ (b2 ++ b3)) := by
  have h0 := b0.isLt
  have h1 := b1.isLt
  have h2 := b2.isLt
  have h3 := b3.isLt
  apply BitVec.eq_of_toNat_eq
  simp only [List.foldl_cons, List.foldl_nil, toNat_shiftIn, Laws.EncodingForm.toNat_append, BitVec.toNat_ofNat]
  omega

/-- Settles O43: four priming reads find their bytes. -/
theorem initOpensADecodeSession : Obligations.InitOpensADecodeSession := by
  intro s m a b0 b1 b2 b3 rest hm hroom hq
  rw [exec_init_decode (r := [b0, b1, b2, b3]) (tail := rest) hm le_rfl hq hroom, ← primed_code]
  rfl

/-- Priming reads that meet `End` raise CORRUPT_EOF, the bytes before it and `End` consumed (40_range_coder.md R88). -/
theorem primeFrom_of_endMark {left : Nat} {bs : List Byte} {rest : List InItem} (h : bs.length < left)
    (hq : s.inq = bs.map InItem.byte ++ .endMark :: rest) :
    ∃ c, primeFrom left s = .raised .corruptEof
      { s with inq := rest, bytesIn := s.bytesIn + BitVec.ofNat 32 bs.length, code := c } := by
  obtain ⟨k, rfl⟩ : ∃ k, left = k + 1 := ⟨left - 1, by omega⟩
  induction bs generalizing s k with
  | nil =>
    refine ⟨s.code, ?_⟩
    rw [primeFrom, inPop_of_endMark hq]
    simp
  | cons b bs ih =>
    rw [List.length_cons] at h ⊢
    obtain ⟨j, rfl⟩ : ∃ j, k = j + 1 := ⟨k - 1, by omega⟩
    obtain ⟨c, hc⟩ := ih (s := shiftCode b { s with inq := bs.map InItem.byte ++ .endMark :: rest, bytesIn := s.bytesIn + 1#32 })
      rfl j (by omega)
    refine ⟨c, ?_⟩
    rw [primeFrom, inPop_of_byte hq, ← ofNat_succ_add s.bytesIn bs.length]
    exact hc

/-- Settles O44: the priming reads meet `End`, and fault entry keeps the new configuration and the streams. -/
theorem initOnAShortStreamFaults : Obligations.InitOnAShortStreamFaults := by
  intro s m a bs rest hm hroom hlen hq
  obtain ⟨c, hprime⟩ := primeFrom_of_endMark (s := beginSession .decode m a s) hlen hq
  refine ⟨_, exec_of_raised (check_init hm .decode s) hprime hroom, rfl, ?_⟩
  simp [beginSession, FaultCode.value]

/-! ## FLUSH -/

theorem check_flush (hs : s.sstate = .coding) : check .flush s = .ok :=
  check_of_sessionChecks rfl ⟨hs, .inl rfl, nofun, nofun, nofun⟩

/-- A flush with room pushes its bytes and ends the session (40_range_coder.md R87). -/
theorem flushEncFrom_of_room {k : Nat} (h : OutRoom k s) : flushEncFrom k s = .done (s.bytesOut + BitVec.ofNat 32 k)
    { s with outq := s.outq ++ flushBytes s.low k, bytesOut := s.bytesOut + BitVec.ofNat 32 k, sstate := .done } := by
  unfold OutRoom at h
  induction k generalizing s with
  | zero => simp [flushEncFrom, flushBytes]
  | succ k ih =>
    rw [flushEncFrom, outPush_of_room _ (by omega)]
    dsimp only
    rw [ih (by simp; omega)]
    simp [flushBytes, ofNat_succ_add]

/-- A flush with fewer places than bytes fills them and holds (R167). -/
theorem flushEncFrom_of_full {j k : Nat} (hj : j < k) (h : s.depths.out = s.outq.length + j) : flushEncFrom k s =
    .held (.flushEnc (k - j)) { s with
      outq := s.outq ++ (flushBytes s.low k).take j, bytesOut := s.bytesOut + BitVec.ofNat 32 j } := by
  obtain ⟨m, rfl⟩ : ∃ m, k = m + 1 := ⟨k - 1, by omega⟩
  induction j generalizing s m with
  | zero =>
    rw [flushEncFrom, outPush_of_full _ (by omega)]
    simp
  | succ j ih =>
    obtain ⟨n, rfl⟩ : ∃ n, m = n + 1 := ⟨m - 1, by omega⟩
    rw [flushEncFrom, outPush_of_room _ (by omega)]
    dsimp only
    rw [ih (by simp; omega) n (by omega)]
    simp [flushBytes, ofNat_succ_add]

theorem flushSem_of_encode (hd : s.dir = .encode) : flushSem s = flushEncFrom 4 s := by rw [flushSem, hd]

theorem flushSem_of_decode (hd : s.dir = .decode) : flushSem s = endDec s := by rw [flushSem, hd]

/-- Settles O53: the loop of R87 from its start, and from each place it can hold at. -/
theorem flushEmitsTheFourBytesOfLow : Obligations.FlushEmitsTheFourBytesOfLow := by
  constructor
  · intro s hready
    obtain ⟨-, hs, hd, hroom⟩ := hready
    refine ⟨fun hout => ?_, fun k hk hfull => ?_⟩
    · exact exec_of_done (check_flush hs) ((flushSem_of_encode hd).trans (flushEncFrom_of_room hout)) hroom
    · rw [exec_of_held (check_flush hs) ((flushSem_of_encode hd).trans (flushEncFrom_of_full hk hfull))]
      interval_cases k <;> rfl
  · intro s w left hc hleft hleft' hout hroom
    rw [step_of_inProgress hc]
    show Host.Outcome.next (settle w (flushEncFrom left s)) = _
    rw [flushEncFrom_of_room hout, settle, respond_of_room]
    · interval_cases left <;> rfl
    · exact hroom

/-- The end of a FLUSH that raises CORRUPT_TRAILER, the exact registers kept (60_exceptions.md R195, R196). -/
theorem exec_flush_of_raised (hs : s.sstate = .coding) (hroom : RespRoom 1 s) (hsem : flushSem s = .raised .corruptTrailer t)
    (ht : t.sstate = .coding ∧ t.respq = s.respq ∧ t.depths = s.depths) :
    ∃ u, exec .flush s = .next u ∧ u.sstate = .fault ∧ u.faultcode = 0x0A#8 ∧ u.cip = none ∧
      u.respq = s.respq ++ [responseWord (encode .flush) 0x0A#8 0#32] ∧ SameExactState t u := by
  obtain ⟨hts, htq, htd⟩ := ht
  refine ⟨_, exec_of_raised (check_flush hs) hsem (by rwa [RespRoom, htq, htd]), ?_⟩
  simp [hts, htq, FaultCode.value, SameExactState]

/-- Settles O54: CODE is compared before the item is read. -/
theorem flushChecksTheEndOfTheStream : Obligations.FlushChecksTheEndOfTheStream := by
  intro s hready
  obtain ⟨-, hs, hd, hroom⟩ := hready
  have hend (hcode : s.code = s.low) : flushSem s = endItem s := by rw [flushSem_of_decode hd, endDec, if_pos hcode]
  refine ⟨fun rest hcode hq => ?_, fun hcode => ?_, fun b rest hcode hq => ?_⟩
  · exact exec_of_done (u := { s with inq := rest, sstate := .done }) (check_flush hs)
      ((hend hcode).trans (by rw [endItem, inPop_of_endMark hq])) hroom
  · exact exec_flush_of_raised hs hroom (by rw [flushSem_of_decode hd, endDec, if_neg hcode]) ⟨hs, rfl, rfl⟩
  · exact exec_flush_of_raised hs hroom ((hend hcode).trans (by rw [endItem, inPop_of_byte hq])) ⟨hs, rfl, rfl⟩

end Sys2Proof.Machine
end

section
/-! PROOFS. The checks of a word and what they lead to: Check(w) is the ordered test of 60_exceptions.md R191, and a taken word is refused,
faults or runs as its verdict says (R191-R199). -/

namespace Sys2Proof.Machine

variable {s t : State} {w : Word} {i : Instr}

/-! ## The predicates of the checks as the lists of R191 -/

theorem allowedInFault_eq_true_iff (c : BitVec 4) : allowedInFault c = true ↔ c.toNat ∈ [0x0, 0x1, 0xA] := by
  revert c
  decide

theorem allowedInFault_eq_false_iff (c : BitVec 4) : allowedInFault c = false ↔ c.toNat ∉ [0x0, 0x1, 0xA] := by
  rw [← allowedInFault_eq_true_iff, Bool.not_eq_true]

/-- Step 5 of R191: an encoding command in a decode session, or the other way round. -/
theorem wrongDirection_iff (i : Instr) (d : Dir) : (sideOf i ≠ none ∧ sideOf i ≠ some d) ↔
    (i.opc.toNat ∈ [0x2, 0x3, 0x6] ∧ d = .decode) ∨ (i.opc.toNat ∈ [0x4, 0x5, 0x7] ∧ d = .encode) := by
  cases i <;> cases d <;> simp [sideOf, Instr.opc]

theorem usesPredictor_iff (i : Instr) : usesPredictor i = true ↔ i.opc.toNat ∈ [0x2, 0x3, 0x4, 0x5, 0x9] := by
  cases i <;> simp [usesPredictor, Instr.opc]

theorem isByteCommand_iff (i : Instr) : isByteCommand i = true ↔ i.opc.toNat ∈ [0x3, 0x5] := by
  cases i <;> simp [isByteCommand, Instr.opc]

/-- Step 8 of R191, on the P field of the word. -/
theorem rawProb_eq_zero_iff (h : decodeFields w = some i) :
    rawProb i = some 0#12 ↔ i.opc.toNat ∈ [0x6, 0x7] ∧ w.extractLsb' 0 12 = 0#12 := by
  unfold decodeFields at h
  split at h <;> cases h <;> simp [rawProb, Instr.opc]

theorem initFieldsLegal_eq_false_iff (m : BitVec 2) (a : Bool) :
    initFieldsLegal m a = false ↔ m = 3#2 ∨ (a = true ∧ m ≠ 2#2) := by
  revert m a
  decide

/-- Step 3 of R191, on the fields of the word. -/
theorem fieldsLegal_eq_false_iff (h : decodeFields w = some i) : fieldsLegal i = false ↔
    (i.opc.toNat = 0x1 ∧ (w.extractLsb' 1 2 = 3#2 ∨ (w.getLsbD 3 = true ∧ w.extractLsb' 1 2 ≠ 2#2))) ∨
    (i.opc.toNat = 0xA ∧ 0x0C ≤ (w.extractLsb' 0 8).toNat) := by
  unfold decodeFields at h
  split at h <;> cases h <;> simp [fieldsLegal, initFieldsLegal_eq_false_iff, regLegal, bitField, Instr.opc]

/-- The reserved bits by the mask of the map of R63. -/
theorem reservedSet_eq_maskR63 (hop : (opcodeOf w).toNat < 0xB) :
    reservedSet w = w &&& maskR63 (opcodeOf w).toNat &&& 0x0FFFFFFF#32 := by
  have hmask : ∀ c : BitVec 4, c.toNat < 0xB → maskOf c = maskR63 c.toNat := by decide
  rw [reservedSet, hmask _ hop]

/-- The fault of a word that is no command (30_encoding.md R64, R65). -/
def illegalFault : DecodeError → FaultCode
  | .reservedOpcode _ => .illegalOpcode
  | .reservedBits _ => .illegalField

/-- The verdict on a word that is no command (R191 steps 1-3). -/
theorem checkWord_of_error {e : DecodeError} (h : decode w = .error e) (s : State) : checkWord w s =
    if s.sstate = .fault ∧ (opcodeOf w).toNat ∉ [0x0, 0x1, 0xA] then .refused else .fault (illegalFault e) := by
  simp only [checkWord, h, checkIllegal, allowedInFault_eq_false_iff]
  split_ifs <;> cases e <;> rfl

/-- Settles O11: a reserved opcode fails step 2, a reserved bit step 3, and the checks of a command are the tests from step 1 on. -/
theorem checkOfAWordIsTheOrderedTest : Obligations.CheckOfAWordIsTheOrderedTest := by
  intro w s
  have hopc : w.extractLsb' 28 4 = opcodeOf w := rfl
  simp only [checkR191, hopc]
  by_cases hop : 0xB ≤ (opcodeOf w).toNat
  · have hd : decode w = .error (.reservedOpcode (opcodeOf w)) := by simp only [decode, (decodeFields_eq_none_iff w).2 hop]
    rw [checkWord_of_error hd, if_pos hop, illegalFault]
  · obtain ⟨i, hi⟩ := exists_decodeFields (Nat.lt_of_not_le hop)
    rw [if_neg hop, ← reservedSet_eq_maskR63 (Nat.lt_of_not_le hop)]
    by_cases hr : reservedSet w = 0#32
    · have hd : decode w = .ok i := decode_eq_ok_iff.2 ⟨hi, hr⟩
      rw [if_neg (not_not.2 hr)]
      simp only [checkWord, hd, check, allowedInFault_eq_false_iff, allowedInFault_eq_true_iff, wrongDirection_iff, usesPredictor_iff,
        isByteCommand_iff, rawProb_eq_zero_iff hi, fieldsLegal_eq_false_iff hi, ite_or, opc_of_decodeFields hi]
    · have hd : decode w = .error (.reservedBits (opcodeOf w)) := by simp only [decode, hi, if_neg hr]
      rw [checkWord_of_error hd, if_pos hr, illegalFault]

/-! ## The step that takes a word, by its verdict -/

theorem checkWord_of_ok (hd : decode w = .ok i) (s : State) : checkWord w s = check i s := by rw [checkWord, hd]

/-- Taking a word refuses it, answers its check fault, or settles the pseudocode of its command (43_commands.md R150). -/
theorem step_verdict {rest : List Word} (hc : s.cip = none) (hq : s.cmdq = w :: rest) :
    (checkWord w s = .refused ∧ step s = .next (refuse w { s with cmdq := rest })) ∨
    (∃ f, checkWord w s = .fault f ∧ step s = .next (checkFault w f { s with cmdq := rest })) ∨
    (∃ i, decode w = .ok i ∧ checkWord w s = .ok ∧ step s = .next (settle w (semOf i { s with cmdq := rest }))) := by
  have hv : checkWord w { s with cmdq := rest } = checkWord w s := rfl
  rw [← hv]
  rcases step_cases s with ⟨c, hc', -⟩ | ⟨-, hq', -⟩ | ⟨w', rest', i, -, hq', hd, h⟩ | ⟨w', rest', e, -, hq', hd, h⟩
  · cases hc.symm.trans hc'
  · cases hq.symm.trans hq'
  · cases hq.symm.trans hq'
    rw [h, exec_eq, checkWord_of_ok hd]
    rcases execute_cases i (semOf i) { s with cmdq := rest } with ⟨hk, he⟩ | ⟨f, hk, he⟩ | ⟨hk, he⟩ <;>
      rw [he, encodeOfDecodeIsTheWord w i hd]
    · exact .inl ⟨hk, rfl⟩
    · exact .inr (.inl ⟨f, hk, rfl⟩)
    · exact .inr (.inr ⟨i, hd, hk, rfl⟩)
  · cases hq.symm.trans hq'
    rw [h, checkWord, hd]
    dsimp only
    rw [executeIllegal]
    cases checkIllegal w e { s with cmdq := rest } with
    | none => exact .inl ⟨rfl, rfl⟩
    | some f => exact .inr (.inl ⟨f, rfl, rfl⟩)

section Verdict

variable {rest : List Word} (hc : s.cip = none) (hq : s.cmdq = w :: rest)

include hc hq

theorem step_of_refused (hv : checkWord w s = .refused) : step s = .next (refuse w { s with cmdq := rest }) := by
  rcases step_verdict hc hq with ⟨-, h⟩ | ⟨f, hf, -⟩ | ⟨i, -, hok, -⟩
  · exact h
  · cases hv.symm.trans hf
  · cases hv.symm.trans hok

theorem step_of_checkFault {f : FaultCode} (hv : checkWord w s = .fault f) :
    step s = .next (checkFault w f { s with cmdq := rest }) := by
  rcases step_verdict hc hq with ⟨hr, -⟩ | ⟨g, hg, h⟩ | ⟨i, -, hok, -⟩
  · cases hv.symm.trans hr
  · cases hv.symm.trans hg
    exact h
  · cases hv.symm.trans hok

end Verdict

/-- The refusal where RESPQ has room (60_exceptions.md R194). -/
theorem refuse_of_room (h : RespRoom 1 s) : refuse w s = answered w 0x0C#8 (s.faultcode.setWidth 32) s := respond_of_room h

/-- The answer of a check fault where RESPQ has room (R195). -/
theorem checkFault_of_room {f : FaultCode} (h : RespRoom 1 s) :
    checkFault w f s = answered w f.value 0#32 (faultEntry f s) :=
  respond_of_room (by rwa [RespRoom, faultEntry_respq, faultEntry_depths])

/-- Step 1 of R191: FAULT state refuses every opcode but those of NOP, INIT and RDREG. -/
theorem checkWord_of_fault (hs : s.sstate = .fault) (hop : allowedInFault (opcodeOf w) = false) : checkWord w s = .refused := by
  rw [checkOfAWordIsTheOrderedTest w s]
  exact if_pos ⟨hs, (allowedInFault_eq_false_iff _).1 hop⟩

/-- Settles O12: step 1 of R191 fails, so the word is refused. -/
theorem faultStateRefusesAllButThreeOpcodes : Obligations.FaultStateRefusesAllButThreeOpcodes := by
  intro s w rest hs hc hq hroom h0 h1 hA
  have hv : checkWord w s = .refused := checkWord_of_fault hs (by simp [allowedInFault, h0, h1, hA])
  rw [step_of_refused hc hq hv, refuse_of_room (s := { s with cmdq := rest }) hroom]
  rfl

theorem faultEntry_sameExactState (f : FaultCode) (s : State) : SameExactState s (faultEntry f s) := by
  simp [SameExactState]

/-- Settles O13: the step is fault entry, then the response. -/
theorem checkFaultsEnterTheFaultState : Obligations.CheckFaultsEnterTheFaultState := by
  refine ⟨fun s w rest f hc hq hroom hf => ?_, fun f s => ?_, by decide⟩
  · refine ⟨answered w f.value 0#32 (faultEntry f { s with cmdq := rest }), ?_, by simp, rfl, by simp, by simp,
      faultEntry_sameExactState f { s with cmdq := rest }⟩
    rw [step_of_checkFault hc hq hf, checkFault_of_room (s := { s with cmdq := rest }) hroom]
  · exact ⟨by simp, by simp, faultEntry_sameExactState f s, by simp, by simp⟩

end Sys2Proof.Machine
end

section
/-! PROOFS. What execution can do to SSTATE and FAULTCODE: the pseudocode of a command completes, holds in an open session, or raises a
corruption of a decode session, never INVARIANT (60_exceptions.md R190, R193, R198). -/

namespace Sys2Proof.Machine

variable {s t u : State} {w : Word} {q : SState}

/-! ## How pseudocode ends -/

/-- The pseudocode completes with SSTATE = `q`, holds in an open session, or raises a fault of a decode session that is not INVARIANT
(R193). -/
def EndsIn (q : SState) : Result → Prop
  | .done _ t => t.sstate = q
  | .held _ t => t.sstate = .coding
  | .raised f t => t.dir = .decode ∧ f ≠ .invariant

/-- Only a decoder's renormalisation raises a fault (40_range_coder.md R84). -/
theorem dir_of_renorm_raised {f : FaultCode} (h : renorm renormFuel s = .raised f u) : u.dir = .decode := by
  obtain ⟨t, -, he⟩ := renorm_cases s
  rw [h] at he
  cases he with
  | eof _ hd hp => exact (inPop_same hp).dir.trans hd
  | range _ _ hd _ => exact hd

section Pseudocode

variable {pos : HoldPoint} {next : State → Result}

theorem renormThen_endsIn (hs : s.sstate = .coding) (hn : ∀ t, t.sstate = .coding → Normalised t → EndsIn q (next t)) :
    EndsIn q (renormThen pos next s) := by
  have hsame := renorm_same s
  unfold renormThen
  cases hr : renorm renormFuel s <;> rw [hr] at hsame
  case settled t => exact hn t (hsame.sstate.trans hs) (renorm_settled_iff.1 hr).2
  case held t => exact hsame.sstate.trans hs
  case raised f t =>
    refine ⟨dir_of_renorm_raised hr, ?_⟩
    rcases renorm_raised hr with rfl | rfl <;> decide

/-- In an ordered interval the self-check before the subdivision passes (log entry 8). -/
theorem rcEncode_endsIn (hs : s.sstate = .coding) (hlt : s.low < s.high)
    (hn : ∀ t, t.sstate = .coding → Normalised t → EndsIn q (next t)) (y : Bool) (p : Nat) : EndsIn q (rcEncode y p pos next s) := by
  rw [rcEncode, if_pos hlt]
  exact renormThen_endsIn ((narrow_same y p s).sstate.trans hs) hn

/-- A decoded bit is coded as the bit CODE selects. -/
theorem rcDecode_endsIn {pos : Bool → HoldPoint} {next : Bool → State → Result} (hs : s.sstate = .coding) (hlt : s.low < s.high)
    (hn : ∀ y t, t.sstate = .coding → Normalised t → EndsIn q (next y t)) (p : Nat) : EndsIn q (rcDecode p pos next s) :=
  rcEncode_endsIn hs hlt (hn _) (decodedBit p s) p

/-- What follows a predicted bit, its end included. -/
theorem finishPredBit_endsIn (hn : ∀ t, t.sstate = .coding → Normalised t → EndsIn q (next t)) (y : Bool) (t : State)
    (hs : t.sstate = .coding) (ht : Normalised t) : EndsIn q (next (finishPredBit y t)) :=
  hn _ (by simpa [finishPredBit, train_eq] using hs) (normalised_finishPredBit (renorm_of_normalised ht) y)

theorem encByteFrom_endsIn (v : Byte) (k : Nat) (s : State) (hs : s.sstate = .coding) (h : Normalised s) :
    EndsIn .coding (encByteFrom v k s) := by
  induction k generalizing s with
  | zero => exact hs
  | succ k ih => exact rcEncode_endsIn hs h.lt (finishPredBit_endsIn ih _) _ _

theorem decByteFrom_endsIn (k : Nat) (acc : Byte) (s : State) (hs : s.sstate = .coding) (h : Normalised s) :
    EndsIn .coding (decByteFrom k acc s) := by
  induction k generalizing acc s with
  | zero => exact hs
  | succ k ih => exact rcDecode_endsIn hs h.lt (fun y => finishPredBit_endsIn (ih (pushBit acc y)) y) _

theorem primeFrom_endsIn (left : Nat) (hs : s.sstate = .coding) (hd : s.dir = .decode) : EndsIn .coding (primeFrom left s) := by
  induction left generalizing s with
  | zero => exact hs
  | succ left ih =>
    unfold primeFrom
    cases hp : inPop s with
    | empty => exact hs
    | item x t =>
      have same := inPop_same hp
      cases x with
      | byte b => exact ih (same.sstate.trans hs) (same.dir.trans hd)
      | endMark => exact ⟨same.dir.trans hd, by decide⟩

theorem flushEncFrom_endsIn (left : Nat) (hs : s.sstate = .coding) : EndsIn .done (flushEncFrom left s) := by
  induction left generalizing s with
  | zero => exact rfl
  | succ left ih =>
    unfold flushEncFrom
    cases hp : outPush (s.low.extractLsb' (8 * left) 8) s with
    | none => exact hs
    | some t => exact ih ((outPush_same hp).sstate.trans hs)

theorem endItem_endsIn (hs : s.sstate = .coding) (hd : s.dir = .decode) : EndsIn .done (endItem s) := by
  unfold endItem
  cases hp : inPop s with
  | empty => exact hs
  | item x t =>
    cases x with
    | byte b => exact ⟨(inPop_same hp).dir.trans hd, by decide⟩
    | endMark => exact rfl

theorem flushSem_endsIn (hs : s.sstate = .coding) : EndsIn .done (flushSem s) := by
  cases hd : s.dir with
  | encode =>
    rw [flushSem_of_encode hd]
    exact flushEncFrom_endsIn 4 hs
  | decode =>
    rw [flushSem_of_decode hd, endDec]
    split
    · exact endItem_endsIn hs hd
    · exact ⟨hd, by decide⟩

theorem initSem_endsIn (d : Dir) (m : BitVec 2) (a : Bool) (s : State) : EndsIn .coding (initSem d m a s) := by
  cases d with
  | encode => exact rfl
  | decode => exact primeFrom_endsIn 4 rfl rfl

end Pseudocode

/-- SSTATE where a command completes: FLUSH ends the session, NOP, GETP and RDREG change nothing. -/
def endOf (i : Instr) (s : State) : SState :=
  match i with
  | .flush => .done
  | .nop => s.sstate
  | .getp => s.sstate
  | .rdreg _ => s.sstate
  | _ => .coding

/-- From a command boundary every command whose checks pass ends so. -/
theorem semOf_endsIn {i : Instr} (h : Boundary s) (hok : check i s = .ok) : EndsIn (endOf i s) (semOf i s) := by
  have coding (hi : allowedInFault i.opc = false) : s.sstate = .coding := (sessionChecks_of_check hok hi).coding
  have ordered (hi : allowedInFault i.opc = false) : Normalised s := h.normalised (by simp [coding hi])
  cases i with
  | nop => exact rfl
  | init d m a => exact initSem_endsIn d m a s
  | encBit b => exact rcEncode_endsIn (coding rfl) (ordered rfl).lt (finishPredBit_endsIn (next := encBitDone) (fun _ ht _ => ht) b) b _
  | encByte v => exact encByteFrom_endsIn v 8 s (coding rfl) (ordered rfl)
  | decBit =>
    exact rcDecode_endsIn (coding rfl) (ordered rfl).lt (fun y => finishPredBit_endsIn (next := decBitDone y) (fun _ ht _ => ht) y) _
  | decByte => exact decByteFrom_endsIn 8 _ s (coding rfl) (ordered rfl)
  | encRaw b p => exact rcEncode_endsIn (next := encRawDone) (coding rfl) (ordered rfl).lt (fun _ ht _ => ht) b _
  | decRaw p => exact rcDecode_endsIn (next := decRawDone) (coding rfl) (ordered rfl).lt (fun _ _ ht _ => ht) _
  | flush => exact flushSem_endsIn (coding rfl)
  | getp => exact rfl
  | rdreg r => exact rfl

/-- SSTATE where the pseudocode of a held command completes. -/
def HoldPoint.endsIn : HoldPoint → SState
  | .flushEnc _ => .done
  | .flushDec => .done
  | _ => .coding

/-- A held command of a sound state answers, or goes on with the rest of its pseudocode in an open session. -/
theorem resume_cases_of_heldAt {c : InProgress} (h : HeldAt c.word c.pos s) :
    (∃ st data, c.pos = .respond st data ∧ resume c s = respond c.word st data s) ∨
    ∃ r, s.sstate = .coding ∧ resume c s = settle c.word r ∧ SemWrites s r.state ∧ EndsIn c.pos.endsIn r := by
  obtain ⟨w, pos⟩ := c
  have hcmd := h.command
  cases pos with
  | prime left =>
    obtain ⟨-, hs, hd, -⟩ := hcmd
    exact .inr ⟨_, hs, rfl, primeFrom_writes left s, primeFrom_endsIn left hs hd⟩
  | encBit =>
    obtain ⟨-, hs, -⟩ := hcmd
    exact .inr ⟨_, hs, rfl, renormThen_writes (finishPredBit_writes encBitDone_writes _) s,
      renormThen_endsIn hs (finishPredBit_endsIn (next := encBitDone) (fun _ ht _ => ht) _)⟩
  | encByte k =>
    obtain ⟨-, hs, -⟩ := hcmd
    exact .inr ⟨_, hs, rfl, renormThen_writes (finishPredBit_writes (encByteFrom_writes (w.extractLsb' 0 8) k) _) s,
      renormThen_endsIn hs (finishPredBit_endsIn (encByteFrom_endsIn _ k) _)⟩
  | decBit y =>
    obtain ⟨-, hs, -⟩ := hcmd
    exact .inr ⟨_, hs, rfl, renormThen_writes (finishPredBit_writes (decBitDone_writes y) y) s,
      renormThen_endsIn hs (finishPredBit_endsIn (next := decBitDone y) (fun _ ht _ => ht) y)⟩
  | decByte k acc y =>
    obtain ⟨-, hs, -⟩ := hcmd
    exact .inr ⟨_, hs, rfl, renormThen_writes (finishPredBit_writes (decByteFrom_writes k (pushBit acc y)) y) s,
      renormThen_endsIn hs (finishPredBit_endsIn (decByteFrom_endsIn k _) y)⟩
  | encRaw =>
    obtain ⟨-, hs, -⟩ := hcmd
    exact .inr ⟨_, hs, rfl, renormThen_writes encRawDone_writes s, renormThen_endsIn (next := encRawDone) hs fun _ ht _ => ht⟩
  | decRaw y =>
    obtain ⟨-, hs, -⟩ := hcmd
    exact .inr ⟨_, hs, rfl, renormThen_writes (decRawDone_writes y) s, renormThen_endsIn (next := decRawDone y) hs fun _ ht _ => ht⟩
  | flushEnc left =>
    obtain ⟨-, hs, -⟩ := hcmd
    exact .inr ⟨_, hs, rfl, flushEncFrom_writes left s, flushEncFrom_endsIn left hs⟩
  | flushDec =>
    obtain ⟨-, hs, hd, -⟩ := hcmd
    exact .inr ⟨_, hs, rfl, endItem_writes s, endItem_endsIn hs hd⟩
  | respond st data => exact .inl ⟨st, data, rfl, rfl⟩

/-! ## Steps of a sound state -/

/-- No check faults INVARIANT (R191). -/
theorem ne_invariant_of_checkWord {f : FaultCode} (h : checkWord w s = .fault f) : f ≠ .invariant := by
  rintro rfl
  cases hd : decode w with
  | ok i =>
    rw [checkWord_of_ok hd, check] at h
    split_ifs at h <;> cases h
  | error e =>
    rw [checkWord_of_error hd] at h
    split_ifs at h
    cases e <;> cases h

/-- What a step of a sound state does. -/
inductive SoundStep (s : State) : State → Prop where
  | idle : SoundStep s s
  /-- A command held at its response goes on. -/
  | answer (w : Word) (st : BitVec 8) (data : Word) : SoundStep s (respond w st data s)
  /-- A command held inside its pseudocode goes on. -/
  | goOn (w : Word) {r : Result} {q : SState} (hs : s.sstate = .coding) (hw : SemWrites s r.state) (he : EndsIn q r) :
      SoundStep s (settle w r)
  | refusal (w : Word) (rest : List Word) : SoundStep s (refuse w { s with cmdq := rest })
  | checkFault (w : Word) (rest : List Word) {f : FaultCode} (hf : f ≠ .invariant) :
      SoundStep s (checkFault w f { s with cmdq := rest })
  | command {w : Word} (rest : List Word) {i : Instr} (hw : takenWord s = some w) (hd : decode w = .ok i) (hok : check i s = .ok)
      (he : EndsIn (endOf i s) (semOf i { s with cmdq := rest })) : SoundStep s (settle w (semOf i { s with cmdq := rest }))

theorem soundStep_of_inv (h : Inv s) (hst : step s = .next t) : SoundStep s t := by
  cases hc : s.cip with
  | some c =>
    rcases resume_cases_of_heldAt (h.heldAt hc) with ⟨st, data, -, hr⟩ | ⟨r, hs, hr, hw, he⟩ <;>
      cases hst.symm.trans ((step_of_inProgress hc).trans (congrArg _ hr))
    · exact .answer _ st data
    · exact .goOn _ hs hw he
  | none =>
    cases hq : s.cmdq with
    | nil =>
      have hidle : step s = .next s := by simp [step, fetch, hc, hq]
      cases hst.symm.trans hidle
      exact .idle
    | cons w rest =>
      rcases step_verdict hc hq with ⟨-, hr⟩ | ⟨f, hf, hr⟩ | ⟨i, hd, hok, hr⟩ <;> cases hst.symm.trans hr
      · exact .refusal w rest
      · exact .checkFault w rest (ne_invariant_of_checkWord hf)
      · rw [checkWord_of_ok hd] at hok
        exact .command rest (by simp [takenWord, hc, hq]) hd hok (semOf_endsIn ((h.boundary hc).take rest) hok)

/-! ## INVARIANT is never recorded -/

/-- From `s` to `t` FAULTCODE does not become INVARIANT. -/
def RecordsNoInvariant (s t : State) : Prop := s.faultcode ≠ 0x0B#8 → t.faultcode ≠ 0x0B#8

theorem FaultCode.value_eq_invariant_iff (f : FaultCode) : f.value = 0x0B#8 ↔ f = .invariant := by cases f <;> decide

/-- Pseudocode keeps FAULTCODE, or clears it where INIT begins a session (43_commands.md R152). -/
theorem SemWrite.recordsNoInvariant (h : SemWrite s t) : RecordsNoInvariant s t := by
  intro hs
  cases h with
  | coder h => rwa [h.faultcode]
  | predBit y => simpa [finishPredBit, train_eq] using hs
  | rawBit => exact hs
  | start d m a => exact (by decide : (0#8) ≠ 0x0B#8)
  | finish => exact hs

theorem SemWrites.recordsNoInvariant (h : SemWrites s t) : RecordsNoInvariant s t := by
  induction h with
  | refl => exact id
  | tail _ h ih => exact fun hs => h.recordsNoInvariant (ih hs)

theorem respond_recordsNoInvariant (w : Word) (st : BitVec 8) (data : Word) (s : State) :
    RecordsNoInvariant s (respond w st data s) := by
  simp [RecordsNoInvariant]

theorem checkFault_recordsNoInvariant {f : FaultCode} (hf : f ≠ .invariant) (w : Word) (s : State) :
    RecordsNoInvariant s (checkFault w f s) := by
  intro hs
  rw [checkFault, respond_faultcode, faultEntry_faultcode]
  split
  · exact hs
  · exact fun hv => hf (f.value_eq_invariant_iff.1 hv)

theorem EndsIn.settle_recordsNoInvariant {r : Result} (he : EndsIn q r) (w : Word) : RecordsNoInvariant r.state (settle w r) := by
  cases r with
  | done data t => exact respond_recordsNoInvariant w _ data t
  | held pos t => exact id
  | raised f t => exact checkFault_recordsNoInvariant he.2 w t

/-- Settles O16: no check faults INVARIANT, and no pseudocode raises it from a sound state. -/
theorem invariantFaultNeverFires : Obligations.InvariantFaultNeverFires := by
  intro s t h hs hst
  cases soundStep_of_inv h hst with
  | idle => exact hs
  | answer w st data => exact respond_recordsNoInvariant w st data s hs
  | goOn w _ hw he => exact he.settle_recordsNoInvariant w (hw.recordsNoInvariant hs)
  | refusal w rest => exact respond_recordsNoInvariant w _ _ { s with cmdq := rest } hs
  | checkFault w rest hf => exact checkFault_recordsNoInvariant hf w { s with cmdq := rest } hs
  | command rest _ _ _ he => exact he.settle_recordsNoInvariant _ ((semOf_writes _ _).recordsNoInvariant hs)

/-! ## Out of FAULT state -/

/-- A command that completes in an open session leaves it open, unless a decoder's fault is raised. -/
theorem EndsIn.settle_coding {r : Result} (he : EndsIn .coding r) (w : Word) :
    (settle w r).sstate = .coding ∨ ((settle w r).sstate = .fault ∧ (settle w r).dir = .decode) := by
  cases r with
  | done data t => exact .inl ((respond_sstate w _ data t).trans he)
  | held pos t => exact .inl he
  | raised f t => exact .inr ⟨by simp [settle], (settle_sameConfig w (.raised f t)).dir.trans he.1⟩

/-- Outside FAULT state FAULTCODE is 0 (10_state.md R22). -/
theorem Inv.faultcode_eq_zero (h : Inv s) (hs : s.sstate ≠ .fault) : s.faultcode = 0#8 := by
  simpa [FaultcodeOk, hs] using h.faultcode

/-- A command that passes its checks in FAULT state is NOP, INIT or RDREG (R191 step 1). -/
theorem allowedInFault_of_check {i : Instr} (hok : check i s = .ok) (hs : s.sstate = .fault) : allowedInFault i.opc = true := by
  by_contra hi
  cases hs.symm.trans (sessionChecks_of_check hok (Bool.not_eq_true _ ▸ hi)).coding

/-- Settles O14: the only step out of FAULT state is a command whose checks pass there and which is neither NOP nor RDREG. -/
theorem onlyInitOrResetLeavesFault : Obligations.OnlyInitOrResetLeavesFault := by
  refine ⟨fun s t h hs hst hne => ?_, fun s => ⟨rfl, rfl⟩, fun s d m a hs hc hroom hm => ?_⟩
  · have hcode : t.faultcode = 0#8 := (h.step hst).faultcode_eq_zero hne
    cases soundStep_of_inv h hst with
    | idle => exact absurd hs hne
    | answer w st data => exact absurd ((respond_sstate w st data s).trans hs) hne
    | goOn w hcoding _ _ => cases hs.symm.trans hcoding
    | refusal w rest => exact absurd ((respond_sstate w _ _ { s with cmdq := rest }).trans hs) hne
    | checkFault w rest _ => exact absurd ((respond_sstate w _ _ _).trans (faultEntry_sstate _ _)) hne
    | @command w rest i hw hd hok he =>
      have hi := allowedInFault_of_check hok hs
      cases i with
      | nop => exact absurd ((respond_sstate w _ _ { s with cmdq := rest }).trans hs) hne
      | rdreg reg => exact absurd ((respond_sstate w _ _ { s with cmdq := rest }).trans hs) hne
      | init d m a =>
        have hcoding := (he.settle_coding w).resolve_right fun hf => hne hf.1
        exact ⟨w, hw, ⟨d, m, a, hd, fieldsLegal_of_check hok⟩, hcoding, hcode⟩
      | _ => cases hi
  · have hfault : check (.init d m a) s = .fault .illegalField := by simp [check, fieldsLegal, hm, allowedInFault, Instr.opc]
    have hexec : execute (.init d m a) (semOf (.init d m a)) s = checkFault (encode (.init d m a)) .illegalField s := by
      rw [execute, hfault]
    rw [exec_eq, hexec, checkFault_of_room hroom, faultEntry_of_fault hs]
    simp [answered, FaultCode.value, hc]

/-! ## Encoding commands -/

/-- Pseudocode of an encode session that completes in it or holds leaves SSTATE as it is (R193). -/
theorem EndsIn.settle_encode {r : Result} (he : EndsIn .coding r) (hd : r.state.dir = .encode) (w : Word) :
    (settle w r).sstate = .coding := by
  refine (he.settle_coding w).resolve_right fun ⟨_, hdec⟩ => ?_
  cases hd.symm.trans ((settle_sameConfig w r).dir.symm.trans hdec)

/-- An encoding command whose checks pass leaves its session open (43_commands.md R153). -/
theorem settle_semOf_encoding {i : Instr} (h : Boundary s) (hok : check i s = .ok) (hside : sideOf i = some .encode) (w : Word) :
    s.sstate = .coding ∧ (settle w (semOf i s)).sstate = .coding := by
  have hi : allowedInFault i.opc = false ∧ (∀ d m a, i ≠ .init d m a) ∧ endOf i s = .coding := by
    cases i <;> cases hside <;> exact ⟨rfl, nofun, rfl⟩
  obtain ⟨hopc, hinit, hend⟩ := hi
  obtain ⟨hs, hd, -⟩ := sessionChecks_of_check hok hopc
  have hdir : s.dir = .encode := by simpa [hside, eq_comm] using hd
  exact ⟨hs, EndsIn.settle_encode (hend ▸ semOf_endsIn h hok) ((semOf_sameConfig hinit s).dir.trans hdir) w⟩

/-- A held encoding command is one of an encode session, if it is not held at its response (10_state.md R33). -/
theorem HeldCommandOk.encoding {pos : HoldPoint} (h : HeldCommandOk s w pos)
    (hop : opcodeOf w = 0x2#4 ∨ opcodeOf w = 0x3#4 ∨ opcodeOf w = 0x6#4) :
    (∃ st data, pos = .respond st data) ∨ (s.dir = .encode ∧ pos.waits = .onOutput ∧ pos.endsIn = .coding) := by
  cases pos with
  | encBit =>
    obtain ⟨-, -, hd, -⟩ := h
    exact .inr ⟨hd, rfl, rfl⟩
  | encByte k =>
    obtain ⟨-, -, hd, -⟩ := h
    exact .inr ⟨hd, rfl, rfl⟩
  | encRaw =>
    obtain ⟨-, -, hd⟩ := h
    exact .inr ⟨hd, rfl, rfl⟩
  | respond st data => exact .inl ⟨st, data, rfl⟩
  | _ =>
    obtain ⟨hw, -⟩ := h
    simp [hw] at hop

/-- Settles O17: in an encode session no renormalisation raises a fault and the self-check passes, so SSTATE stays CODING, where
FAULTCODE is 0. -/
theorem encodingCommandsRaiseNoExecutionFault : Obligations.EncodingCommandsRaiseNoExecutionFault := by
  have faultcode {s t : State} (h : Inv s) (hs : s.sstate = .coding) (h' : Inv t) (ht : t.sstate = .coding) :
      t.faultcode = s.faultcode := by
    rw [h.faultcode_eq_zero (by simp [hs]), h'.faultcode_eq_zero (by simp [ht])]
  refine ⟨fun s t i h hc hi hok hst => ?_, fun s t c h hc hop hst => ?_⟩
  · have hside : sideOf i = some .encode := by rcases hi with ⟨b, rfl⟩ | ⟨v, rfl⟩ | ⟨b, p, rfl⟩ <;> rfl
    have hinv : Inv (execute i (semOf i) s) := (h.boundary hc).execute i
    obtain ⟨hs, ht⟩ := settle_semOf_encoding (h.boundary hc) hok hside (encode i)
    rw [exec_eq] at hst
    cases hst
    rw [execute_of_ok hok] at hinv ⊢
    exact ⟨ht, faultcode h hs hinv ht⟩
  · have hinv : Inv t := h.step hst
    rw [step_of_inProgress hc] at hst
    cases hst
    have hheld := h.heldAt hc
    rcases hheld.command.encoding hop with ⟨st, data, hpos⟩ | ⟨hd, hwaits, hend⟩
    · have hr : resume c s = respond c.word st data s := by rw [resume, hpos]
      rw [hr]
      exact ⟨respond_sstate _ _ _ s, respond_faultcode _ _ _ s, by rw [hpos]; exact nofun⟩
    · rcases resume_cases_of_heldAt hheld with ⟨st, data, hpos, -⟩ | ⟨r, hs, hr, -, he⟩
      · rw [hpos] at hwaits
        cases hwaits
      · have hdir := (resume_sameConfig c s).dir
        rw [hr] at hinv hdir ⊢
        have ht := (hend ▸ he).settle_encode ((settle_sameConfig c.word r).dir.symm.trans (hdir.trans hd)) c.word
        exact ⟨ht.trans hs.symm, faultcode h hs hinv ht, fun _ => ht⟩

end Sys2Proof.Machine
end
